-- ==== Sys2Proof/Word.lean ====
section
/-! DEFINITION. The word, the byte and the register number, and how four bytes make a word.
The widths are those of `00_scope.md` R7 and `30_encoding.md` R71. -/

namespace Sys2Proof

/-- A 32-bit value: a register, `pc`, an address, an instruction (R7, R10). -/
abbrev Word := BitVec 32

/-- The addressable unit, the 8-bit byte (R7, R40). -/
abbrev Byte := BitVec 8

/-- A register number, the 5-bit field `rd`, `rs1` or `rs2` (R21, R71). -/
abbrev RegNum := BitVec 5

/-- The width of a data access (R50). -/
inductive Width where
  | byte
  | half
  | word
  deriving DecidableEq, Repr

/-- How many bits an access moves (R50). -/
abbrev Width.bits : Width → Nat
  | .byte => 8
  | .half => 16
  | .word => 32

/-- How many bytes an access moves (R50). -/
def Width.bytes : Width → Nat
  | .byte => 1
  | .half => 2
  | .word => 4

/-- Little-endian assembly of a half-word: the first byte is the least significant (R42, R44). -/
def halfOfBytes (b0 b1 : Byte) : BitVec 16 := b1 ++ b0

/-- Little-endian assembly of a word, data or instruction (R42, R44, R46). -/
def wordOfBytes (b0 b1 b2 b3 : Byte) : Word := b3 ++ b2 ++ b1 ++ b0

end Sys2Proof
end

