-- ==== Sys2Proof/Machine/Flags.lean ====
section
/-! DEFINITION. The hardware has no flags (`10_state.md` R30): a comparison gives 0 or 1 to a register, or decides
a branch at once. These are the comparisons (`00_scope.md` R11). -/

namespace Sys2Proof.Machine

/-- `a == b`, all 32 bits (R11). -/
def condEq (a b : Word) : Bool := a == b
/-- `a != b` (R11). -/
def condNe (a b : Word) : Bool := a != b
/-- `a <s b`, two's complement (R10, R11). -/
def condLt (a b : Word) : Bool := decide (a.toInt < b.toInt)
/-- `a >=s b` (R11). -/
def condGe (a b : Word) : Bool := decide (b.toInt ≤ a.toInt)
/-- `a <u b` (R11). -/
def condLtu (a b : Word) : Bool := decide (a.toNat < b.toNat)
/-- `a >=u b` (R11). -/
def condGeu (a b : Word) : Bool := decide (b.toNat ≤ a.toNat)

/-- The result of a set-less-than: 1 or 0 (R109). -/
def flagWord (c : Bool) : Word := if c then 0x00000001#32 else 0x00000000#32

end Sys2Proof.Machine
end

