-- ==== Sys2Proof/Syntax.lean ====
section
/-! DEFINITION. The instructions: one constructor for each of the 40 rows of `spec/opcode_table.json`, with
the operands its format has (`30_encoding.md` R71 to R78, R87). A register operand is a 5-bit number; an
immediate is the instruction's own field before extension (`Machine/Operands.lean` extends it), a B or J
offset carries its unstored bit 0 (R76, R78), which `WellFormed.lean` requires to be 0. -/

namespace Sys2Proof

/-- One constructor per row of the opcode table, in the card's order. -/
inductive Instr where
  -- Arithmetic, format R (R101 to R110)
  | add (rd rs1 rs2 : RegNum)
  | sub (rd rs1 rs2 : RegNum)
  | and (rd rs1 rs2 : RegNum)
  | or (rd rs1 rs2 : RegNum)
  | xor (rd rs1 rs2 : RegNum)
  | sll (rd rs1 rs2 : RegNum)
  | srl (rd rs1 rs2 : RegNum)
  | sra (rd rs1 rs2 : RegNum)
  | slt (rd rs1 rs2 : RegNum)
  | sltu (rd rs1 rs2 : RegNum)
  -- Arithmetic, formats I and I* (R111 to R119)
  | addi (rd rs1 : RegNum) (imm : BitVec 12)
  | andi (rd rs1 : RegNum) (imm : BitVec 12)
  | ori (rd rs1 : RegNum) (imm : BitVec 12)
  | xori (rd rs1 : RegNum) (imm : BitVec 12)
  | slli (rd rs1 : RegNum) (shamt : BitVec 5)
  | srli (rd rs1 : RegNum) (shamt : BitVec 5)
  | srai (rd rs1 : RegNum) (shamt : BitVec 5)
  | slti (rd rs1 : RegNum) (imm : BitVec 12)
  | sltiu (rd rs1 : RegNum) (imm : BitVec 12)
  -- Memory: loads, format I (R131 to R135); stores, format S (R136 to R138)
  | lb (rd rs1 : RegNum) (imm : BitVec 12)
  | lbu (rd rs1 : RegNum) (imm : BitVec 12)
  | lh (rd rs1 : RegNum) (imm : BitVec 12)
  | lhu (rd rs1 : RegNum) (imm : BitVec 12)
  | lw (rd rs1 : RegNum) (imm : BitVec 12)
  | sb (rs1 rs2 : RegNum) (imm : BitVec 12)
  | sh (rs1 rs2 : RegNum) (imm : BitVec 12)
  | sw (rs1 rs2 : RegNum) (imm : BitVec 12)
  -- Control, formats B, J and I (R151 to R158)
  | beq (rs1 rs2 : RegNum) (offset : BitVec 13)
  | bne (rs1 rs2 : RegNum) (offset : BitVec 13)
  | blt (rs1 rs2 : RegNum) (offset : BitVec 13)
  | bltu (rs1 rs2 : RegNum) (offset : BitVec 13)
  | bge (rs1 rs2 : RegNum) (offset : BitVec 13)
  | bgeu (rs1 rs2 : RegNum) (offset : BitVec 13)
  | jal (rd : RegNum) (offset : BitVec 21)
  | jalr (rd rs1 : RegNum) (imm : BitVec 12)
  -- Other, formats U and I (R170 to R173)
  | auipc (rd : RegNum) (immu : BitVec 20)
  | lui (rd : RegNum) (immu : BitVec 20)
  | ebreak
  | ecall
  -- Extension, format R, only with HAS_MUL (R180, R181)
  | mul (rd rs1 rs2 : RegNum)
  deriving DecidableEq, Repr

end Sys2Proof
end

