-- ==== Sys2Proof/WellFormed.lean ====
section
/-! DEFINITION. Which terms of `Instr` are instructions: every operand field is exactly as wide as the
encoding's, so the one check is that a B or J offset is even (`30_encoding.md` R76, R78, R82, R84: `imm[0]` is
not stored). -/

namespace Sys2Proof

/-- A byte offset whose bit 0 is 0, as the B and J formats store it (R82, R84). -/
def evenOffset {n : Nat} (offset : BitVec n) : Bool := !offset.getLsbD 0

/-- The instructions that have an encoding (R82, R84). -/
def Instr.wf : Instr → Bool
  | .beq _ _ offset => evenOffset offset
  | .bne _ _ offset => evenOffset offset
  | .blt _ _ offset => evenOffset offset
  | .bltu _ _ offset => evenOffset offset
  | .bge _ _ offset => evenOffset offset
  | .bgeu _ _ offset => evenOffset offset
  | .jal _ offset => evenOffset offset
  | .add _ _ _ | .sub _ _ _ | .and _ _ _ | .or _ _ _ | .xor _ _ _ | .sll _ _ _ | .srl _ _ _ | .sra _ _ _
  | .slt _ _ _ | .sltu _ _ _ | .addi _ _ _ | .andi _ _ _ | .ori _ _ _ | .xori _ _ _ | .slli _ _ _
  | .srli _ _ _ | .srai _ _ _ | .slti _ _ _ | .sltiu _ _ _ | .lb _ _ _ | .lbu _ _ _ | .lh _ _ _
  | .lhu _ _ _ | .lw _ _ _ | .sb _ _ _ | .sh _ _ _ | .sw _ _ _ | .jalr _ _ _ | .auipc _ _ | .lui _ _
  | .ebreak | .ecall | .mul _ _ _ => true

/-- Whether the instruction belongs to the extension table and needs `HAS_MUL` (R180). -/
def Instr.isMul : Instr → Bool
  | .mul _ _ _ => true
  | .add _ _ _ | .sub _ _ _ | .and _ _ _ | .or _ _ _ | .xor _ _ _ | .sll _ _ _ | .srl _ _ _ | .sra _ _ _
  | .slt _ _ _ | .sltu _ _ _ | .addi _ _ _ | .andi _ _ _ | .ori _ _ _ | .xori _ _ _ | .slli _ _ _
  | .srli _ _ _ | .srai _ _ _ | .slti _ _ _ | .sltiu _ _ _ | .lb _ _ _ | .lbu _ _ _ | .lh _ _ _
  | .lhu _ _ _ | .lw _ _ _ | .sb _ _ _ | .sh _ _ _ | .sw _ _ _ | .beq _ _ _ | .bne _ _ _ | .blt _ _ _
  | .bltu _ _ _ | .bge _ _ _ | .bgeu _ _ _ | .jal _ _ | .jalr _ _ _ | .auipc _ _ | .lui _ _ | .ebreak
  | .ecall => false

end Sys2Proof
end

