-- ==== Sys2Proof/Decode.lean ====
section
/-! DEFINITION. The decoder and the encoder (`30_encoding.md`). The decoder is the opcode table itself: R87's
rows, each a mask, a pattern and the instruction its fields make; a word is an instruction exactly when a row
accepts it (R85), any other word is rejected by name (R88). The encoder lays the fields out by format (R72 to
R78). -/

namespace Sys2Proof

/-! ## Fields of an instruction word (R71) -/

/-- `inst[6:0]` (R71). -/
def opcodeOf (w : Word) : BitVec 7 := w.extractLsb' 0 7
/-- `inst[11:7]` (R71). -/
def rdOf (w : Word) : RegNum := w.extractLsb' 7 5
/-- `inst[14:12]` (R71). -/
def funct3Of (w : Word) : BitVec 3 := w.extractLsb' 12 3
/-- `inst[19:15]` (R71). -/
def rs1Of (w : Word) : RegNum := w.extractLsb' 15 5
/-- `inst[24:20]` (R71). -/
def rs2Of (w : Word) : RegNum := w.extractLsb' 20 5
/-- `inst[31:25]` (R71). -/
def funct7Of (w : Word) : BitVec 7 := w.extractLsb' 25 7
/-- The I immediate field `inst[31:20]` (R73, R79). -/
def immIOf (w : Word) : BitVec 12 := w.extractLsb' 20 12
/-- The I* shift amount `inst[24:20]` (R74, R80). -/
def shamtOf (w : Word) : BitVec 5 := w.extractLsb' 20 5
/-- The S immediate field, `inst[31:25]` above `inst[11:7]` (R75, R81). -/
def immSOf (w : Word) : BitVec 12 := w.extractLsb' 25 7 ++ w.extractLsb' 7 5
/-- The B offset, `inst[31]`, `inst[7]`, `inst[30:25]`, `inst[11:8]`, then a zero (R76, R82). -/
def offsetBOf (w : Word) : BitVec 13 :=
  w.extractLsb' 31 1 ++ w.extractLsb' 7 1 ++ w.extractLsb' 25 6 ++ w.extractLsb' 8 4 ++ 0#1
/-- The U immediate field `inst[31:12]` (R77, R83). -/
def immUOf (w : Word) : BitVec 20 := w.extractLsb' 12 20
/-- The J offset, `inst[31]`, `inst[19:12]`, `inst[20]`, `inst[30:21]`, then a zero (R78, R84). -/
def offsetJOf (w : Word) : BitVec 21 :=
  w.extractLsb' 31 1 ++ w.extractLsb' 12 8 ++ w.extractLsb' 20 1 ++ w.extractLsb' 21 10 ++ 0#1

/-! ## What the fields make, by format -/

/-- Format R (R72). -/
def buildR (mk : RegNum → RegNum → RegNum → Instr) (w : Word) : Instr := mk (rdOf w) (rs1Of w) (rs2Of w)
/-- Format I (R73). -/
def buildI (mk : RegNum → RegNum → BitVec 12 → Instr) (w : Word) : Instr := mk (rdOf w) (rs1Of w) (immIOf w)
/-- Format I* (R74). -/
def buildShift (mk : RegNum → RegNum → BitVec 5 → Instr) (w : Word) : Instr :=
  mk (rdOf w) (rs1Of w) (shamtOf w)
/-- Format S (R75). -/
def buildS (mk : RegNum → RegNum → BitVec 12 → Instr) (w : Word) : Instr := mk (rs1Of w) (rs2Of w) (immSOf w)
/-- Format B (R76). -/
def buildB (mk : RegNum → RegNum → BitVec 13 → Instr) (w : Word) : Instr :=
  mk (rs1Of w) (rs2Of w) (offsetBOf w)
/-- Format U (R77). -/
def buildU (mk : RegNum → BitVec 20 → Instr) (w : Word) : Instr := mk (rdOf w) (immUOf w)
/-- Format J (R78). -/
def buildJ (mk : RegNum → BitVec 21 → Instr) (w : Word) : Instr := mk (rdOf w) (offsetJOf w)

/-! ## The opcode table (R87) -/

/-- One row of R87: the bits it fixes (`mask`), their value (`pattern`), whether it takes part only with
`HAS_MUL` (R85, R180), and the instruction its other bits make. -/
structure Row where
  mnemonic : String
  mask : Word
  pattern : Word
  needsMul : Bool
  build : Word → Instr

/-- A word matches a row: `(inst & mask) == match` (R85). -/
def Row.matchesWord (r : Row) (w : Word) : Bool := w &&& r.mask == r.pattern

/-- A row accepts a word: it matches, and a row of the extension table needs `HAS_MUL` (R85, R180). -/
def Row.accepts (r : Row) (hasMul : Bool) (w : Word) : Bool := r.matchesWord w && (hasMul || !r.needsMul)

/-- The arithmetic rows of R87. -/
def arithmeticRows : List Row := [
  ⟨"add", 0xFE00707F#32, 0x00000033#32, false, buildR .add⟩,
  ⟨"sub", 0xFE00707F#32, 0x40000033#32, false, buildR .sub⟩,
  ⟨"and", 0xFE00707F#32, 0x00007033#32, false, buildR .and⟩,
  ⟨"or", 0xFE00707F#32, 0x00006033#32, false, buildR .or⟩,
  ⟨"xor", 0xFE00707F#32, 0x00004033#32, false, buildR .xor⟩,
  ⟨"sll", 0xFE00707F#32, 0x00001033#32, false, buildR .sll⟩,
  ⟨"srl", 0xFE00707F#32, 0x00005033#32, false, buildR .srl⟩,
  ⟨"sra", 0xFE00707F#32, 0x40005033#32, false, buildR .sra⟩,
  ⟨"slt", 0xFE00707F#32, 0x00002033#32, false, buildR .slt⟩,
  ⟨"sltu", 0xFE00707F#32, 0x00003033#32, false, buildR .sltu⟩,
  ⟨"addi", 0x0000707F#32, 0x00000013#32, false, buildI .addi⟩,
  ⟨"andi", 0x0000707F#32, 0x00007013#32, false, buildI .andi⟩,
  ⟨"ori", 0x0000707F#32, 0x00006013#32, false, buildI .ori⟩,
  ⟨"xori", 0x0000707F#32, 0x00004013#32, false, buildI .xori⟩,
  ⟨"slli", 0xFE00707F#32, 0x00001013#32, false, buildShift .slli⟩,
  ⟨"srli", 0xFE00707F#32, 0x00005013#32, false, buildShift .srli⟩,
  ⟨"srai", 0xFE00707F#32, 0x40005013#32, false, buildShift .srai⟩,
  ⟨"slti", 0x0000707F#32, 0x00002013#32, false, buildI .slti⟩,
  ⟨"sltiu", 0x0000707F#32, 0x00003013#32, false, buildI .sltiu⟩]

/-- The load and store rows of R87. -/
def memoryRows : List Row := [
  ⟨"lb", 0x0000707F#32, 0x00000003#32, false, buildI .lb⟩,
  ⟨"lbu", 0x0000707F#32, 0x00004003#32, false, buildI .lbu⟩,
  ⟨"lh", 0x0000707F#32, 0x00001003#32, false, buildI .lh⟩,
  ⟨"lhu", 0x0000707F#32, 0x00005003#32, false, buildI .lhu⟩,
  ⟨"lw", 0x0000707F#32, 0x00002003#32, false, buildI .lw⟩,
  ⟨"sb", 0x0000707F#32, 0x00000023#32, false, buildS .sb⟩,
  ⟨"sh", 0x0000707F#32, 0x00001023#32, false, buildS .sh⟩,
  ⟨"sw", 0x0000707F#32, 0x00002023#32, false, buildS .sw⟩]

/-- The control rows of R87. -/
def controlRows : List Row := [
  ⟨"beq", 0x0000707F#32, 0x00000063#32, false, buildB .beq⟩,
  ⟨"bne", 0x0000707F#32, 0x00001063#32, false, buildB .bne⟩,
  ⟨"blt", 0x0000707F#32, 0x00004063#32, false, buildB .blt⟩,
  ⟨"bltu", 0x0000707F#32, 0x00006063#32, false, buildB .bltu⟩,
  ⟨"bge", 0x0000707F#32, 0x00005063#32, false, buildB .bge⟩,
  ⟨"bgeu", 0x0000707F#32, 0x00007063#32, false, buildB .bgeu⟩,
  ⟨"jal", 0x0000007F#32, 0x0000006F#32, false, buildJ .jal⟩,
  ⟨"jalr", 0x0000707F#32, 0x00000067#32, false, buildI .jalr⟩]

/-- The other rows of R87. `ecall` has immediate 0 and `ebreak` immediate 1, the reverse of what the card prints
(R93, `90_conflicts.md` C1, log 13); `rd` and `rs1` are fixed at 0 (D13). `mul` takes its encoding from R181. -/
def otherRows : List Row := [
  ⟨"auipc", 0x0000007F#32, 0x00000017#32, false, buildU .auipc⟩,
  ⟨"lui", 0x0000007F#32, 0x00000037#32, false, buildU .lui⟩,
  ⟨"ebreak", 0xFFFFFFFF#32, 0x00100073#32, false, fun _ => .ebreak⟩,
  ⟨"ecall", 0xFFFFFFFF#32, 0x00000073#32, false, fun _ => .ecall⟩,
  ⟨"mul", 0xFE00707F#32, 0x02000033#32, true, buildR .mul⟩]

/-- The whole opcode table, 40 rows (R87). -/
def opcodeRows : List Row := arithmeticRows ++ memoryRows ++ controlRows ++ otherRows

/-! ## Decoding (R85) -/

/-- Why the decoder has no instruction to give. -/
inductive Reject where
  /-- The word matches no row of R87: `IllegalInstruction(inst)` (R88, R212). -/
  | illegalInstruction (inst : Word)
  /-- Fewer than the four bytes an instruction occupies (R70); the machine's own fetch never gives so few. -/
  | tooFewBytes (given : Nat)
  deriving DecidableEq, Repr

/-- Decode one word under a setting of `HAS_MUL`: the one row that accepts it, or a rejection (R85, R88). It
depends on nothing but the 32 bits and that parameter. -/
def decodeWord (hasMul : Bool) (w : Word) : Except Reject Instr :=
  match opcodeRows.find? (fun r => r.accepts hasMul w) with
  | some r => .ok (r.build w)
  | none => .error (.illegalInstruction w)

/-- Decode the instruction at the head of any bytes, lowest address first: four bytes in little-endian order
(R46, R70); the rest of the bytes is given back. -/
def decodeBytes (hasMul : Bool) : List Byte → Except Reject (Instr × List Byte)
  | b0 :: b1 :: b2 :: b3 :: rest =>
    match decodeWord hasMul (wordOfBytes b0 b1 b2 b3) with
    | .ok i => .ok (i, rest)
    | .error r => .error r
  | bytes => .error (.tooFewBytes bytes.length)

/-! ## Encoding (R72 to R78) -/

/-- Format R (R72). -/
def encodeR (funct7 : BitVec 7) (funct3 : BitVec 3) (opcode : BitVec 7) (rd rs1 rs2 : RegNum) : Word :=
  funct7 ++ rs2 ++ rs1 ++ funct3 ++ rd ++ opcode
/-- Format I (R73). -/
def encodeI (funct3 : BitVec 3) (opcode : BitVec 7) (rd rs1 : RegNum) (imm : BitVec 12) : Word :=
  imm ++ rs1 ++ funct3 ++ rd ++ opcode
/-- Format I* (R74). -/
def encodeShift (funct7 : BitVec 7) (funct3 : BitVec 3) (opcode : BitVec 7) (rd rs1 : RegNum)
    (shamt : BitVec 5) : Word :=
  funct7 ++ shamt ++ rs1 ++ funct3 ++ rd ++ opcode
/-- Format S (R75). -/
def encodeS (funct3 : BitVec 3) (opcode : BitVec 7) (rs1 rs2 : RegNum) (imm : BitVec 12) : Word :=
  imm.extractLsb' 5 7 ++ rs2 ++ rs1 ++ funct3 ++ imm.extractLsb' 0 5 ++ opcode
/-- Format B: `imm[12|10:5]` above, `imm[4:1|11]` below; `imm[0]` is not stored (R76). -/
def encodeB (funct3 : BitVec 3) (opcode : BitVec 7) (rs1 rs2 : RegNum) (offset : BitVec 13) : Word :=
  offset.extractLsb' 12 1 ++ offset.extractLsb' 5 6 ++ rs2 ++ rs1 ++ funct3 ++ offset.extractLsb' 1 4 ++
    offset.extractLsb' 11 1 ++ opcode
/-- Format U (R77). -/
def encodeU (opcode : BitVec 7) (rd : RegNum) (immu : BitVec 20) : Word := immu ++ rd ++ opcode
/-- Format J: `imm[20|10:1|11|19:12]`; `imm[0]` is not stored (R78). -/
def encodeJ (opcode : BitVec 7) (rd : RegNum) (offset : BitVec 21) : Word :=
  offset.extractLsb' 20 1 ++ offset.extractLsb' 1 10 ++ offset.extractLsb' 11 1 ++ offset.extractLsb' 12 8 ++
    rd ++ opcode

/-- The word of a well-formed instruction, from R87's Opcode, Funct3 and Funct7 columns. -/
def encode : Instr → Word
  | .add rd rs1 rs2 => encodeR 0b0000000#7 0b000#3 0b0110011#7 rd rs1 rs2
  | .sub rd rs1 rs2 => encodeR 0b0100000#7 0b000#3 0b0110011#7 rd rs1 rs2
  | .and rd rs1 rs2 => encodeR 0b0000000#7 0b111#3 0b0110011#7 rd rs1 rs2
  | .or rd rs1 rs2 => encodeR 0b0000000#7 0b110#3 0b0110011#7 rd rs1 rs2
  | .xor rd rs1 rs2 => encodeR 0b0000000#7 0b100#3 0b0110011#7 rd rs1 rs2
  | .sll rd rs1 rs2 => encodeR 0b0000000#7 0b001#3 0b0110011#7 rd rs1 rs2
  | .srl rd rs1 rs2 => encodeR 0b0000000#7 0b101#3 0b0110011#7 rd rs1 rs2
  | .sra rd rs1 rs2 => encodeR 0b0100000#7 0b101#3 0b0110011#7 rd rs1 rs2
  | .slt rd rs1 rs2 => encodeR 0b0000000#7 0b010#3 0b0110011#7 rd rs1 rs2
  | .sltu rd rs1 rs2 => encodeR 0b0000000#7 0b011#3 0b0110011#7 rd rs1 rs2
  | .addi rd rs1 imm => encodeI 0b000#3 0b0010011#7 rd rs1 imm
  | .andi rd rs1 imm => encodeI 0b111#3 0b0010011#7 rd rs1 imm
  | .ori rd rs1 imm => encodeI 0b110#3 0b0010011#7 rd rs1 imm
  | .xori rd rs1 imm => encodeI 0b100#3 0b0010011#7 rd rs1 imm
  | .slli rd rs1 shamt => encodeShift 0b0000000#7 0b001#3 0b0010011#7 rd rs1 shamt
  | .srli rd rs1 shamt => encodeShift 0b0000000#7 0b101#3 0b0010011#7 rd rs1 shamt
  | .srai rd rs1 shamt => encodeShift 0b0100000#7 0b101#3 0b0010011#7 rd rs1 shamt
  | .slti rd rs1 imm => encodeI 0b010#3 0b0010011#7 rd rs1 imm
  | .sltiu rd rs1 imm => encodeI 0b011#3 0b0010011#7 rd rs1 imm
  | .lb rd rs1 imm => encodeI 0b000#3 0b0000011#7 rd rs1 imm
  | .lbu rd rs1 imm => encodeI 0b100#3 0b0000011#7 rd rs1 imm
  | .lh rd rs1 imm => encodeI 0b001#3 0b0000011#7 rd rs1 imm
  | .lhu rd rs1 imm => encodeI 0b101#3 0b0000011#7 rd rs1 imm
  | .lw rd rs1 imm => encodeI 0b010#3 0b0000011#7 rd rs1 imm
  | .sb rs1 rs2 imm => encodeS 0b000#3 0b0100011#7 rs1 rs2 imm
  | .sh rs1 rs2 imm => encodeS 0b001#3 0b0100011#7 rs1 rs2 imm
  | .sw rs1 rs2 imm => encodeS 0b010#3 0b0100011#7 rs1 rs2 imm
  | .beq rs1 rs2 offset => encodeB 0b000#3 0b1100011#7 rs1 rs2 offset
  | .bne rs1 rs2 offset => encodeB 0b001#3 0b1100011#7 rs1 rs2 offset
  | .blt rs1 rs2 offset => encodeB 0b100#3 0b1100011#7 rs1 rs2 offset
  | .bltu rs1 rs2 offset => encodeB 0b110#3 0b1100011#7 rs1 rs2 offset
  | .bge rs1 rs2 offset => encodeB 0b101#3 0b1100011#7 rs1 rs2 offset
  | .bgeu rs1 rs2 offset => encodeB 0b111#3 0b1100011#7 rs1 rs2 offset
  | .jal rd offset => encodeJ 0b1101111#7 rd offset
  | .jalr rd rs1 imm => encodeI 0b000#3 0b1100111#7 rd rs1 imm
  | .auipc rd immu => encodeU 0b0010111#7 rd immu
  | .lui rd immu => encodeU 0b0110111#7 rd immu
  | .ebreak => encodeI 0b000#3 0b1110011#7 0#5 0#5 1#12
  | .ecall => encodeI 0b000#3 0b1110011#7 0#5 0#5 0#12
  | .mul rd rs1 rs2 => encodeR 0b0000001#7 0b000#3 0b0110011#7 rd rs1 rs2

/-- The four bytes of a word as memory holds it, lowest address first (R42, R46). -/
def bytesOfWord (w : Word) : List Byte :=
  [w.extractLsb' 0 8, w.extractLsb' 8 8, w.extractLsb' 16 8, w.extractLsb' 24 8]

/-! ## The host's question -/

/-- The instruction this decoder reads from `nbits` bits of `w`, bits above them 0, the word laid out as the
hardware stores it (little-endian, R46). The table's `mul` row takes part: the question is asked of the whole
table, that is under `HAS_MUL` (R85, log 25). -/
def decodeTableWord (nbits w : Nat) : Option Instr :=
  match decodeBytes true (bytesOfWord (BitVec.ofNat 32 (w % 2 ^ nbits))) with
  | .ok (i, _) => some i
  | .error _ => none

end Sys2Proof
end

