-- ==== Sys2Proof/Config.lean ====
section
/-! DEFINITION. The parameters `00_scope.md` R8 leaves open, as plain data. `State` holds one `Config`
and no step changes it (log 8), so a statement about every state holds for every setting. -/

namespace Sys2Proof

/-- An interval of byte addresses, both ends included (the model's way to write `MEM_VALID`, R8). -/
structure Region where
  first : Word
  last : Word
  deriving DecidableEq, Repr

namespace Machine

/-- The storage of `x1` to `x31`: slot `i` holds `x(i+1)`. `x0` has no storage (R22). -/
abbrev Regs := Vector Word 31

/-- The bytes of memory that differ from `0x00`, as (address, byte) pairs, addresses strictly rising
(`Memory.wf`). An address not listed reads `0x00` (`Memory.byte`, log 4). -/
abbrev Memory := List Host.Cell

/-- The nine causes of a trap (R210 to R220). -/
inductive Cause where
  | instructionAccessFault
  | illegalInstruction
  | instructionAddressMisaligned
  | loadAddressMisaligned
  | storeAddressMisaligned
  | loadAccessFault
  | storeAccessFault
  | environmentCall
  | breakpoint
  deriving DecidableEq, Repr

/-- A state the environment supplies to continue from after a trap (R225): any registers, any `pc`, any memory.
`marked` are the addresses the model's user says are to enter `Written`; none by default (R225, log 10). -/
structure Resumption where
  regs : Regs
  pc : Word
  mem : Memory
  marked : List Nat
  deriving DecidableEq, Repr

/-- One line of an environment written down as a table: what it answers to every trap of one cause, from the state
of that trap. -/
structure Service where
  cause : Cause
  /-- The registers it writes; the others stay. -/
  regs : List (RegNum × Word)
  /-- How far behind the trapping instruction it resumes: 4 skips it, 0 re-executes it (R225). -/
  pcOffset : Word
  /-- The bytes it writes; the others stay. -/
  bytes : List Host.Cell
  /-- The addresses that are to enter `Written` (log 10). -/
  marked : List Nat
  deriving DecidableEq, Repr

/-- `ENV` (R8, R221, R225), as plain data: R8 leaves the function open, these forms are the model's DESIGN CHOICE
(log 9). -/
inductive Env where
  /-- `Halt` for every cause, R8's default. -/
  | halt
  /-- The answers to the first traps of a run, in order; `Halt` after the last, DESIGN CHOICE (log 9). -/
  | script (answers : List Resumption)
  /-- A function of cause and state, the same at every trap: the first line for the cause, `Halt` where none is. It may
  answer without end. -/
  | services (table : List Service)
  /-- Any function whatever: environment `k` of `openEnv`, of which nothing is known. -/
  | function (k : Nat)
  deriving DecidableEq, Repr

end Machine

/-- `ENV` as R8 has it, an open function of cause, information and state to `Halt` (none) or a state: UNINTERPRETED, so
what is proved holds whatever it answers, `Halt` never or always. Beside them it is given its own number `k` and how
many traps the environment has answered, for an environment with a state of its own (log 9). -/
opaque openEnv (k answered : Nat) (cause : Machine.Cause) (info : Word) (regs : Machine.Regs) (pc : Word)
  (mem : Machine.Memory) : Option Machine.Resumption

/-- The open parameters of R8. -/
structure Config where
  /-- `HAS_MUL`: whether the `mul` encoding is an instruction (R180). -/
  hasMul : Bool
  /-- `MISALIGNED_DATA_OK`: a misaligned load or store is performed bytewise (R48). -/
  misalignedDataOk : Bool
  /-- `JALR_CLEAR_BIT0`: `jalr` clears bit 0 of its target (R158). -/
  jalrClearBit0 : Bool
  /-- `MEM_VALID`: the addresses backed by memory, the union of the regions (R33, R53). -/
  memValid : List Region
  /-- `MEM_INIT`: memory at reset, as (address, byte) pairs; an unlisted byte is `0x00` (R38, log 4). -/
  memInit : List Host.Cell
  /-- `RESET_PC`: `pc` after reset, a multiple of 4 (R37). -/
  resetPc : Word
  /-- `ENV`: what the execution environment answers to a trap (R221, R225). -/
  env : Machine.Env
  deriving DecidableEq, Repr

/-- The setting `State.reset` uses. `MISALIGNED_DATA_OK`, `JALR_CLEAR_BIT0` and `ENV` are R8's defaults; `HAS_MUL`
is the value R180 says a model that must pick takes; the other three R8 leaves OPEN with no default and are
DESIGN CHOICE (log 2 to 5). The one statement that
speaks of this setting is the second clause of `Obligations.ResetMeetsTheInvariant`. -/
def Config.default : Config where
  hasMul := false
  misalignedDataOk := false
  jalrClearBit0 := false
  memValid := [⟨0x00000000#32, 0xFFFFFFFF#32⟩]
  memInit := []
  resetPc := 0x00000000#32
  env := .halt

end Sys2Proof
end

