-- ==== Sys2Proof/Machine/State.lean ====
section
/-! DEFINITION. The machine's state as plain data, the ways a step can stop, and the state after reset
(`10_state.md` R20 to R39, `60_exceptions.md` R210 to R221). The architectural state is `regs`, `pc` and `mem`
(R20). `written` is the bookkeeping R34 and R62 ask a model to keep; `cfg` holds the parameters of
R8, `answered` counts the traps the environment has answered (log 9). -/

namespace Sys2Proof.Machine

/-- The set `Written`: addresses some store has written since reset, strictly rising (R34, R62). -/
abbrev AddrSet := List Nat

/-- The state of the machine. -/
structure State where
  /-- `x1` to `x31` (R21). -/
  regs : Regs
  /-- The address of the instruction being executed (R26). -/
  pc : Word
  /-- Memory (R33). -/
  mem : Memory
  /-- `Written` (R34): model bookkeeping, not hardware state. -/
  written : AddrSet
  /-- The parameters of R8, fixed for a machine (log 8). -/
  cfg : Config
  /-- How many traps the environment has answered: the MODEL's own count (log 9), which only `resume` advances. -/
  answered : Nat
  deriving DecidableEq, Repr

/-- Replace the registers' storage. -/
def State.setRegs (s : State) (regs : Regs) : State := { s with regs := regs }
/-- Replace `pc`. -/
def State.setPc (s : State) (pc : Word) : State := { s with pc := pc }
/-- Replace memory. -/
def State.setMem (s : State) (mem : Memory) : State := { s with mem := mem }
/-- Replace `Written`. -/
def State.setWritten (s : State) (written : AddrSet) : State := { s with written := written }
/-- Replace the parameters. Only `State.withFetchWord` uses it; no step does. -/
def State.setCfg (s : State) (cfg : Config) : State := { s with cfg := cfg }
/-- Replace the count of answered traps. -/
def State.setAnswered (s : State) (answered : Nat) : State := { s with answered := answered }

/-- The nine exceptions (R210 to R219), each with its one datum (R220). As an outcome of a step it is R221's
`Trap(E, i, S)` under an environment that answers `Halt`: `S` is the state the step was given, unchanged. All are
safe: the run stops where another environment would carry on. -/
inductive Fault where
  /-- Raised by the fetch when a byte of the word is outside `MEM_VALID` (R211) or `pc` is no multiple of 4 (R242,
  log 26). Safe. -/
  | instructionAccessFault (pc : Word)
  /-- Raised by the decode of a word that matches no row (R212). Safe. -/
  | illegalInstruction (inst : Word)
  /-- Raised by a taken branch, `jal`, `jalr` whose target is not a multiple of 4 (R213). Safe. -/
  | instructionAddressMisaligned (target : Word)
  /-- Raised by `lh`, `lhu`, `lw` at a misaligned address, unless `MISALIGNED_DATA_OK` (R214). Safe. -/
  | loadAddressMisaligned (addr : Word)
  /-- Raised by `sh`, `sw` at a misaligned address, unless `MISALIGNED_DATA_OK` (R215). Safe. -/
  | storeAddressMisaligned (addr : Word)
  /-- Raised by a load some byte of which is outside `MEM_VALID` (R216). Safe. -/
  | loadAccessFault (addr : Word)
  /-- Raised by a store some byte of which is outside `MEM_VALID` (R217). Safe. -/
  | storeAccessFault (addr : Word)
  /-- Raised by `ecall`, always; the normal end of a program under `Halt` (R218, R246). Safe. -/
  | environmentCall (pc : Word)
  /-- Raised by `ebreak`, always (R219, R246). Safe. -/
  | breakpoint (pc : Word)
  deriving DecidableEq, Repr

/-- Where the model declines to say what the hardware does. -/
inductive Refusal where
  /-- `StaleFetch(pc)`: the fetch met a byte a store has written since reset; R62 leaves the result unspecified and
  asks for this refusal. Raised by the fetch. Safe. -/
  | staleFetch (pc : Word)
  /-- The instruction has no meaning in the model. Raised by no arm of `exec`. Safe. -/
  | notModelled (mnemonic : String)
  deriving DecidableEq, Repr

/-- What a step answers. -/
abbrev Outcome := Host.Outcome State Fault Refusal

/-- The state after reset under any parameters and any contents of `x1` to `x31` (R35 to R39, R241): the reading of
R36 that quantifies over the 31 values. `ENV`, like every parameter, is `cfg`'s. -/
def State.boot (cfg : Config) (x : Regs) : State where
  regs := x
  pc := cfg.resetPc
  mem := cfg.memInit
  written := []
  cfg := cfg
  answered := 0

/-- The one reset state the host runs: `State.boot` at the parameters of `Config.default` and with `x1` to `x31`
zero. The spec gives these registers no value (R36); zero is a DESIGN CHOICE, unsafe (log 1), and no statement
rests on it. -/
def State.reset : State := State.boot Config.default (Vector.replicate 31 0x00000000#32)

end Sys2Proof.Machine
end

