-- ==== Sys2Proof/Machine/Ops.lean ====
section
/-! DEFINITION. The named operations over registers, memory and `pc`, and the one operation that takes an
exception, beside the return from it. Every meaning is written over these. -/

namespace Sys2Proof.Machine

/-! ## General registers (R21, R22) -/

/-- `x[r]`: register 0 reads 0 (R12, R22). -/
def getReg (s : State) (r : RegNum) : Word :=
  if h : r.toNat = 0 then 0#32 else s.regs[r.toNat - 1]'(by have := r.isLt; omega)

/-- `x[r] <- v`: a write to register 0 is discarded (R12, R22). -/
def setReg (s : State) (r : RegNum) (v : Word) : State :=
  if h : r.toNat = 0 then s else s.setRegs (s.regs.set (r.toNat - 1) v (by have := r.isLt; omega))

/-! ## Program counter (R27, R29) -/

/-- `pc <- pc + 4`, modulo 2^32 (R27, R29). -/
def advance (s : State) : State := s.setPc (s.pc + 4#32)

/-- Write the result and go on to the next instruction: the end of every computational instruction (R14, R27). -/
def retire (s : State) (rd : RegNum) (v : Word) : State := advance (setReg s rd v)

/-! ## Memory as a canonical list (R33, R43) -/

/-- `Mem[a]`; an unlisted address reads `0x00` (log 4). -/
def Memory.byte : Memory → Nat → Byte
  | [], _ => 0x00#8
  | (k, b) :: rest, a => if k = a then b else Memory.byte rest a

/-- Drop what is listed at an address. -/
def Memory.erase : Memory → Nat → Memory
  | [], _ => []
  | (k, b) :: rest, a => if k = a then Memory.erase rest a else (k, b) :: Memory.erase rest a

/-- List a byte before the first higher address. -/
def Memory.insert : Memory → Nat → Byte → Memory
  | [], a, b => [(a, b)]
  | (k, c) :: rest, a, b => if a < k then (a, b) :: (k, c) :: rest else (k, c) :: Memory.insert rest a b

/-- `Mem[a] <- b`, in canonical form: writing what an unlisted address reads removes the entry. -/
def Memory.set (m : Memory) (a : Nat) (b : Byte) : Memory :=
  if b = 0x00#8 then Memory.erase m a else Memory.insert (Memory.erase m a) a b

/-- The canonical form: addresses of the 2^32 space, strictly rising, and no byte listed that an unlisted address
would read. -/
def Memory.wf : Memory → Bool
  | [] => true
  | (k, b) :: rest =>
    decide (k < 2 ^ 32) && decide (b ≠ 0x00#8) && rest.all (fun c => decide (k < c.1)) && Memory.wf rest

/-- The byte addresses `a`, `a+1`, …, of an access of `n` bytes, modulo 2^32 (R43, R55). -/
def span (a : Word) (n : Nat) : List Word := (List.range n).map (fun i => a + BitVec.ofNat 32 i)

/-- The value at `a`, little-endian (R42, R44, R46). -/
def Memory.read (m : Memory) (a : Word) : (w : Width) → BitVec w.bits
  | .byte => m.byte a.toNat
  | .half => halfOfBytes (m.byte a.toNat) (m.byte (a + 1#32).toNat)
  | .word => wordOfBytes (m.byte a.toNat) (m.byte (a + 1#32).toNat) (m.byte (a + 2#32).toNat)
      (m.byte (a + 3#32).toNat)

/-- Byte `i` of a value, `v[8i+7 : 8i]` (R45). -/
def byteOf {n : Nat} (v : BitVec n) (i : Nat) : Byte := v.extractLsb' (8 * i) 8

/-- `Mem[a + i] <- v[8i+7 : 8i]` for `i` in `0 .. n-1` (R45). -/
def Memory.writeBytes {k : Nat} (m : Memory) (a : Word) (v : BitVec k) (n : Nat) : Memory :=
  (List.range n).foldl (fun m i => m.set (a + BitVec.ofNat 32 i).toNat (byteOf v i)) m

/-! ## `Written` (R34, R45, R62) -/

/-- Add one address to the set, keeping it strictly rising. -/
def AddrSet.mark : AddrSet → Nat → AddrSet
  | [], a => [a]
  | k :: rest, a =>
    if a < k then a :: k :: rest else if a = k then k :: rest else k :: AddrSet.mark rest a

/-- Add addresses to the set. -/
def AddrSet.markAll (w : AddrSet) (as : List Nat) : AddrSet := as.foldl AddrSet.mark w

/-- The canonical form of the set: strictly rising addresses of the 2^32 space. -/
def AddrSet.wf : AddrSet → Bool
  | [] => true
  | k :: rest => decide (k < 2 ^ 32) && rest.all (fun a => decide (k < a)) && AddrSet.wf rest

/-! ## Which accesses are possible (R44, R48, R54) -/

/-- An address of a region of `MEM_VALID`. -/
def Region.contains (r : Region) (a : Word) : Bool := r.first.ule a && a.ule r.last

/-- An address is in `MEM_VALID` (R33, R54). -/
def validAddr (cfg : Config) (a : Word) : Bool := cfg.memValid.any (fun r => Region.contains r a)

/-- Every byte of an access is in `MEM_VALID` (R54). -/
def validSpan (cfg : Config) (a : Word) (n : Nat) : Bool := (span a n).all (validAddr cfg)

/-- An access is refused for its alignment: not a multiple of its size, and `MISALIGNED_DATA_OK` is false (R48). -/
def misaligned (cfg : Config) (a : Word) (n : Nat) : Bool := decide (a.toNat % n ≠ 0) && !cfg.misalignedDataOk

/-- The byte a load of one byte at `a` would give: `Mem[a]` (R43). -/
def readByte (s : State) (a : Word) : Byte := s.mem.byte a.toNat

/-- `MemRead(addr, n)`: alignment, then validity, then the value; nothing changes (R44). -/
def memRead (s : State) (w : Width) (addr : Word) : Except Fault (BitVec w.bits) :=
  if misaligned s.cfg addr w.bytes then .error (.loadAddressMisaligned addr)
  else if !validSpan s.cfg addr w.bytes then .error (.loadAccessFault addr)
  else .ok (s.mem.read addr w)

/-- The effect of a store whose checks have passed: the bytes, and `Written` (R45). -/
def storeBytes (s : State) (w : Width) (addr : Word) (v : BitVec w.bits) : State :=
  (s.setMem (s.mem.writeBytes addr v w.bytes)).setWritten
    (s.written.markAll ((span addr w.bytes).map BitVec.toNat))

/-- `MemWrite(addr, n, v)`: alignment, then validity, both before any byte is written (R45). -/
def memWrite (s : State) (w : Width) (addr : Word) (v : BitVec w.bits) : Except Fault State :=
  if misaligned s.cfg addr w.bytes then .error (.storeAddressMisaligned addr)
  else if !validSpan s.cfg addr w.bytes then .error (.storeAccessFault addr)
  else .ok (storeBytes s w addr v)

/-! ## Taking an exception and returning from one (R221, R225) -/

/-- The cause of an exception (R220). -/
def Fault.cause : Fault → Cause
  | .instructionAccessFault _ => .instructionAccessFault
  | .illegalInstruction _ => .illegalInstruction
  | .instructionAddressMisaligned _ => .instructionAddressMisaligned
  | .loadAddressMisaligned _ => .loadAddressMisaligned
  | .storeAddressMisaligned _ => .storeAddressMisaligned
  | .loadAccessFault _ => .loadAccessFault
  | .storeAccessFault _ => .storeAccessFault
  | .environmentCall _ => .environmentCall
  | .breakpoint _ => .breakpoint

/-- The one datum of an exception (R220). -/
def Fault.info : Fault → Word
  | .instructionAccessFault v | .illegalInstruction v | .instructionAddressMisaligned v | .loadAddressMisaligned v
  | .storeAddressMisaligned v | .loadAccessFault v | .storeAccessFault v | .environmentCall v | .breakpoint v => v

/-- What a line of a table answers to a trap at `s`: its writes to registers and memory, `pc` moved (R225). -/
def serve (s : State) (v : Service) : Resumption where
  regs := (v.regs.foldl (fun t w => setReg t w.1 w.2) s).regs
  pc := s.pc + v.pcOffset
  mem := v.bytes.foldl (fun m c => m.set c.1 c.2) s.mem
  marked := v.marked

/-- `ENV(E, i, S)` (R221): none is `Halt`. -/
def answerTo (s : State) (e : Fault) : Option Resumption :=
  match s.cfg.env with
  | .halt => none
  | .script answers => answers[s.answered]?
  | .services table => (table.find? (fun v => v.cause == e.cause)).map (serve s)
  | .function k => openEnv k s.answered e.cause e.info s.regs s.pc s.mem

/-- The return: the environment supplies the state to continue from. It may have changed any register, any memory
and `pc`; what it wrote enters `Written` only where its user says so (R225). The parameters stay. -/
def resume (s : State) (a : Resumption) : State where
  regs := a.regs
  pc := a.pc
  mem := a.mem
  written := s.written.markAll a.marked
  cfg := s.cfg
  answered := s.answered + 1

/-- `raise E(info)`: the instruction has no effect, and the unchanged state goes to the environment, which
answers `Halt` (the run stops with `E`) or a state to continue from (R12, R221, R225). -/
def raise (e : Fault) (s : State) : Outcome :=
  match answerTo s e with
  | none => .fault e
  | some a => .next (resume s a)

/-- The end of an instruction: its effect if every check passed, else the exception, nothing written (R14). -/
def settle (s : State) : Except Fault State → Outcome
  | .ok t => .next t
  | .error e => raise e s

/-- An instruction may start here, and a branch or jump may go here (R49, R159). -/
def aligned4 (t : Word) : Bool := decide (t.toNat % 4 = 0)

/-- Go to a target, or raise on the branch or jump itself (R150, R159). -/
def jumpTo (s : State) (t : Word) : Except Fault State :=
  if aligned4 t then .ok (s.setPc t) else .error (.instructionAddressMisaligned t)

/-! ## Fetch (R46) -/

/-- What a fetch gives. -/
inductive Fetched where
  /-- The 32-bit word at `pc`. -/
  | word (inst : Word)
  /-- `pc` is no multiple of 4 (R242) or a byte is outside `MEM_VALID` (R54, R211): `InstructionAccessFault(pc)`. -/
  | accessFault
  /-- A byte is in `Written`: the model refuses (R62). -/
  | stale
  deriving DecidableEq, Repr

/-- A byte of the word at `pc` has been written by a store (R62). -/
def staleSpan (s : State) (a : Word) (n : Nat) : Bool := (span a n).any (fun b => s.written.contains b.toNat)

/-- `Fetch(pc)`: validity, then staleness, then the little-endian word (R46). An instruction is fetched only from a
multiple of 4 (R49): after reset with another `RESET_PC` the first step raises as for an invalid address (R242); the
same at such a `pc` an environment resumes at is the model's DESIGN CHOICE (log 26). -/
def fetch (s : State) : Fetched :=
  if !aligned4 s.pc || !validSpan s.cfg s.pc 4 then .accessFault
  else if staleSpan s s.pc 4 then .stale
  else .word (s.mem.read s.pc .word)

/-! ## Loading by the environment (R242) -/

/-- `MEM_VALID` with the bytes of an access added, where they were not in it. -/
def coverSpan (cfg : Config) (a : Word) (n : Nat) : List Region :=
  if validSpan cfg a n then cfg.memValid else cfg.memValid ++ (span a n).map (fun b => ⟨b, b⟩)

/-- A word that is an instruction only when `HAS_MUL` is true (R85, R180). -/
def needsHasMul (inst : Word) : Bool :=
  match decodeWord false inst, decodeWord true inst with
  | .error _, .ok _ => true
  | _, _ => false

/-- The environment loads an instruction word at `a` before the run (R242, log 24). -/
def loadWordAt (s : State) (a : Word) (inst : Word) : State :=
  ((s.setMem (s.mem.writeBytes a inst 4)).setWritten
      (s.written.filter (fun k => !((span a 4).map BitVec.toNat).contains k))).setCfg
    { s.cfg with memValid := coverSpan s.cfg a 4, hasMul := s.cfg.hasMul || needsHasMul inst }

end Sys2Proof.Machine
end

