-- ==== Sys2Proof/Machine/Operands.lean ====
section
/-! DEFINITION. Every operand form: the immediates extended to 32 bits (`30_encoding.md` R79 to R84), the shift
amounts (R80, R106) and the one addressing mode (`41_loads_stores.md` R130). -/

namespace Sys2Proof.Machine

/-- `imm_I`, sign-extended from its top bit (R79, D11). -/
def immI (imm : BitVec 12) : Word := imm.signExtend 32
/-- `imm_S`, sign-extended (R81, D11). -/
def immS (imm : BitVec 12) : Word := imm.signExtend 32
/-- `imm_B`, the even 13-bit offset sign-extended (R82, D11). -/
def immB (offset : BitVec 13) : Word := offset.signExtend 32
/-- `imm_U`: the field in bits 31:12, zeros below (R83). -/
def immU (immu : BitVec 20) : Word := immu ++ 0x000#12
/-- `imm_J`, the even 21-bit offset sign-extended (R84, D11). -/
def immJ (offset : BitVec 21) : Word := offset.signExtend 32

/-- The amount of a register shift: the low five bits of `x[rs2]`, bits 31:5 ignored (R106, D10). -/
def shiftAmount (v : Word) : Nat := (v.extractLsb' 0 5).toNat

/-- The effective address of a load, modulo 2^32 (R130). -/
def loadAddr (s : State) (rs1 : RegNum) (imm : BitVec 12) : Word := getReg s rs1 + immI imm
/-- The effective address of a store, modulo 2^32 (R130). -/
def storeAddr (s : State) (rs1 : RegNum) (imm : BitVec 12) : Word := getReg s rs1 + immS imm

/-- The target of a taken branch, relative to the branch itself (R150). -/
def branchTarget (s : State) (offset : BitVec 13) : Word := s.pc + immB offset
/-- The target of `jal`, relative to the `jal` itself (R157). -/
def jalTarget (s : State) (offset : BitVec 21) : Word := s.pc + immJ offset
/-- The target of `jalr`: absolute; bit 0 cleared only under `JALR_CLEAR_BIT0` (R158, D9). -/
def jalrTarget (s : State) (rs1 : RegNum) (imm : BitVec 12) : Word :=
  if s.cfg.jalrClearBit0 then (getReg s rs1 + immI imm) &&& 0xFFFFFFFE#32 else getReg s rs1 + immI imm

end Sys2Proof.Machine
end

