-- ==== Sys2Proof/Machine/Arithmetic.lean ====
section
/-! DEFINITION. The 19 arithmetic instructions (`40_arithmetic.md` R100 to R119). None raises; every one goes on to
`pc + 4`; both sources are read before `rd` is written (R14, R100). -/

namespace Sys2Proof.Machine

/-- Two source registers, one result (format R). -/
def regReg (f : Word → Word → Word) (rd rs1 rs2 : RegNum) (s : State) : Outcome :=
  .next (retire s rd (f (getReg s rs1) (getReg s rs2)))

/-- A source register and an extended immediate (format I). -/
def regImm (f : Word → Word → Word) (rd rs1 : RegNum) (imm : BitVec 12) (s : State) : Outcome :=
  .next (retire s rd (f (getReg s rs1) (immI imm)))

/-- A source register shifted by a constant amount (format I*). -/
def regShift (f : Word → Nat → Word) (rd rs1 : RegNum) (shamt : BitVec 5) (s : State) : Outcome :=
  .next (retire s rd (f (getReg s rs1) shamt.toNat))

/-- `add` (R101). -/
def execAdd (rd rs1 rs2 : RegNum) (s : State) : Outcome := regReg (fun a b => a + b) rd rs1 rs2 s
/-- `sub` (R102). -/
def execSub (rd rs1 rs2 : RegNum) (s : State) : Outcome := regReg (fun a b => a - b) rd rs1 rs2 s
/-- `and` (R103). -/
def execAnd (rd rs1 rs2 : RegNum) (s : State) : Outcome := regReg (fun a b => a &&& b) rd rs1 rs2 s
/-- `or` (R104). -/
def execOr (rd rs1 rs2 : RegNum) (s : State) : Outcome := regReg (fun a b => a ||| b) rd rs1 rs2 s
/-- `xor` (R105). -/
def execXor (rd rs1 rs2 : RegNum) (s : State) : Outcome := regReg (fun a b => a ^^^ b) rd rs1 rs2 s
/-- `sll`: zeros enter at bit 0 (R106). -/
def execSll (rd rs1 rs2 : RegNum) (s : State) : Outcome := regReg (fun a b => a <<< shiftAmount b) rd rs1 rs2 s
/-- `srl`: zeros enter at bit 31 (R107). -/
def execSrl (rd rs1 rs2 : RegNum) (s : State) : Outcome := regReg (fun a b => a >>> shiftAmount b) rd rs1 rs2 s
/-- `sra`: copies of bit 31 enter at bit 31 (R108). -/
def execSra (rd rs1 rs2 : RegNum) (s : State) : Outcome :=
  regReg (fun a b => a.sshiftRight (shiftAmount b)) rd rs1 rs2 s
/-- `slt`, signed (R109). -/
def execSlt (rd rs1 rs2 : RegNum) (s : State) : Outcome := regReg (fun a b => flagWord (condLt a b)) rd rs1 rs2 s
/-- `sltu`, unsigned (R110). -/
def execSltu (rd rs1 rs2 : RegNum) (s : State) : Outcome :=
  regReg (fun a b => flagWord (condLtu a b)) rd rs1 rs2 s

/-- `addi` (R111). -/
def execAddi (rd rs1 : RegNum) (imm : BitVec 12) (s : State) : Outcome := regImm (fun a b => a + b) rd rs1 imm s
/-- `andi` (R112). -/
def execAndi (rd rs1 : RegNum) (imm : BitVec 12) (s : State) : Outcome := regImm (fun a b => a &&& b) rd rs1 imm s
/-- `ori` (R113). -/
def execOri (rd rs1 : RegNum) (imm : BitVec 12) (s : State) : Outcome := regImm (fun a b => a ||| b) rd rs1 imm s
/-- `xori` (R114). -/
def execXori (rd rs1 : RegNum) (imm : BitVec 12) (s : State) : Outcome := regImm (fun a b => a ^^^ b) rd rs1 imm s
/-- `slli` (R115). -/
def execSlli (rd rs1 : RegNum) (shamt : BitVec 5) (s : State) : Outcome :=
  regShift (fun a n => a <<< n) rd rs1 shamt s
/-- `srli` (R116). -/
def execSrli (rd rs1 : RegNum) (shamt : BitVec 5) (s : State) : Outcome :=
  regShift (fun a n => a >>> n) rd rs1 shamt s
/-- `srai` (R117). -/
def execSrai (rd rs1 : RegNum) (shamt : BitVec 5) (s : State) : Outcome :=
  regShift (fun a n => a.sshiftRight n) rd rs1 shamt s
/-- `slti`, signed (R118). -/
def execSlti (rd rs1 : RegNum) (imm : BitVec 12) (s : State) : Outcome :=
  regImm (fun a b => flagWord (condLt a b)) rd rs1 imm s
/-- `sltiu`: the immediate is sign-extended, then both are read as unsigned (R119, D11). -/
def execSltiu (rd rs1 : RegNum) (imm : BitVec 12) (s : State) : Outcome :=
  regImm (fun a b => flagWord (condLtu a b)) rd rs1 imm s

end Sys2Proof.Machine
end

