-- ==== Sys2Proof/Machine/Control.lean ====
section
/-! DEFINITION. The six branches and two jumps (`42_control.md` R150 to R161). No delay slot (R160); a misaligned
target raises on the branch or jump itself, before the link register is written (R159). -/

namespace Sys2Proof.Machine

/-- A conditional branch: taken to `pc + imm_B`, or on to `pc + 4`; one not taken never raises (R150). -/
def branch (cond : Word → Word → Bool) (rs1 rs2 : RegNum) (offset : BitVec 13) (s : State) : Outcome :=
  if cond (getReg s rs1) (getReg s rs2) then settle s (jumpTo s (branchTarget s offset)) else .next (advance s)

/-- A jump that keeps `pc + 4` in `rd`: nothing is written if the target is misaligned (R157, R158, R159). -/
def jumpAndLink (rd : RegNum) (t : Word) (s : State) : Outcome :=
  settle s (jumpTo (setReg s rd (s.pc + 4#32)) t)

/-- `beq` (R151). -/
def execBeq (rs1 rs2 : RegNum) (offset : BitVec 13) (s : State) : Outcome := branch condEq rs1 rs2 offset s
/-- `bne` (R152). -/
def execBne (rs1 rs2 : RegNum) (offset : BitVec 13) (s : State) : Outcome := branch condNe rs1 rs2 offset s
/-- `blt`, signed (R153). -/
def execBlt (rs1 rs2 : RegNum) (offset : BitVec 13) (s : State) : Outcome := branch condLt rs1 rs2 offset s
/-- `bltu`, unsigned (R154). -/
def execBltu (rs1 rs2 : RegNum) (offset : BitVec 13) (s : State) : Outcome := branch condLtu rs1 rs2 offset s
/-- `bge`, signed (R155). -/
def execBge (rs1 rs2 : RegNum) (offset : BitVec 13) (s : State) : Outcome := branch condGe rs1 rs2 offset s
/-- `bgeu`, unsigned (R156). -/
def execBgeu (rs1 rs2 : RegNum) (offset : BitVec 13) (s : State) : Outcome := branch condGeu rs1 rs2 offset s

/-- `jal`: relative to the `jal` itself (R157). -/
def execJal (rd : RegNum) (offset : BitVec 21) (s : State) : Outcome := jumpAndLink rd (jalTarget s offset) s
/-- `jalr`: absolute, from the old `x[rs1]` even when `rd` is `rs1` (R158, C5). -/
def execJalr (rd rs1 : RegNum) (imm : BitVec 12) (s : State) : Outcome :=
  jumpAndLink rd (jalrTarget s rs1 imm) s

end Sys2Proof.Machine
end

