-- ==== Sys2Proof/Machine/LoadStore.lean ====
section
/-! DEFINITION. The five loads and three stores (`41_loads_stores.md` R130 to R139). A load to `x0` still reads and
can still raise (R139); the address uses the old value of `rs1` even when `rd` is `rs1` (R14). -/

namespace Sys2Proof.Machine

/-- A load of width `w`, widened by `ext` (R131 to R135). -/
def load (w : Width) (ext : BitVec w.bits → Word) (rd rs1 : RegNum) (imm : BitVec 12) (s : State) : Outcome :=
  settle s ((memRead s w (loadAddr s rs1 imm)).map (fun v => retire s rd (ext v)))

/-- A store of the low bits of `x[rs2]` (R136 to R138). -/
def store (w : Width) (rs1 rs2 : RegNum) (imm : BitVec 12) (s : State) : Outcome :=
  settle s ((memWrite s w (storeAddr s rs1 imm) ((getReg s rs2).extractLsb' 0 w.bits)).map advance)

/-- `lb`: sign-extended (R131). -/
def execLb (rd rs1 : RegNum) (imm : BitVec 12) (s : State) : Outcome :=
  load .byte (fun v => v.signExtend 32) rd rs1 imm s
/-- `lbu`: zero-extended (R132). -/
def execLbu (rd rs1 : RegNum) (imm : BitVec 12) (s : State) : Outcome :=
  load .byte (fun v => v.setWidth 32) rd rs1 imm s
/-- `lh`: sign-extended (R133). -/
def execLh (rd rs1 : RegNum) (imm : BitVec 12) (s : State) : Outcome :=
  load .half (fun v => v.signExtend 32) rd rs1 imm s
/-- `lhu`: zero-extended (R134). -/
def execLhu (rd rs1 : RegNum) (imm : BitVec 12) (s : State) : Outcome :=
  load .half (fun v => v.setWidth 32) rd rs1 imm s
/-- `lw`: already 32 bits (R135). -/
def execLw (rd rs1 : RegNum) (imm : BitVec 12) (s : State) : Outcome := load .word (fun v => v) rd rs1 imm s

/-- `sb`: `x[rs2][7:0]` (R136). -/
def execSb (rs1 rs2 : RegNum) (imm : BitVec 12) (s : State) : Outcome := store .byte rs1 rs2 imm s
/-- `sh`: `x[rs2][15:0]` (R137). -/
def execSh (rs1 rs2 : RegNum) (imm : BitVec 12) (s : State) : Outcome := store .half rs1 rs2 imm s
/-- `sw`: `x[rs2][31:0]` (R138). -/
def execSw (rs1 rs2 : RegNum) (imm : BitVec 12) (s : State) : Outcome := store .word rs1 rs2 imm s

end Sys2Proof.Machine
end

