-- ==== Sys2Proof/Machine/System.lean ====
section
/-! DEFINITION. The card's Other table and its extension row: `auipc`, `lui`, `ebreak`, `ecall` (`43_other.md` R170
to R174) and `mul` (`44_extension_mul.md` R180, R181; the decoder admits it only under `HAS_MUL`). -/

namespace Sys2Proof.Machine

/-- `auipc`: `pc` is the address of the `auipc` itself (R170). -/
def execAuipc (rd : RegNum) (immu : BitVec 20) (s : State) : Outcome := .next (retire s rd (s.pc + immU immu))
/-- `lui` (R171). -/
def execLui (rd : RegNum) (immu : BitVec 20) (s : State) : Outcome := .next (retire s rd (immU immu))
/-- `ebreak`: its whole effect is to raise `Breakpoint(pc)` (R172). -/
def execEbreak (s : State) : Outcome := raise (.breakpoint s.pc) s
/-- `ecall`: its whole effect is to raise `EnvironmentCall(pc)` (R173). -/
def execEcall (s : State) : Outcome := raise (.environmentCall s.pc) s
/-- `mul`: the low 32 bits of the product (R181, D15, log 14). -/
def execMul (rd rs1 rs2 : RegNum) (s : State) : Outcome :=
  .next (retire s rd (getReg s rs1 * getReg s rs2))

end Sys2Proof.Machine
end

