-- ==== Sys2Proof/Machine/Step.lean ====
section
/-! DEFINITION. One step (`00_scope.md` R14): fetch, decode, execute; and the placing of an instruction where the
next step fetches it. -/

namespace Sys2Proof.Machine

/-- One step. The order fetch, decode, instruction is the priority of exceptions (R223); the refusal of a stale
fetch is no exception and `ENV` is not consulted (R62). -/
def step (s : State) : Host.Outcome State Fault Refusal :=
  match fetch s with
  | .accessFault => raise (.instructionAccessFault s.pc) s
  | .stale => .refused (.staleFetch s.pc)
  | .word inst =>
    match decodeWord s.cfg.hasMul inst with
    | .ok i => exec i s
    | .error _ => raise (.illegalInstruction inst) s

/-- `s` with the instruction word `w` loaded at `pc` by the environment (R242, log 24): its four bytes are in memory
and in `MEM_VALID`, none of them is in `Written` (bytes the environment loads are not, R62), and if the word is the
`mul` row's, which is an instruction only under `HAS_MUL`, that parameter is true (R85). A fetch needs `pc` a multiple of
4 (R49), so a `pc` that is none is moved down to one. -/
def State.withFetchWord (s : State) (nbits w : Nat) : State :=
  let t := s.setPc (s.pc &&& 0xFFFFFFFC#32)
  loadWordAt t t.pc (BitVec.ofNat 32 (w % 2 ^ nbits))

end Sys2Proof.Machine
end

