-- ==== Sys2Proof/Laws/Memory.lean ====
section
/-! SUPPORT. Memory and `Written`: what is read after a write, what a list lists after an operation, and that every
operation keeps the canonical forms. -/

namespace Sys2Proof.Machine

/-! ## What is listed after an operation -/

theorem Memory.mem_erase {m : Memory} {a : Nat} {c : Host.Cell} :
    c ∈ Memory.erase m a ↔ c ∈ m ∧ c.1 ≠ a := by
  induction m with
  | nil => simp [Memory.erase]
  | cons d rest ih =>
    obtain ⟨j, b⟩ := d
    by_cases hj : j = a
    · simp only [Memory.erase, if_pos hj, ih, List.mem_cons]
      constructor
      · exact fun h => ⟨.inr h.1, h.2⟩
      · rintro ⟨rfl | h, hne⟩
        · exact absurd hj hne
        · exact ⟨h, hne⟩
    · simp only [Memory.erase, if_neg hj, ih, List.mem_cons]
      constructor
      · rintro (rfl | h)
        · exact ⟨.inl rfl, hj⟩
        · exact ⟨.inr h.1, h.2⟩
      · rintro ⟨rfl | h, hne⟩
        · exact .inl rfl
        · exact .inr ⟨h, hne⟩

theorem Memory.mem_insert {m : Memory} {a : Nat} {b : Byte} {c : Host.Cell} :
    c ∈ Memory.insert m a b ↔ c = (a, b) ∨ c ∈ m := by
  induction m with
  | nil => simp [Memory.insert]
  | cons d rest ih =>
    obtain ⟨j, e⟩ := d
    simp only [Memory.insert]
    split
    · simp
    · simp only [List.mem_cons, ih]; tauto

/-- A write lists nothing but the byte written and what was listed elsewhere. -/
theorem Memory.mem_set {m : Memory} {a : Nat} {b : Byte} {c : Host.Cell} (h : c ∈ Memory.set m a b) :
    c.1 = a ∨ c ∈ m := by
  unfold Memory.set at h
  split at h
  · exact .inr (Memory.mem_erase.1 h).1
  · rcases Memory.mem_insert.1 h with rfl | h
    · exact .inl rfl
    · exact .inr (Memory.mem_erase.1 h).1

/-! ## One byte after an operation -/

@[simp] theorem Memory.byte_nil (a : Nat) : Memory.byte [] a = 0x00#8 := rfl

theorem Memory.byte_cons (k a : Nat) (b : Byte) (m : Memory) :
    Memory.byte ((k, b) :: m) a = if k = a then b else Memory.byte m a := rfl

theorem Memory.byte_erase (m : Memory) (a k : Nat) :
    (Memory.erase m a).byte k = if k = a then 0x00#8 else m.byte k := by
  induction m with
  | nil => simp [Memory.erase]
  | cons c rest ih =>
    obtain ⟨j, b⟩ := c
    by_cases hj : j = a
    · simp only [Memory.erase, if_pos hj, ih, Memory.byte_cons]
      by_cases hk : k = a
      · simp [hk]
      · simp [hk, show ¬ j = k from fun e => hk (e.symm.trans hj)]
    · simp only [Memory.erase, if_neg hj, ih, Memory.byte_cons]
      by_cases hk : k = a
      · simp [hk, hj]
      · simp [hk]

theorem Memory.byte_insert (m : Memory) (a k : Nat) (b : Byte) (h : ∀ c ∈ m, c.1 ≠ a) :
    (Memory.insert m a b).byte k = if k = a then b else m.byte k := by
  induction m with
  | nil => simp [Memory.insert, Memory.byte_cons, eq_comm]
  | cons c rest ih =>
    obtain ⟨j, d⟩ := c
    have hj : j ≠ a := h (j, d) (by simp)
    have ih' := ih (fun c hc => h c (by simp [hc]))
    simp only [Memory.insert]
    split
    · simp only [Memory.byte_cons, eq_comm (a := a)]
    · simp only [Memory.byte_cons, ih']
      by_cases hk : k = a
      · simp [hk, hj]
      · simp [hk]

/-- Read after write: the byte written at its address, every other byte as before. It holds of every list. -/
theorem Memory.byte_set (m : Memory) (a k : Nat) (b : Byte) :
    (Memory.set m a b).byte k = if k = a then b else m.byte k := by
  unfold Memory.set
  split
  · rename_i hb; rw [Memory.byte_erase, hb]
  · rw [Memory.byte_insert _ _ _ _ (fun c hc => (Memory.mem_erase.1 hc).2), Memory.byte_erase]
    split <;> rfl

/-! ## The canonical form is kept -/

@[simp] theorem Memory.wf_nil : Memory.wf [] = true := rfl

theorem Memory.wf_cons {k : Nat} {b : Byte} {m : Memory} :
    Memory.wf ((k, b) :: m) = true ↔ k < 2 ^ 32 ∧ b ≠ 0x00#8 ∧ (∀ c ∈ m, k < c.1) ∧ Memory.wf m = true := by
  simp only [Memory.wf, Bool.and_eq_true, decide_eq_true_eq, List.all_eq_true, and_assoc]

theorem Memory.wf_erase {m : Memory} (a : Nat) (h : Memory.wf m = true) : Memory.wf (Memory.erase m a) = true := by
  induction m with
  | nil => rfl
  | cons c rest ih =>
    obtain ⟨k, b⟩ := c
    obtain ⟨hk, hb, hlt, hr⟩ := Memory.wf_cons.1 h
    simp only [Memory.erase]
    split
    · exact ih hr
    · exact Memory.wf_cons.2 ⟨hk, hb, fun c hc => hlt c (Memory.mem_erase.1 hc).1, ih hr⟩

theorem Memory.wf_insert {m : Memory} {a : Nat} {b : Byte} (ha : a < 2 ^ 32) (hb : b ≠ 0x00#8)
    (hm : ∀ c ∈ m, c.1 ≠ a) (h : Memory.wf m = true) : Memory.wf (Memory.insert m a b) = true := by
  induction m with
  | nil => exact Memory.wf_cons.2 ⟨ha, hb, by simp, rfl⟩
  | cons c rest ih =>
    obtain ⟨k, d⟩ := c
    obtain ⟨hk, hd, hlt, hr⟩ := Memory.wf_cons.1 h
    have hne : k ≠ a := hm (k, d) (by simp)
    simp only [Memory.insert]
    split
    · rename_i hak
      refine Memory.wf_cons.2 ⟨ha, hb, fun c hc => ?_, h⟩
      rcases List.mem_cons.1 hc with rfl | hc
      · exact hak
      · exact Nat.lt_trans hak (hlt c hc)
    · refine Memory.wf_cons.2 ⟨hk, hd, fun c hc => ?_, ih (fun c hc => hm c (by simp [hc])) hr⟩
      rcases Memory.mem_insert.1 hc with rfl | hc
      · show k < a; omega
      · exact hlt c hc

/-- A byte written at an address of the space keeps the canonical form. -/
theorem Memory.wf_set {m : Memory} {a : Nat} (b : Byte) (ha : a < 2 ^ 32) (h : Memory.wf m = true) :
    Memory.wf (Memory.set m a b) = true := by
  unfold Memory.set
  split
  · exact Memory.wf_erase a h
  · rename_i hb
    exact Memory.wf_insert ha hb (fun c hc => (Memory.mem_erase.1 hc).2) (Memory.wf_erase a h)

/-! ## Accesses of several bytes -/

theorem mem_span {a b : Word} {n : Nat} : b ∈ span a n ↔ ∃ i, i < n ∧ b = a + BitVec.ofNat 32 i := by
  simp only [span, List.mem_map, List.mem_range]
  exact ⟨fun ⟨i, hi, h⟩ => ⟨i, hi, h.symm⟩, fun ⟨i, hi, h⟩ => ⟨i, hi, h.symm⟩⟩

/-- The `n + 1`-byte write is the `n`-byte write and one more byte. -/
theorem Memory.writeBytes_succ {w : Nat} (m : Memory) (a : Word) (v : BitVec w) (n : Nat) :
    m.writeBytes a v (n + 1) = (m.writeBytes a v n).set (a + BitVec.ofNat 32 n).toNat (byteOf v n) := by
  simp [Memory.writeBytes, List.range_succ]

@[simp] theorem Memory.writeBytes_zero {w : Nat} (m : Memory) (a : Word) (v : BitVec w) :
    m.writeBytes a v 0 = m := rfl

/-- Bytes outside the access read as before. -/
theorem Memory.byte_writeBytes_outside {w : Nat} (m : Memory) (a b : Word) (v : BitVec w) (n : Nat)
    (h : b ∉ span a n) : (m.writeBytes a v n).byte b.toNat = m.byte b.toNat := by
  induction n with
  | zero => rfl
  | succ n ih =>
    have hb : b ≠ a + BitVec.ofNat 32 n := fun e => h (mem_span.2 ⟨n, by omega, e⟩)
    have hn : b ∉ span a n := fun hm => by
      obtain ⟨i, hi, e⟩ := mem_span.1 hm
      exact h (mem_span.2 ⟨i, by omega, e⟩)
    rw [Memory.writeBytes_succ, Memory.byte_set, if_neg (fun e => hb (BitVec.eq_of_toNat_eq e)), ih hn]

/-- Offsets below 2^32 from one address are distinct addresses. -/
theorem add_ofNat_inj {a : Word} {i j : Nat} (hi : i < 2 ^ 32) (hj : j < 2 ^ 32)
    (h : a + BitVec.ofNat 32 i = a + BitVec.ofNat 32 j) : i = j := by
  have h' := congrArg BitVec.toNat h
  simp only [BitVec.toNat_add, BitVec.toNat_ofNat] at h'
  have := a.isLt
  omega

/-- Byte `i` of the value stands at `a + i`. -/
theorem Memory.byte_writeBytes_inside {w : Nat} (m : Memory) (a : Word) (v : BitVec w) (n i : Nat) (hi : i < n)
    (hn : n ≤ 2 ^ 32) : (m.writeBytes a v n).byte (a + BitVec.ofNat 32 i).toNat = byteOf v i := by
  induction n with
  | zero => omega
  | succ n ih =>
    rw [Memory.writeBytes_succ, Memory.byte_set]
    by_cases hin : i = n
    · simp [hin]
    · rw [if_neg (fun e => hin (add_ofNat_inj (by omega) (by omega) (BitVec.eq_of_toNat_eq e))),
        ih (by omega) (by omega)]

/-- A write of several bytes keeps the canonical form. -/
theorem Memory.wf_writeBytes {w : Nat} {m : Memory} (a : Word) (v : BitVec w) (n : Nat) (h : Memory.wf m = true) :
    Memory.wf (m.writeBytes a v n) = true := by
  induction n with
  | zero => exact h
  | succ n ih => rw [Memory.writeBytes_succ]; exact Memory.wf_set _ (BitVec.isLt _) ih

/-- A write of several bytes lists nothing but its own addresses and what was listed. -/
theorem Memory.mem_writeBytes {w : Nat} {m : Memory} {a : Word} {v : BitVec w} {n : Nat} {c : Host.Cell}
    (h : c ∈ m.writeBytes a v n) : (∃ b ∈ span a n, c.1 = b.toNat) ∨ c ∈ m := by
  induction n with
  | zero => exact .inr h
  | succ n ih =>
    rw [Memory.writeBytes_succ] at h
    rcases Memory.mem_set h with h | h
    · exact .inl ⟨_, mem_span.2 ⟨n, by omega, rfl⟩, h⟩
    · rcases ih h with ⟨b, hb, e⟩ | h
      · obtain ⟨i, hi, rfl⟩ := mem_span.1 hb
        exact .inl ⟨_, mem_span.2 ⟨i, by omega, rfl⟩, e⟩
      · exact .inr h

/-! ## `Written` -/

theorem AddrSet.mem_mark {w : AddrSet} {a k : Nat} : k ∈ AddrSet.mark w a ↔ k = a ∨ k ∈ w := by
  induction w with
  | nil => simp [AddrSet.mark]
  | cons j rest ih =>
    simp only [AddrSet.mark]
    split
    · simp
    · split
      · rename_i h; subst h; simp
      · simp only [List.mem_cons, ih]; tauto

theorem AddrSet.mem_markAll {as : List Nat} {w : AddrSet} {k : Nat} :
    k ∈ AddrSet.markAll w as ↔ k ∈ w ∨ k ∈ as := by
  induction as generalizing w with
  | nil => simp [AddrSet.markAll]
  | cons a rest ih =>
    have : AddrSet.markAll w (a :: rest) = AddrSet.markAll (AddrSet.mark w a) rest := rfl
    rw [this, ih, AddrSet.mem_mark, List.mem_cons]; tauto

theorem AddrSet.wf_cons {k : Nat} {w : AddrSet} :
    AddrSet.wf (k :: w) = true ↔ k < 2 ^ 32 ∧ (∀ a ∈ w, k < a) ∧ AddrSet.wf w = true := by
  simp only [AddrSet.wf, Bool.and_eq_true, decide_eq_true_eq, List.all_eq_true, and_assoc]

theorem AddrSet.wf_mark {w : AddrSet} {a : Nat} (ha : a < 2 ^ 32) (h : AddrSet.wf w = true) :
    AddrSet.wf (AddrSet.mark w a) = true := by
  induction w with
  | nil => exact AddrSet.wf_cons.2 ⟨ha, by simp, rfl⟩
  | cons k rest ih =>
    obtain ⟨hk, hlt, hr⟩ := AddrSet.wf_cons.1 h
    simp only [AddrSet.mark]
    split
    · rename_i hak
      refine AddrSet.wf_cons.2 ⟨ha, fun j hj => ?_, h⟩
      rcases List.mem_cons.1 hj with rfl | hj
      · exact hak
      · exact Nat.lt_trans hak (hlt j hj)
    · split
      · exact h
      · refine AddrSet.wf_cons.2 ⟨hk, fun j hj => ?_, ih hr⟩
        rcases AddrSet.mem_mark.1 hj with rfl | hj
        · omega
        · exact hlt j hj

theorem AddrSet.wf_markAll {as : List Nat} {w : AddrSet} (ha : ∀ a ∈ as, a < 2 ^ 32) (h : AddrSet.wf w = true) :
    AddrSet.wf (AddrSet.markAll w as) = true := by
  induction as generalizing w with
  | nil => exact h
  | cons a rest ih =>
    exact ih (fun b hb => ha b (by simp [hb])) (AddrSet.wf_mark (ha a (by simp)) h)

end Sys2Proof.Machine
end

