-- ==== Sys2Proof/Laws/State.lean ====
section
/-! SUPPORT. One lemma per field per update of State, and what the register accessors answer after each update. -/

namespace Sys2Proof.Machine

variable (s : State)

@[simp] theorem State.setRegs_regs (v : Regs) : (s.setRegs v).regs = v := rfl
@[simp] theorem State.setRegs_pc (v : Regs) : (s.setRegs v).pc = s.pc := rfl
@[simp] theorem State.setRegs_mem (v : Regs) : (s.setRegs v).mem = s.mem := rfl
@[simp] theorem State.setRegs_written (v : Regs) : (s.setRegs v).written = s.written := rfl
@[simp] theorem State.setRegs_cfg (v : Regs) : (s.setRegs v).cfg = s.cfg := rfl
@[simp] theorem State.setRegs_answered (v : Regs) : (s.setRegs v).answered = s.answered := rfl
@[simp] theorem State.setPc_regs (v : Word) : (s.setPc v).regs = s.regs := rfl
@[simp] theorem State.setPc_pc (v : Word) : (s.setPc v).pc = v := rfl
@[simp] theorem State.setPc_mem (v : Word) : (s.setPc v).mem = s.mem := rfl
@[simp] theorem State.setPc_written (v : Word) : (s.setPc v).written = s.written := rfl
@[simp] theorem State.setPc_cfg (v : Word) : (s.setPc v).cfg = s.cfg := rfl
@[simp] theorem State.setPc_answered (v : Word) : (s.setPc v).answered = s.answered := rfl
@[simp] theorem State.setMem_regs (v : Memory) : (s.setMem v).regs = s.regs := rfl
@[simp] theorem State.setMem_pc (v : Memory) : (s.setMem v).pc = s.pc := rfl
@[simp] theorem State.setMem_mem (v : Memory) : (s.setMem v).mem = v := rfl
@[simp] theorem State.setMem_written (v : Memory) : (s.setMem v).written = s.written := rfl
@[simp] theorem State.setMem_cfg (v : Memory) : (s.setMem v).cfg = s.cfg := rfl
@[simp] theorem State.setMem_answered (v : Memory) : (s.setMem v).answered = s.answered := rfl
@[simp] theorem State.setWritten_regs (v : AddrSet) : (s.setWritten v).regs = s.regs := rfl
@[simp] theorem State.setWritten_pc (v : AddrSet) : (s.setWritten v).pc = s.pc := rfl
@[simp] theorem State.setWritten_mem (v : AddrSet) : (s.setWritten v).mem = s.mem := rfl
@[simp] theorem State.setWritten_written (v : AddrSet) : (s.setWritten v).written = v := rfl
@[simp] theorem State.setWritten_cfg (v : AddrSet) : (s.setWritten v).cfg = s.cfg := rfl
@[simp] theorem State.setWritten_answered (v : AddrSet) : (s.setWritten v).answered = s.answered := rfl
@[simp] theorem State.setCfg_regs (v : Config) : (s.setCfg v).regs = s.regs := rfl
@[simp] theorem State.setCfg_pc (v : Config) : (s.setCfg v).pc = s.pc := rfl
@[simp] theorem State.setCfg_mem (v : Config) : (s.setCfg v).mem = s.mem := rfl
@[simp] theorem State.setCfg_written (v : Config) : (s.setCfg v).written = s.written := rfl
@[simp] theorem State.setCfg_cfg (v : Config) : (s.setCfg v).cfg = v := rfl
@[simp] theorem State.setCfg_answered (v : Config) : (s.setCfg v).answered = s.answered := rfl
@[simp] theorem State.setAnswered_regs (v : Nat) : (s.setAnswered v).regs = s.regs := rfl
@[simp] theorem State.setAnswered_pc (v : Nat) : (s.setAnswered v).pc = s.pc := rfl
@[simp] theorem State.setAnswered_mem (v : Nat) : (s.setAnswered v).mem = s.mem := rfl
@[simp] theorem State.setAnswered_written (v : Nat) : (s.setAnswered v).written = s.written := rfl
@[simp] theorem State.setAnswered_cfg (v : Nat) : (s.setAnswered v).cfg = s.cfg := rfl
@[simp] theorem State.setAnswered_answered (v : Nat) : (s.setAnswered v).answered = v := rfl

/-! ## Registers -/

/-- A register number is zero as a value exactly when it is zero as a bit vector. -/
theorem regNum_toNat_eq_zero (r : RegNum) : r.toNat = 0 ↔ r = 0#5 :=
  ⟨fun h => BitVec.eq_of_toNat_eq (by simpa using h), fun h => by simp [h]⟩

@[simp] theorem getReg_zero : getReg s 0#5 = 0#32 := rfl

@[simp] theorem setReg_zero (v : Word) : setReg s 0#5 v = s := rfl

theorem getReg_setReg_self (r : RegNum) (v : Word) (h : r ≠ 0#5) : getReg (setReg s r v) r = v := by
  have h0 : ¬ r.toNat = 0 := fun e => h ((regNum_toNat_eq_zero r).1 e)
  simp [getReg, setReg, h0]

theorem getReg_setReg_of_ne (r q : RegNum) (v : Word) (h : q ≠ r) : getReg (setReg s r v) q = getReg s q := by
  unfold getReg setReg
  by_cases hq : q.toNat = 0
  · simp [hq]
  · by_cases hr : r.toNat = 0
    · simp [hr]
    · have hne : r.toNat - 1 ≠ q.toNat - 1 := fun e => h (BitVec.eq_of_toNat_eq (by omega))
      simp [hq, hr, hne]

/-- What any register reads after a register write. -/
theorem getReg_setReg (r q : RegNum) (v : Word) :
    getReg (setReg s r v) q = if q = r ∧ r ≠ 0#5 then v else getReg s q := by
  by_cases h : q = r
  · subst h
    by_cases h0 : q = 0#5
    · subst h0; simp
    · simp [h0, getReg_setReg_self]
  · simp [h, getReg_setReg_of_ne]

@[simp] theorem setReg_pc (r : RegNum) (v : Word) : (setReg s r v).pc = s.pc := by
  unfold setReg; split <;> rfl
@[simp] theorem setReg_mem (r : RegNum) (v : Word) : (setReg s r v).mem = s.mem := by
  unfold setReg; split <;> rfl
@[simp] theorem setReg_written (r : RegNum) (v : Word) : (setReg s r v).written = s.written := by
  unfold setReg; split <;> rfl
@[simp] theorem setReg_cfg (r : RegNum) (v : Word) : (setReg s r v).cfg = s.cfg := by
  unfold setReg; split <;> rfl
@[simp] theorem setReg_answered (r : RegNum) (v : Word) : (setReg s r v).answered = s.answered := by
  unfold setReg; split <;> rfl
@[simp] theorem getReg_setPc (v : Word) (r : RegNum) : getReg (s.setPc v) r = getReg s r := rfl
@[simp] theorem getReg_setMem (v : Memory) (r : RegNum) : getReg (s.setMem v) r = getReg s r := rfl
@[simp] theorem getReg_setWritten (v : AddrSet) (r : RegNum) : getReg (s.setWritten v) r = getReg s r := rfl
@[simp] theorem getReg_setCfg (v : Config) (r : RegNum) : getReg (s.setCfg v) r = getReg s r := rfl
@[simp] theorem getReg_setAnswered (v : Nat) (r : RegNum) : getReg (s.setAnswered v) r = getReg s r := rfl

/-! ## `advance` and `retire` -/

@[simp] theorem getReg_advance (r : RegNum) : getReg (advance s) r = getReg s r := rfl
@[simp] theorem advance_pc : (advance s).pc = s.pc + 4#32 := rfl
@[simp] theorem advance_regs : (advance s).regs = s.regs := rfl
@[simp] theorem advance_mem : (advance s).mem = s.mem := rfl
@[simp] theorem advance_written : (advance s).written = s.written := rfl
@[simp] theorem advance_cfg : (advance s).cfg = s.cfg := rfl
@[simp] theorem advance_answered : (advance s).answered = s.answered := rfl
@[simp] theorem getReg_retire (rd r : RegNum) (v : Word) : getReg (retire s rd v) r = getReg (setReg s rd v) r := rfl
@[simp] theorem retire_pc (rd : RegNum) (v : Word) : (retire s rd v).pc = s.pc + 4#32 := by simp [retire]
@[simp] theorem retire_mem (rd : RegNum) (v : Word) : (retire s rd v).mem = s.mem := by simp [retire]
@[simp] theorem retire_written (rd : RegNum) (v : Word) : (retire s rd v).written = s.written := by simp [retire]
@[simp] theorem retire_cfg (rd : RegNum) (v : Word) : (retire s rd v).cfg = s.cfg := by simp [retire]
@[simp] theorem retire_answered (rd : RegNum) (v : Word) : (retire s rd v).answered = s.answered := by simp [retire]

/-! ## One byte of memory -/

theorem readByte_def (a : Word) : readByte s a = s.mem.byte a.toNat := rfl
@[simp] theorem readByte_setReg (r : RegNum) (v : Word) (a : Word) : readByte (setReg s r v) a = readByte s a := by
  simp [readByte_def]
@[simp] theorem readByte_setPc (v a : Word) : readByte (s.setPc v) a = readByte s a := rfl
@[simp] theorem readByte_advance (a : Word) : readByte (advance s) a = readByte s a := rfl
@[simp] theorem readByte_retire (rd : RegNum) (v a : Word) : readByte (retire s rd v) a = readByte s a := by
  simp [readByte_def]

end Sys2Proof.Machine
end

