-- ==== Sys2Proof/Machine/Pseudo.lean ====
section
/-! DEFINITION. The assembler's level (`45_assembler_pseudo.md`): register names and savers (R23, R203, R204), operand
ranges (R186), offsets (R188) and the twelve pseudo-instructions with their translations (R189 to R201). Nothing here
is hardware and no step refers to it: the machine sees only the translation (R189). -/

namespace Sys2Proof.Machine

/-! ## Register names and the calling convention (R23, R203, R204) -/

/-- The convention name of each register; `fp` is a second name of `x8` (R23, R203). -/
def regNames : List (String × RegNum) := [
  ("zero", 0#5), ("ra", 1#5), ("sp", 2#5), ("gp", 3#5), ("tp", 4#5), ("t0", 5#5), ("t1", 6#5), ("t2", 7#5),
  ("s0", 8#5), ("fp", 8#5), ("s1", 9#5), ("a0", 10#5), ("a1", 11#5), ("a2", 12#5), ("a3", 13#5), ("a4", 14#5),
  ("a5", 15#5), ("a6", 16#5), ("a7", 17#5), ("s2", 18#5), ("s3", 19#5), ("s4", 20#5), ("s5", 21#5),
  ("s6", 22#5), ("s7", 23#5), ("s8", 24#5), ("s9", 25#5), ("s10", 26#5), ("s11", 27#5), ("t3", 28#5),
  ("t4", 29#5), ("t5", 30#5), ("t6", 31#5)]

/-- Which side of a call keeps a register (R204). -/
inductive Saver where
  | caller
  | callee
  deriving DecidableEq, Repr

/-- The card's Saver column, blank where the card is blank (R23, R204). -/
def saverOf (r : RegNum) : Option Saver :=
  if r.toNat = 1 then some .caller
  else if 5 ≤ r.toNat ∧ r.toNat ≤ 7 then some .caller
  else if 10 ≤ r.toNat ∧ r.toNat ≤ 17 then some .caller
  else if 18 ≤ r.toNat ∧ r.toNat ≤ 27 then some .callee
  else if 28 ≤ r.toNat then some .caller
  else none

/-! ## Operand ranges (R186) -/

/-- A signed constant -2048 to 2047 (R186). -/
def imm12Of (v : Int) : Option (BitVec 12) :=
  if -2048 ≤ v ∧ v ≤ 2047 then some (BitVec.ofInt 12 v) else none

/-- A shift amount 0 to 31 (R186). -/
def shamtOfInt (v : Int) : Option (BitVec 5) := if 0 ≤ v ∧ v ≤ 31 then some (BitVec.ofInt 5 v) else none

/-- An unsigned constant 0 to 0xFFFFF (R186). -/
def immuOf (v : Int) : Option (BitVec 20) := if 0 ≤ v ∧ v ≤ 1048575 then some (BitVec.ofInt 20 v) else none

/-- A branch offset: even, -4096 to 4094 (R186). -/
def offset13Of (v : Int) : Option (BitVec 13) :=
  if -4096 ≤ v ∧ v ≤ 4094 ∧ v % 2 = 0 then some (BitVec.ofInt 13 v) else none

/-- A `jal` offset: even, -1048576 to 1048574 (R186). -/
def offset21Of (v : Int) : Option (BitVec 21) :=
  if -1048576 ≤ v ∧ v ≤ 1048574 ∧ v % 2 = 0 then some (BitVec.ofInt 21 v) else none

/-- `addr(label)` minus the address of the instruction itself (R188), taken as a signed 32-bit distance (log 28). -/
def distance (here label : Word) : Int := (label - here).toInt

/-! ## The hi and lo parts of `li` and `la` (R195, R196, D26) -/

/-- `lo`, the low 12 bits, which `addi` sign-extends (R195, R196). -/
def loPart (v : Word) : BitVec 12 := v.extractLsb' 0 12

/-- `hi`, `((v - lo) >> 12)[19:0]` with `lo` sign-extended (R195, R196). -/
def hiPart (v : Word) : BitVec 20 := ((v - immI (loPart v)) >>> 12).extractLsb' 0 20

/-! ## The twelve pseudo-instructions (R190 to R201) -/

/-- The card's pseudo-instructions, in its order; a `label` is the address it stands for (R13). -/
inductive Pseudo where
  | beqz (rs1 : RegNum) (label : Word)
  | bnez (rs1 : RegNum) (label : Word)
  | j (label : Word)
  | jal (label : Word)
  | jr (rs1 : RegNum)
  | la (rd : RegNum) (label : Word)
  | li (rd : RegNum) (imm : Word)
  | mv (rd rs1 : RegNum)
  | neg (rd rs1 : RegNum)
  | nop
  | not (rd rs1 : RegNum)
  | ret
  deriving DecidableEq, Repr

/-- `li` needs no `lui` (R196). -/
def fitsAddi (imm : Word) : Bool := decide (-2048 ≤ imm.toInt) && decide (imm.toInt ≤ 2047)

/-- The translation of a pseudo-instruction placed at `here`; none where the offset is out of reach (R186). The
assembler omits the `addi` of `li` when its constant is 0 (R196, log 28). -/
def expand (here : Word) : Pseudo → Option (List Instr)
  | .beqz rs1 label => (offset13Of (distance here label)).map (fun o => [.beq rs1 0#5 o])
  | .bnez rs1 label => (offset13Of (distance here label)).map (fun o => [.bne rs1 0#5 o])
  | .j label => (offset21Of (distance here label)).map (fun o => [.jal 0#5 o])
  | .jal label => (offset21Of (distance here label)).map (fun o => [.jal 1#5 o])
  | .jr rs1 => some [.jalr 0#5 rs1 0#12]
  | .la rd label => some [.auipc rd (hiPart (label - here)), .addi rd rd (loPart (label - here))]
  | .li rd imm =>
    if fitsAddi imm then some [.addi rd 0#5 (loPart imm)]
    else if loPart imm = 0#12 then some [.lui rd (hiPart imm)]
    else some [.lui rd (hiPart imm), .addi rd rd (loPart imm)]
  | .mv rd rs1 => some [.addi rd rs1 0#12]
  | .neg rd rs1 => some [.sub rd 0#5 rs1]
  | .nop => some [.addi 0#5 0#5 0#12]
  | .not rd rs1 => some [.xori rd rs1 (BitVec.ofInt 12 (-1))]
  | .ret => some [.jalr 0#5 1#5 0#12]

/-- Run the instructions of a translation one after another, stopping where one does not give a next state. -/
def execAll : List Instr → State → Outcome
  | [], s => .next s
  | i :: rest, s =>
    match exec i s with
    | .next t => execAll rest t
    | .fault e => .fault e
    | .refused r => .refused r

end Sys2Proof.Machine
end

