-- ==== Sys2Proof/Laws/Ops.lean ====
section
/-! SUPPORT. One lemma per shared operation that says once everything it can do, cited instead of unfolding it. -/

namespace Sys2Proof.Machine

/-! ## Checks -/

theorem validSpan_iff {cfg : Config} {a : Word} {n : Nat} :
    validSpan cfg a n = true ↔ ∀ b ∈ span a n, validAddr cfg b = true := by
  simp [validSpan, List.all_eq_true]

theorem staleSpan_iff {s : State} {a : Word} {n : Nat} :
    staleSpan s a n = true ↔ ∃ b ∈ span a n, b.toNat ∈ s.written := by
  simp [staleSpan, List.any_eq_true]

theorem misaligned_eq_false {cfg : Config} {a : Word} {n : Nat} :
    misaligned cfg a n = false ↔ a.toNat % n = 0 ∨ cfg.misalignedDataOk = true := by
  by_cases h : a.toNat % n = 0 <;> simp [misaligned, h]

theorem aligned4_iff {t : Word} : aligned4 t = true ↔ t.toNat % 4 = 0 := by simp [aligned4]

/-- A valid access, byte by byte. -/
theorem validSpan_iff_offsets {cfg : Config} {a : Word} {n : Nat} :
    validSpan cfg a n = true ↔ ∀ k, k < n → validAddr cfg (a + BitVec.ofNat 32 k) = true := by
  rw [validSpan_iff]
  constructor
  · exact fun h k hk => h _ (mem_span.2 ⟨k, hk, rfl⟩)
  · intro h b hb
    obtain ⟨k, hk, rfl⟩ := mem_span.1 hb
    exact h k hk

/-- A stale access, byte by byte. -/
theorem staleSpan_iff_offsets {s : State} {a : Word} {n : Nat} :
    staleSpan s a n = true ↔ ∃ k, k < n ∧ (a + BitVec.ofNat 32 k).toNat ∈ s.written := by
  rw [staleSpan_iff]
  constructor
  · rintro ⟨b, hb, hw⟩
    obtain ⟨k, hk, rfl⟩ := mem_span.1 hb
    exact ⟨k, hk, hw⟩
  · exact fun ⟨k, hk, hw⟩ => ⟨_, mem_span.2 ⟨k, hk, rfl⟩, hw⟩

/-! ## Memory accesses -/

/-- A byte read is the byte. -/
theorem read_byte (s : State) (a : Word) : s.mem.read a .byte = readByte s a := rfl

/-- A half-word read is its two bytes, the lower address least significant (R42, R44). -/
theorem read_half (s : State) (a : Word) :
    (s.mem.read a .half : BitVec 16) = readByte s (a + 1#32) ++ readByte s a := rfl

/-- A word read is its four bytes, the lowest address least significant (R42, R44). -/
theorem read_word (s : State) (a : Word) :
    (s.mem.read a .word : Word) =
      readByte s (a + 3#32) ++ readByte s (a + 2#32) ++ readByte s (a + 1#32) ++ readByte s a := rfl

/-- A read that answers gives the bytes, and its checks passed (R44). -/
theorem memRead_ok {s : State} {w : Width} {a : Word} {v : BitVec w.bits} :
    memRead s w a = .ok v ↔
      misaligned s.cfg a w.bytes = false ∧ validSpan s.cfg a w.bytes = true ∧ v = s.mem.read a w := by
  unfold memRead
  cases misaligned s.cfg a w.bytes <;> cases validSpan s.cfg a w.bytes <;> simp [eq_comm]

/-- A read that raises raises one of two exceptions, misaligned first (R44, R223). -/
theorem memRead_error {s : State} {w : Width} {a : Word} {e : Fault} :
    memRead s w a = .error e ↔
      (misaligned s.cfg a w.bytes = true ∧ e = .loadAddressMisaligned a) ∨
      (misaligned s.cfg a w.bytes = false ∧ validSpan s.cfg a w.bytes = false ∧ e = .loadAccessFault a) := by
  unfold memRead
  cases misaligned s.cfg a w.bytes <;> cases validSpan s.cfg a w.bytes <;> simp [eq_comm]

/-- A write that answers stores the bytes, and its checks passed (R45). -/
theorem memWrite_ok {s t : State} {w : Width} {a : Word} {v : BitVec w.bits} :
    memWrite s w a v = .ok t ↔
      misaligned s.cfg a w.bytes = false ∧ validSpan s.cfg a w.bytes = true ∧ t = storeBytes s w a v := by
  unfold memWrite
  cases misaligned s.cfg a w.bytes <;> cases validSpan s.cfg a w.bytes <;> simp [eq_comm]

/-- A write that raises raises one of two exceptions, misaligned first (R45, R223). -/
theorem memWrite_error {s : State} {w : Width} {a : Word} {v : BitVec w.bits} {e : Fault} :
    memWrite s w a v = .error e ↔
      (misaligned s.cfg a w.bytes = true ∧ e = .storeAddressMisaligned a) ∨
      (misaligned s.cfg a w.bytes = false ∧ validSpan s.cfg a w.bytes = false ∧ e = .storeAccessFault a) := by
  unfold memWrite
  cases misaligned s.cfg a w.bytes <;> cases validSpan s.cfg a w.bytes <;> simp [eq_comm]

section StoreBytes
variable (s : State) (w : Width) (a : Word) (v : BitVec w.bits)

@[simp] theorem storeBytes_regs : (storeBytes s w a v).regs = s.regs := rfl
@[simp] theorem storeBytes_pc : (storeBytes s w a v).pc = s.pc := rfl
@[simp] theorem storeBytes_cfg : (storeBytes s w a v).cfg = s.cfg := rfl
@[simp] theorem storeBytes_answered : (storeBytes s w a v).answered = s.answered := rfl
@[simp] theorem storeBytes_mem : (storeBytes s w a v).mem = s.mem.writeBytes a v w.bytes := rfl
@[simp] theorem getReg_storeBytes (r : RegNum) : getReg (storeBytes s w a v) r = getReg s r := rfl

/-- Bytes outside the store read as before (R45). -/
theorem readByte_storeBytes_outside (b : Word) (h : b ∉ span a w.bytes) :
    readByte (storeBytes s w a v) b = readByte s b :=
  Memory.byte_writeBytes_outside s.mem a b v w.bytes h

/-- Byte `i` of the value is at `a + i` (R45). -/
theorem readByte_storeBytes_inside (i : Nat) (hi : i < w.bytes) :
    readByte (storeBytes s w a v) (a + BitVec.ofNat 32 i) = byteOf v i :=
  Memory.byte_writeBytes_inside s.mem a v w.bytes i hi (by cases w <;> simp [Width.bytes])

/-- The bytes stored enter `Written` (R45). -/
theorem mem_storeBytes_written (k : Nat) :
    k ∈ (storeBytes s w a v).written ↔ k ∈ s.written ∨ ∃ b ∈ span a w.bytes, k = b.toNat := by
  show k ∈ s.written.markAll _ ↔ _
  rw [AddrSet.mem_markAll, List.mem_map]
  simp only [eq_comm]

/-- A store keeps the canonical form of memory. -/
theorem wf_storeBytes_mem (h : Memory.wf s.mem = true) : Memory.wf (storeBytes s w a v).mem = true :=
  Memory.wf_writeBytes a v w.bytes h

/-- A store keeps the canonical form of `Written`. -/
theorem wf_storeBytes_written (h : AddrSet.wf s.written = true) :
    AddrSet.wf (storeBytes s w a v).written = true :=
  AddrSet.wf_markAll (fun k hk => by
    obtain ⟨b, -, rfl⟩ := List.mem_map.1 hk
    exact b.isLt) h

end StoreBytes

/-! ## Traps (R221, R225) -/

@[simp] theorem raise_halt {e : Fault} {s : State} (h : answerTo s e = none) : raise e s = .fault e := by
  simp [raise, h]

@[simp] theorem raise_resume {e : Fault} {s : State} {a : Resumption} (h : answerTo s e = some a) :
    raise e s = .next (resume s a) := by simp [raise, h]

/-- A trap that goes on goes on at the state the environment supplied (R225). -/
theorem raise_next {e : Fault} {s t : State} (h : raise e s = .next t) :
    ∃ a, answerTo s e = some a ∧ t = resume s a := by
  unfold raise at h
  split at h
  · simp at h
  · rename_i a ha
    exact ⟨a, ha, by simpa using h.symm⟩

/-- A trap that goes on is counted, so a step that leaves the count as it was has not asked the environment. -/
theorem raise_next_answered {e : Fault} {s t : State} (h : raise e s = .next t) : t.answered = s.answered + 1 := by
  obtain ⟨a, -, rfl⟩ := raise_next h
  rfl

section Resume
variable (s : State) (a : Resumption)

@[simp] theorem resume_regs : (resume s a).regs = a.regs := rfl
@[simp] theorem resume_pc : (resume s a).pc = a.pc := rfl
@[simp] theorem resume_mem : (resume s a).mem = a.mem := rfl
@[simp] theorem resume_written : (resume s a).written = s.written.markAll a.marked := rfl
@[simp] theorem resume_cfg : (resume s a).cfg = s.cfg := rfl
@[simp] theorem resume_answered : (resume s a).answered = s.answered + 1 := rfl

end Resume

/-- A trap never refuses. -/
theorem raise_ne_refused (e : Fault) (s : State) (r : Refusal) : raise e s ≠ .refused r := by
  unfold raise; split <;> simp

@[simp] theorem settle_ok (s t : State) : settle s (.ok t) = .next t := rfl
@[simp] theorem settle_error (s : State) (e : Fault) : settle s (.error e) = raise e s := rfl

/-- What a jump does: it goes to an aligned target or raises (R159). -/
theorem jumpTo_eq (s : State) (t : Word) :
    jumpTo s t = if t.toNat % 4 = 0 then .ok (s.setPc t) else .error (.instructionAddressMisaligned t) := by
  simp [jumpTo, aligned4]

/-! ## Fetch and step -/

/-- A fetch that gives a word: `pc` aligned, every byte valid, none stale, little-endian (R46, R49). -/
theorem fetch_word {s : State} {inst : Word} :
    fetch s = .word inst ↔
      aligned4 s.pc = true ∧ validSpan s.cfg s.pc 4 = true ∧ staleSpan s s.pc 4 = false ∧
        inst = s.mem.read s.pc .word := by
  unfold fetch
  cases aligned4 s.pc <;> cases validSpan s.cfg s.pc 4 <;> cases staleSpan s s.pc 4 <;> simp [eq_comm]

/-- A step that goes on has run the instruction it fetched, or has trapped and gone on where the environment said. -/
theorem step_next {s t : State} (h : step s = .next t) :
    (∃ inst i, fetch s = .word inst ∧ decodeWord s.cfg.hasMul inst = .ok i ∧ exec i s = .next t) ∨
      (∃ e a, answerTo s e = some a ∧ t = resume s a) := by
  unfold step at h
  split at h
  · obtain ⟨a, ha⟩ := raise_next h
    exact .inr ⟨_, a, ha⟩
  · simp at h
  · rename_i inst hf
    split at h
    · rename_i i hd
      exact .inl ⟨inst, i, hf, hd, h⟩
    · obtain ⟨a, ha⟩ := raise_next h
      exact .inr ⟨_, a, ha⟩

/-! ## The shapes of the meanings -/

/-- A load goes on with the value widened, or raises (R131 to R135, R139). -/
theorem load_eq (w : Width) (ext : BitVec w.bits → Word) (rd rs1 : RegNum) (imm : BitVec 12) (s : State) :
    load w ext rd rs1 imm s =
      if misaligned s.cfg (loadAddr s rs1 imm) w.bytes then raise (.loadAddressMisaligned (loadAddr s rs1 imm)) s
      else if validSpan s.cfg (loadAddr s rs1 imm) w.bytes
        then .next (retire s rd (ext (s.mem.read (loadAddr s rs1 imm) w)))
        else raise (.loadAccessFault (loadAddr s rs1 imm)) s := by
  unfold load memRead
  cases misaligned s.cfg (loadAddr s rs1 imm) w.bytes <;>
    cases validSpan s.cfg (loadAddr s rs1 imm) w.bytes <;> simp [Except.map]

/-- A store goes on with its bytes in memory, or raises (R136 to R139). -/
theorem store_eq (w : Width) (rs1 rs2 : RegNum) (imm : BitVec 12) (s : State) :
    store w rs1 rs2 imm s =
      if misaligned s.cfg (storeAddr s rs1 imm) w.bytes then raise (.storeAddressMisaligned (storeAddr s rs1 imm)) s
      else if validSpan s.cfg (storeAddr s rs1 imm) w.bytes
        then .next (advance (storeBytes s w (storeAddr s rs1 imm) ((getReg s rs2).extractLsb' 0 w.bits)))
        else raise (.storeAccessFault (storeAddr s rs1 imm)) s := by
  unfold store memWrite
  cases misaligned s.cfg (storeAddr s rs1 imm) w.bytes <;>
    cases validSpan s.cfg (storeAddr s rs1 imm) w.bytes <;> simp [Except.map]

/-- A branch goes to its target, raises, or goes on (R150, R159). -/
theorem branch_eq (cond : Word → Word → Bool) (rs1 rs2 : RegNum) (offset : BitVec 13) (s : State) :
    branch cond rs1 rs2 offset s =
      if cond (getReg s rs1) (getReg s rs2) then
        (if (branchTarget s offset).toNat % 4 = 0 then .next (s.setPc (branchTarget s offset))
          else raise (.instructionAddressMisaligned (branchTarget s offset)) s)
      else .next (advance s) := by
  unfold branch
  rw [jumpTo_eq]
  split
  · split <;> rfl
  · rfl

/-- A linking jump goes to its target with the link written, or raises with nothing written (R157, R159). -/
theorem jumpAndLink_eq (rd : RegNum) (t : Word) (s : State) :
    jumpAndLink rd t s =
      if t.toNat % 4 = 0 then .next ((setReg s rd (s.pc + 4#32)).setPc t)
      else raise (.instructionAddressMisaligned t) s := by
  unfold jumpAndLink
  rw [jumpTo_eq]
  split <;> rfl

/-- The run of a translation of one instruction is that instruction (R189). -/
@[simp] theorem execAll_single (i : Instr) (s : State) : execAll [i] s = exec i s := by
  simp only [execAll]
  split <;> simp_all

/-! ## Loading by the environment keeps the canonical forms -/

theorem wf_loadWordAt_mem (s : State) (a inst : Word) (h : Memory.wf s.mem = true) :
    Memory.wf (loadWordAt s a inst).mem = true :=
  Memory.wf_writeBytes a inst 4 h

/-- The reset memory has the canonical form. -/
theorem reset_mem_wf : Memory.wf State.reset.mem = true := rfl

/-- A state the environment supplies with a canonical memory has one after the return. -/
theorem wf_resume_mem (s : State) (a : Resumption) (h : Memory.wf a.mem = true) :
    Memory.wf (resume s a).mem = true := h

end Sys2Proof.Machine
end

