-- ==== Sys2Proof/Laws/Decode.lean ====
section
/-! SUPPORT. For each format: the bits a row fixes stand in an encoded word, and every field reads back as it was put
in. Cited instead of unfolding `encodeR` and its like. -/

namespace Sys2Proof

section Fields
variable (f7 : BitVec 7) (f3 : BitVec 3) (op : BitVec 7) (rd rs1 rs2 : RegNum)

/-! ## Format R (R72) -/

theorem encodeR_fixed :
    encodeR f7 f3 op rd rs1 rs2 &&& 0xFE00707F#32 = encodeR f7 f3 op 0#5 0#5 0#5 := by
  unfold encodeR
  apply BitVec.eq_of_getLsbD_eq
  intro i hi
  simp only [BitVec.getLsbD_and, BitVec.getLsbD_append]
  interval_cases i <;> simp

@[simp] theorem rdOf_encodeR : rdOf (encodeR f7 f3 op rd rs1 rs2) = rd := by
  unfold rdOf encodeR
  ext i hi
  simp only [BitVec.getElem_extractLsb', BitVec.getLsbD_append]
  interval_cases i <;> simp

@[simp] theorem rs1Of_encodeR : rs1Of (encodeR f7 f3 op rd rs1 rs2) = rs1 := by
  unfold rs1Of encodeR
  ext i hi
  simp only [BitVec.getElem_extractLsb', BitVec.getLsbD_append]
  interval_cases i <;> simp

@[simp] theorem rs2Of_encodeR : rs2Of (encodeR f7 f3 op rd rs1 rs2) = rs2 := by
  unfold rs2Of encodeR
  ext i hi
  simp only [BitVec.getElem_extractLsb', BitVec.getLsbD_append]
  interval_cases i <;> simp

/-! ## Format I (R73) -/

variable (imm : BitVec 12)

theorem encodeI_fixed : encodeI f3 op rd rs1 imm &&& 0x0000707F#32 = encodeI f3 op 0#5 0#5 0#12 := by
  unfold encodeI
  apply BitVec.eq_of_getLsbD_eq
  intro i hi
  simp only [BitVec.getLsbD_and, BitVec.getLsbD_append]
  interval_cases i <;> simp

@[simp] theorem rdOf_encodeI : rdOf (encodeI f3 op rd rs1 imm) = rd := by
  unfold rdOf encodeI
  ext i hi
  simp only [BitVec.getElem_extractLsb', BitVec.getLsbD_append]
  interval_cases i <;> simp

@[simp] theorem rs1Of_encodeI : rs1Of (encodeI f3 op rd rs1 imm) = rs1 := by
  unfold rs1Of encodeI
  ext i hi
  simp only [BitVec.getElem_extractLsb', BitVec.getLsbD_append]
  interval_cases i <;> simp

@[simp] theorem immIOf_encodeI : immIOf (encodeI f3 op rd rs1 imm) = imm := by
  unfold immIOf encodeI
  ext i hi
  simp only [BitVec.getElem_extractLsb', BitVec.getLsbD_append]
  interval_cases i <;> simp

/-! ## Format I* (R74) -/

/-- Format I* lays its fields out as format R does, the shift amount in the place of `rs2`. -/
theorem encodeShift_eq_encodeR (shamt : BitVec 5) :
    encodeShift f7 f3 op rd rs1 shamt = encodeR f7 f3 op rd rs1 shamt := rfl

/-- The shift amount is the field format R calls `rs2`. -/
theorem shamtOf_eq_rs2Of (w : Word) : shamtOf w = rs2Of w := rfl

/-! ## Format S (R75) -/

theorem encodeS_fixed : encodeS f3 op rs1 rs2 imm &&& 0x0000707F#32 = encodeS f3 op 0#5 0#5 0#12 := by
  unfold encodeS
  apply BitVec.eq_of_getLsbD_eq
  intro i hi
  simp only [BitVec.getLsbD_and, BitVec.getLsbD_append]
  interval_cases i <;> simp

@[simp] theorem rs1Of_encodeS : rs1Of (encodeS f3 op rs1 rs2 imm) = rs1 := by
  unfold rs1Of encodeS
  ext i hi
  simp only [BitVec.getElem_extractLsb', BitVec.getLsbD_append]
  interval_cases i <;> simp

@[simp] theorem rs2Of_encodeS : rs2Of (encodeS f3 op rs1 rs2 imm) = rs2 := by
  unfold rs2Of encodeS
  ext i hi
  simp only [BitVec.getElem_extractLsb', BitVec.getLsbD_append]
  interval_cases i <;> simp

@[simp] theorem immSOf_encodeS : immSOf (encodeS f3 op rs1 rs2 imm) = imm := by
  unfold immSOf encodeS
  ext i hi
  simp only [BitVec.getElem_extractLsb', BitVec.getLsbD_append, BitVec.getElem_append]
  interval_cases i <;> simp

/-! ## Format B (R76) -/

variable (offset : BitVec 13)

theorem encodeB_fixed : encodeB f3 op rs1 rs2 offset &&& 0x0000707F#32 = encodeB f3 op 0#5 0#5 0#13 := by
  unfold encodeB
  apply BitVec.eq_of_getLsbD_eq
  intro i hi
  simp only [BitVec.getLsbD_and, BitVec.getLsbD_append]
  interval_cases i <;> simp

@[simp] theorem rs1Of_encodeB : rs1Of (encodeB f3 op rs1 rs2 offset) = rs1 := by
  unfold rs1Of encodeB
  ext i hi
  simp only [BitVec.getElem_extractLsb', BitVec.getLsbD_append]
  interval_cases i <;> simp

@[simp] theorem rs2Of_encodeB : rs2Of (encodeB f3 op rs1 rs2 offset) = rs2 := by
  unfold rs2Of encodeB
  ext i hi
  simp only [BitVec.getElem_extractLsb', BitVec.getLsbD_append]
  interval_cases i <;> simp

theorem offsetBOf_encodeB (h : evenOffset offset = true) : offsetBOf (encodeB f3 op rs1 rs2 offset) = offset := by
  unfold offsetBOf encodeB
  have h0 : offset[0] = false := by simpa [evenOffset] using h
  ext i hi
  simp only [BitVec.getElem_extractLsb', BitVec.getLsbD_append, BitVec.getElem_append]
  interval_cases i <;> simp [h0]

/-! ## Formats U and J (R77, R78) -/

variable (immu : BitVec 20)

theorem encodeU_fixed : encodeU op rd immu &&& 0x0000007F#32 = encodeU op 0#5 0#20 := by
  unfold encodeU
  apply BitVec.eq_of_getLsbD_eq
  intro i hi
  simp only [BitVec.getLsbD_and, BitVec.getLsbD_append]
  interval_cases i <;> simp

@[simp] theorem rdOf_encodeU : rdOf (encodeU op rd immu) = rd := by
  unfold rdOf encodeU
  ext i hi
  simp only [BitVec.getElem_extractLsb', BitVec.getLsbD_append]
  interval_cases i <;> simp

@[simp] theorem immUOf_encodeU : immUOf (encodeU op rd immu) = immu := by
  unfold immUOf encodeU
  ext i hi
  simp only [BitVec.getElem_extractLsb', BitVec.getLsbD_append]
  interval_cases i <;> simp

variable (joffset : BitVec 21)

theorem encodeJ_fixed : encodeJ op rd joffset &&& 0x0000007F#32 = encodeJ op 0#5 0#21 := by
  unfold encodeJ
  apply BitVec.eq_of_getLsbD_eq
  intro i hi
  simp only [BitVec.getLsbD_and, BitVec.getLsbD_append]
  interval_cases i <;> simp

@[simp] theorem rdOf_encodeJ : rdOf (encodeJ op rd joffset) = rd := by
  unfold rdOf encodeJ
  ext i hi
  simp only [BitVec.getElem_extractLsb', BitVec.getLsbD_append]
  interval_cases i <;> simp

theorem offsetJOf_encodeJ (h : evenOffset joffset = true) : offsetJOf (encodeJ op rd joffset) = joffset := by
  unfold offsetJOf encodeJ
  have h0 : joffset[0] = false := by simpa [evenOffset] using h
  ext i hi
  simp only [BitVec.getElem_extractLsb', BitVec.getLsbD_append, BitVec.getElem_append]
  interval_cases i <;> simp [h0]

end Fields

end Sys2Proof
end

