-- ==== Sys2Proof/Laws/PerInstr.lean ====
section
/-! SUPPORT. The family `RowOfEncode`, one lemma per constructor: the encoded word of a well-formed instruction matches
a row of the opcode table (R87) whose builder gives the instruction back. That no other row accepts the word is not
said here. -/

namespace Sys2Proof.Laws.RowOfEncode

/-- A row of the table matches the encoded word and builds the instruction from it; it needs `HAS_MUL` exactly when
the instruction is `mul` (R85, R87). -/
def Statement (i : Instr) : Prop :=
  i.wf = true →
    ∃ r ∈ opcodeRows, r.matchesWord (encode i) = true ∧ r.build (encode i) = i ∧ r.needsMul = i.isMul

/-- What one lemma of the family takes: the row, that it is in the table, its match and its builder. -/
theorem of_row {i : Instr} (r : Row) (hr : r ∈ opcodeRows) (hm : encode i &&& r.mask = r.pattern)
    (hb : i.wf = true → r.build (encode i) = i) (hn : r.needsMul = i.isMul) : Statement i :=
  fun hw => ⟨r, hr, by simp [Row.matchesWord, hm], hb hw, hn⟩

theorem add (rd rs1 rs2 : RegNum) : Statement (.add rd rs1 rs2) :=
  of_row ⟨"add", 0xFE00707F#32, 0x00000033#32, false, buildR .add⟩ (by simp [opcodeRows, arithmeticRows])
    ((encodeR_fixed _ _ _ rd rs1 rs2).trans (by decide)) (fun _ => by simp [buildR, encode]) rfl

theorem sub (rd rs1 rs2 : RegNum) : Statement (.sub rd rs1 rs2) :=
  of_row ⟨"sub", 0xFE00707F#32, 0x40000033#32, false, buildR .sub⟩ (by simp [opcodeRows, arithmeticRows])
    ((encodeR_fixed _ _ _ rd rs1 rs2).trans (by decide)) (fun _ => by simp [buildR, encode]) rfl

theorem and (rd rs1 rs2 : RegNum) : Statement (.and rd rs1 rs2) :=
  of_row ⟨"and", 0xFE00707F#32, 0x00007033#32, false, buildR .and⟩ (by simp [opcodeRows, arithmeticRows])
    ((encodeR_fixed _ _ _ rd rs1 rs2).trans (by decide)) (fun _ => by simp [buildR, encode]) rfl

theorem or (rd rs1 rs2 : RegNum) : Statement (.or rd rs1 rs2) :=
  of_row ⟨"or", 0xFE00707F#32, 0x00006033#32, false, buildR .or⟩ (by simp [opcodeRows, arithmeticRows])
    ((encodeR_fixed _ _ _ rd rs1 rs2).trans (by decide)) (fun _ => by simp [buildR, encode]) rfl

theorem xor (rd rs1 rs2 : RegNum) : Statement (.xor rd rs1 rs2) :=
  of_row ⟨"xor", 0xFE00707F#32, 0x00004033#32, false, buildR .xor⟩ (by simp [opcodeRows, arithmeticRows])
    ((encodeR_fixed _ _ _ rd rs1 rs2).trans (by decide)) (fun _ => by simp [buildR, encode]) rfl

theorem sll (rd rs1 rs2 : RegNum) : Statement (.sll rd rs1 rs2) :=
  of_row ⟨"sll", 0xFE00707F#32, 0x00001033#32, false, buildR .sll⟩ (by simp [opcodeRows, arithmeticRows])
    ((encodeR_fixed _ _ _ rd rs1 rs2).trans (by decide)) (fun _ => by simp [buildR, encode]) rfl

theorem srl (rd rs1 rs2 : RegNum) : Statement (.srl rd rs1 rs2) :=
  of_row ⟨"srl", 0xFE00707F#32, 0x00005033#32, false, buildR .srl⟩ (by simp [opcodeRows, arithmeticRows])
    ((encodeR_fixed _ _ _ rd rs1 rs2).trans (by decide)) (fun _ => by simp [buildR, encode]) rfl

theorem sra (rd rs1 rs2 : RegNum) : Statement (.sra rd rs1 rs2) :=
  of_row ⟨"sra", 0xFE00707F#32, 0x40005033#32, false, buildR .sra⟩ (by simp [opcodeRows, arithmeticRows])
    ((encodeR_fixed _ _ _ rd rs1 rs2).trans (by decide)) (fun _ => by simp [buildR, encode]) rfl

theorem slt (rd rs1 rs2 : RegNum) : Statement (.slt rd rs1 rs2) :=
  of_row ⟨"slt", 0xFE00707F#32, 0x00002033#32, false, buildR .slt⟩ (by simp [opcodeRows, arithmeticRows])
    ((encodeR_fixed _ _ _ rd rs1 rs2).trans (by decide)) (fun _ => by simp [buildR, encode]) rfl

theorem sltu (rd rs1 rs2 : RegNum) : Statement (.sltu rd rs1 rs2) :=
  of_row ⟨"sltu", 0xFE00707F#32, 0x00003033#32, false, buildR .sltu⟩ (by simp [opcodeRows, arithmeticRows])
    ((encodeR_fixed _ _ _ rd rs1 rs2).trans (by decide)) (fun _ => by simp [buildR, encode]) rfl

theorem addi (rd rs1 : RegNum) (imm : BitVec 12) : Statement (.addi rd rs1 imm) :=
  of_row ⟨"addi", 0x0000707F#32, 0x00000013#32, false, buildI .addi⟩ (by simp [opcodeRows, arithmeticRows])
    ((encodeI_fixed _ _ rd rs1 imm).trans (by decide)) (fun _ => by simp [buildI, encode]) rfl

theorem andi (rd rs1 : RegNum) (imm : BitVec 12) : Statement (.andi rd rs1 imm) :=
  of_row ⟨"andi", 0x0000707F#32, 0x00007013#32, false, buildI .andi⟩ (by simp [opcodeRows, arithmeticRows])
    ((encodeI_fixed _ _ rd rs1 imm).trans (by decide)) (fun _ => by simp [buildI, encode]) rfl

theorem ori (rd rs1 : RegNum) (imm : BitVec 12) : Statement (.ori rd rs1 imm) :=
  of_row ⟨"ori", 0x0000707F#32, 0x00006013#32, false, buildI .ori⟩ (by simp [opcodeRows, arithmeticRows])
    ((encodeI_fixed _ _ rd rs1 imm).trans (by decide)) (fun _ => by simp [buildI, encode]) rfl

theorem xori (rd rs1 : RegNum) (imm : BitVec 12) : Statement (.xori rd rs1 imm) :=
  of_row ⟨"xori", 0x0000707F#32, 0x00004013#32, false, buildI .xori⟩ (by simp [opcodeRows, arithmeticRows])
    ((encodeI_fixed _ _ rd rs1 imm).trans (by decide)) (fun _ => by simp [buildI, encode]) rfl

theorem slli (rd rs1 : RegNum) (shamt : BitVec 5) : Statement (.slli rd rs1 shamt) :=
  of_row ⟨"slli", 0xFE00707F#32, 0x00001013#32, false, buildShift .slli⟩ (by simp [opcodeRows, arithmeticRows])
    ((encodeR_fixed _ _ _ rd rs1 shamt).trans (by decide)) (fun _ => by simp [buildShift, encode, encodeShift_eq_encodeR, shamtOf_eq_rs2Of]) rfl

theorem srli (rd rs1 : RegNum) (shamt : BitVec 5) : Statement (.srli rd rs1 shamt) :=
  of_row ⟨"srli", 0xFE00707F#32, 0x00005013#32, false, buildShift .srli⟩ (by simp [opcodeRows, arithmeticRows])
    ((encodeR_fixed _ _ _ rd rs1 shamt).trans (by decide)) (fun _ => by simp [buildShift, encode, encodeShift_eq_encodeR, shamtOf_eq_rs2Of]) rfl

theorem srai (rd rs1 : RegNum) (shamt : BitVec 5) : Statement (.srai rd rs1 shamt) :=
  of_row ⟨"srai", 0xFE00707F#32, 0x40005013#32, false, buildShift .srai⟩ (by simp [opcodeRows, arithmeticRows])
    ((encodeR_fixed _ _ _ rd rs1 shamt).trans (by decide)) (fun _ => by simp [buildShift, encode, encodeShift_eq_encodeR, shamtOf_eq_rs2Of]) rfl

theorem slti (rd rs1 : RegNum) (imm : BitVec 12) : Statement (.slti rd rs1 imm) :=
  of_row ⟨"slti", 0x0000707F#32, 0x00002013#32, false, buildI .slti⟩ (by simp [opcodeRows, arithmeticRows])
    ((encodeI_fixed _ _ rd rs1 imm).trans (by decide)) (fun _ => by simp [buildI, encode]) rfl

theorem sltiu (rd rs1 : RegNum) (imm : BitVec 12) : Statement (.sltiu rd rs1 imm) :=
  of_row ⟨"sltiu", 0x0000707F#32, 0x00003013#32, false, buildI .sltiu⟩ (by simp [opcodeRows, arithmeticRows])
    ((encodeI_fixed _ _ rd rs1 imm).trans (by decide)) (fun _ => by simp [buildI, encode]) rfl

theorem lb (rd rs1 : RegNum) (imm : BitVec 12) : Statement (.lb rd rs1 imm) :=
  of_row ⟨"lb", 0x0000707F#32, 0x00000003#32, false, buildI .lb⟩ (by simp [opcodeRows, memoryRows])
    ((encodeI_fixed _ _ rd rs1 imm).trans (by decide)) (fun _ => by simp [buildI, encode]) rfl

theorem lbu (rd rs1 : RegNum) (imm : BitVec 12) : Statement (.lbu rd rs1 imm) :=
  of_row ⟨"lbu", 0x0000707F#32, 0x00004003#32, false, buildI .lbu⟩ (by simp [opcodeRows, memoryRows])
    ((encodeI_fixed _ _ rd rs1 imm).trans (by decide)) (fun _ => by simp [buildI, encode]) rfl

theorem lh (rd rs1 : RegNum) (imm : BitVec 12) : Statement (.lh rd rs1 imm) :=
  of_row ⟨"lh", 0x0000707F#32, 0x00001003#32, false, buildI .lh⟩ (by simp [opcodeRows, memoryRows])
    ((encodeI_fixed _ _ rd rs1 imm).trans (by decide)) (fun _ => by simp [buildI, encode]) rfl

theorem lhu (rd rs1 : RegNum) (imm : BitVec 12) : Statement (.lhu rd rs1 imm) :=
  of_row ⟨"lhu", 0x0000707F#32, 0x00005003#32, false, buildI .lhu⟩ (by simp [opcodeRows, memoryRows])
    ((encodeI_fixed _ _ rd rs1 imm).trans (by decide)) (fun _ => by simp [buildI, encode]) rfl

theorem lw (rd rs1 : RegNum) (imm : BitVec 12) : Statement (.lw rd rs1 imm) :=
  of_row ⟨"lw", 0x0000707F#32, 0x00002003#32, false, buildI .lw⟩ (by simp [opcodeRows, memoryRows])
    ((encodeI_fixed _ _ rd rs1 imm).trans (by decide)) (fun _ => by simp [buildI, encode]) rfl

theorem sb (rs1 rs2 : RegNum) (imm : BitVec 12) : Statement (.sb rs1 rs2 imm) :=
  of_row ⟨"sb", 0x0000707F#32, 0x00000023#32, false, buildS .sb⟩ (by simp [opcodeRows, memoryRows])
    ((encodeS_fixed _ _ rs1 rs2 imm).trans (by decide)) (fun _ => by simp [buildS, encode]) rfl

theorem sh (rs1 rs2 : RegNum) (imm : BitVec 12) : Statement (.sh rs1 rs2 imm) :=
  of_row ⟨"sh", 0x0000707F#32, 0x00001023#32, false, buildS .sh⟩ (by simp [opcodeRows, memoryRows])
    ((encodeS_fixed _ _ rs1 rs2 imm).trans (by decide)) (fun _ => by simp [buildS, encode]) rfl

theorem sw (rs1 rs2 : RegNum) (imm : BitVec 12) : Statement (.sw rs1 rs2 imm) :=
  of_row ⟨"sw", 0x0000707F#32, 0x00002023#32, false, buildS .sw⟩ (by simp [opcodeRows, memoryRows])
    ((encodeS_fixed _ _ rs1 rs2 imm).trans (by decide)) (fun _ => by simp [buildS, encode]) rfl

theorem beq (rs1 rs2 : RegNum) (offset : BitVec 13) : Statement (.beq rs1 rs2 offset) :=
  of_row ⟨"beq", 0x0000707F#32, 0x00000063#32, false, buildB .beq⟩ (by simp [opcodeRows, controlRows])
    ((encodeB_fixed _ _ rs1 rs2 offset).trans (by decide)) (fun hw => by simp [buildB, encode, offsetBOf_encodeB _ _ _ _ _ hw]) rfl

theorem bne (rs1 rs2 : RegNum) (offset : BitVec 13) : Statement (.bne rs1 rs2 offset) :=
  of_row ⟨"bne", 0x0000707F#32, 0x00001063#32, false, buildB .bne⟩ (by simp [opcodeRows, controlRows])
    ((encodeB_fixed _ _ rs1 rs2 offset).trans (by decide)) (fun hw => by simp [buildB, encode, offsetBOf_encodeB _ _ _ _ _ hw]) rfl

theorem blt (rs1 rs2 : RegNum) (offset : BitVec 13) : Statement (.blt rs1 rs2 offset) :=
  of_row ⟨"blt", 0x0000707F#32, 0x00004063#32, false, buildB .blt⟩ (by simp [opcodeRows, controlRows])
    ((encodeB_fixed _ _ rs1 rs2 offset).trans (by decide)) (fun hw => by simp [buildB, encode, offsetBOf_encodeB _ _ _ _ _ hw]) rfl

theorem bltu (rs1 rs2 : RegNum) (offset : BitVec 13) : Statement (.bltu rs1 rs2 offset) :=
  of_row ⟨"bltu", 0x0000707F#32, 0x00006063#32, false, buildB .bltu⟩ (by simp [opcodeRows, controlRows])
    ((encodeB_fixed _ _ rs1 rs2 offset).trans (by decide)) (fun hw => by simp [buildB, encode, offsetBOf_encodeB _ _ _ _ _ hw]) rfl

theorem bge (rs1 rs2 : RegNum) (offset : BitVec 13) : Statement (.bge rs1 rs2 offset) :=
  of_row ⟨"bge", 0x0000707F#32, 0x00005063#32, false, buildB .bge⟩ (by simp [opcodeRows, controlRows])
    ((encodeB_fixed _ _ rs1 rs2 offset).trans (by decide)) (fun hw => by simp [buildB, encode, offsetBOf_encodeB _ _ _ _ _ hw]) rfl

theorem bgeu (rs1 rs2 : RegNum) (offset : BitVec 13) : Statement (.bgeu rs1 rs2 offset) :=
  of_row ⟨"bgeu", 0x0000707F#32, 0x00007063#32, false, buildB .bgeu⟩ (by simp [opcodeRows, controlRows])
    ((encodeB_fixed _ _ rs1 rs2 offset).trans (by decide)) (fun hw => by simp [buildB, encode, offsetBOf_encodeB _ _ _ _ _ hw]) rfl

theorem jal (rd : RegNum) (offset : BitVec 21) : Statement (.jal rd offset) :=
  of_row ⟨"jal", 0x0000007F#32, 0x0000006F#32, false, buildJ .jal⟩ (by simp [opcodeRows, controlRows])
    ((encodeJ_fixed _ rd offset).trans (by decide)) (fun hw => by simp [buildJ, encode, offsetJOf_encodeJ _ _ _ hw]) rfl

theorem jalr (rd rs1 : RegNum) (imm : BitVec 12) : Statement (.jalr rd rs1 imm) :=
  of_row ⟨"jalr", 0x0000707F#32, 0x00000067#32, false, buildI .jalr⟩ (by simp [opcodeRows, controlRows])
    ((encodeI_fixed _ _ rd rs1 imm).trans (by decide)) (fun _ => by simp [buildI, encode]) rfl

theorem auipc (rd : RegNum) (immu : BitVec 20) : Statement (.auipc rd immu) :=
  of_row ⟨"auipc", 0x0000007F#32, 0x00000017#32, false, buildU .auipc⟩ (by simp [opcodeRows, otherRows])
    ((encodeU_fixed _ rd immu).trans (by decide)) (fun _ => by simp [buildU, encode]) rfl

theorem lui (rd : RegNum) (immu : BitVec 20) : Statement (.lui rd immu) :=
  of_row ⟨"lui", 0x0000007F#32, 0x00000037#32, false, buildU .lui⟩ (by simp [opcodeRows, otherRows])
    ((encodeU_fixed _ rd immu).trans (by decide)) (fun _ => by simp [buildU, encode]) rfl

theorem ebreak : Statement .ebreak :=
  of_row ⟨"ebreak", 0xFFFFFFFF#32, 0x00100073#32, false, fun _ => .ebreak⟩ (by simp [opcodeRows, otherRows]) (by decide)
    (fun _ => rfl) rfl

theorem ecall : Statement .ecall :=
  of_row ⟨"ecall", 0xFFFFFFFF#32, 0x00000073#32, false, fun _ => .ecall⟩ (by simp [opcodeRows, otherRows]) (by decide)
    (fun _ => rfl) rfl

theorem mul (rd rs1 rs2 : RegNum) : Statement (.mul rd rs1 rs2) :=
  of_row ⟨"mul", 0xFE00707F#32, 0x02000033#32, true, buildR .mul⟩ (by simp [opcodeRows, otherRows])
    ((encodeR_fixed _ _ _ rd rs1 rs2).trans (by decide)) (fun _ => by simp [buildR, encode]) rfl

end Sys2Proof.Laws.RowOfEncode
end

