-- ==== Sys2Proof/Machine/Footprint.lean ====
section
/-! DEFINITION. What an instruction may touch, as the spec tabulates it: the registers it reads and writes
(`10_state.md` R24), the bytes it stores to (`20_memory.md` R50), the next `pc` (`10_state.md` R27) and the exceptions
it can raise (`60_exceptions.md` R220). No step refers to these tables; the statements hold `exec` against them. -/

namespace Sys2Proof.Machine

/-- The registers an instruction reads (R24). -/
def reads : Instr → List RegNum
  | .add _ rs1 rs2 | .sub _ rs1 rs2 | .and _ rs1 rs2 | .or _ rs1 rs2 | .xor _ rs1 rs2 | .sll _ rs1 rs2
  | .srl _ rs1 rs2 | .sra _ rs1 rs2 | .slt _ rs1 rs2 | .sltu _ rs1 rs2 | .mul _ rs1 rs2 => [rs1, rs2]
  | .addi _ rs1 _ | .andi _ rs1 _ | .ori _ rs1 _ | .xori _ rs1 _ | .slti _ rs1 _ | .sltiu _ rs1 _ => [rs1]
  | .slli _ rs1 _ | .srli _ rs1 _ | .srai _ rs1 _ => [rs1]
  | .lb _ rs1 _ | .lbu _ rs1 _ | .lh _ rs1 _ | .lhu _ rs1 _ | .lw _ rs1 _ => [rs1]
  | .sb rs1 rs2 _ | .sh rs1 rs2 _ | .sw rs1 rs2 _ => [rs1, rs2]
  | .beq rs1 rs2 _ | .bne rs1 rs2 _ | .blt rs1 rs2 _ | .bltu rs1 rs2 _ | .bge rs1 rs2 _
  | .bgeu rs1 rs2 _ => [rs1, rs2]
  | .jalr _ rs1 _ => [rs1]
  | .jal _ _ | .auipc _ _ | .lui _ _ | .ebreak | .ecall => []

/-- The register an instruction writes, if it writes one (R24). -/
def dest : Instr → Option RegNum
  | .add rd _ _ | .sub rd _ _ | .and rd _ _ | .or rd _ _ | .xor rd _ _ | .sll rd _ _ | .srl rd _ _ | .sra rd _ _
  | .slt rd _ _ | .sltu rd _ _ | .mul rd _ _ => some rd
  | .addi rd _ _ | .andi rd _ _ | .ori rd _ _ | .xori rd _ _ | .slti rd _ _ | .sltiu rd _ _ => some rd
  | .slli rd _ _ | .srli rd _ _ | .srai rd _ _ => some rd
  | .lb rd _ _ | .lbu rd _ _ | .lh rd _ _ | .lhu rd _ _ | .lw rd _ _ => some rd
  | .jal rd _ => some rd
  | .jalr rd _ _ => some rd
  | .auipc rd _ | .lui rd _ => some rd
  | .sb _ _ _ | .sh _ _ _ | .sw _ _ _ | .beq _ _ _ | .bne _ _ _ | .blt _ _ _ | .bltu _ _ _ | .bge _ _ _
  | .bgeu _ _ _ | .ebreak | .ecall => none

/-- The addresses an instruction stores to, none for one that stores nothing (R41, R50). -/
def storedTo (s : State) : Instr → List Word
  | .sb rs1 _ imm => span (storeAddr s rs1 imm) 1
  | .sh rs1 _ imm => span (storeAddr s rs1 imm) 2
  | .sw rs1 _ imm => span (storeAddr s rs1 imm) 4
  | .add _ _ _ | .sub _ _ _ | .and _ _ _ | .or _ _ _ | .xor _ _ _ | .sll _ _ _ | .srl _ _ _ | .sra _ _ _
  | .slt _ _ _ | .sltu _ _ _ | .addi _ _ _ | .andi _ _ _ | .ori _ _ _ | .xori _ _ _ | .slli _ _ _
  | .srli _ _ _ | .srai _ _ _ | .slti _ _ _ | .sltiu _ _ _ | .lb _ _ _ | .lbu _ _ _ | .lh _ _ _
  | .lhu _ _ _ | .lw _ _ _ | .beq _ _ _ | .bne _ _ _ | .blt _ _ _ | .bltu _ _ _ | .bge _ _ _ | .bgeu _ _ _
  | .jal _ _ | .jalr _ _ _ | .auipc _ _ | .lui _ _ | .ebreak | .ecall | .mul _ _ _ => []

/-- The next `pc` of an instruction that does not raise (R27). -/
def nextPc (s : State) : Instr → Word
  | .beq rs1 rs2 offset => if condEq (getReg s rs1) (getReg s rs2) then branchTarget s offset else s.pc + 4#32
  | .bne rs1 rs2 offset => if condNe (getReg s rs1) (getReg s rs2) then branchTarget s offset else s.pc + 4#32
  | .blt rs1 rs2 offset => if condLt (getReg s rs1) (getReg s rs2) then branchTarget s offset else s.pc + 4#32
  | .bltu rs1 rs2 offset => if condLtu (getReg s rs1) (getReg s rs2) then branchTarget s offset else s.pc + 4#32
  | .bge rs1 rs2 offset => if condGe (getReg s rs1) (getReg s rs2) then branchTarget s offset else s.pc + 4#32
  | .bgeu rs1 rs2 offset => if condGeu (getReg s rs1) (getReg s rs2) then branchTarget s offset else s.pc + 4#32
  | .jal _ offset => jalTarget s offset
  | .jalr _ rs1 imm => jalrTarget s rs1 imm
  | .add _ _ _ | .sub _ _ _ | .and _ _ _ | .or _ _ _ | .xor _ _ _ | .sll _ _ _ | .srl _ _ _ | .sra _ _ _
  | .slt _ _ _ | .sltu _ _ _ | .addi _ _ _ | .andi _ _ _ | .ori _ _ _ | .xori _ _ _ | .slli _ _ _
  | .srli _ _ _ | .srai _ _ _ | .slti _ _ _ | .sltiu _ _ _ | .lb _ _ _ | .lbu _ _ _ | .lh _ _ _
  | .lhu _ _ _ | .lw _ _ _ | .sb _ _ _ | .sh _ _ _ | .sw _ _ _ | .auipc _ _ | .lui _ _ | .ebreak | .ecall
  | .mul _ _ _ => s.pc + 4#32

/-- The instructions of R27's first row, whose next `pc` is always `pc + 4` where they do not raise. -/
def sequential : Instr → Bool
  | .beq _ _ _ | .bne _ _ _ | .blt _ _ _ | .bltu _ _ _ | .bge _ _ _ | .bgeu _ _ _ | .jal _ _ | .jalr _ _ _ => false
  | .add _ _ _ | .sub _ _ _ | .and _ _ _ | .or _ _ _ | .xor _ _ _ | .sll _ _ _ | .srl _ _ _ | .sra _ _ _
  | .slt _ _ _ | .sltu _ _ _ | .addi _ _ _ | .andi _ _ _ | .ori _ _ _ | .xori _ _ _ | .slli _ _ _
  | .srli _ _ _ | .srai _ _ _ | .slti _ _ _ | .sltiu _ _ _ | .lb _ _ _ | .lbu _ _ _ | .lh _ _ _
  | .lhu _ _ _ | .lw _ _ _ | .sb _ _ _ | .sh _ _ _ | .sw _ _ _ | .auipc _ _ | .lui _ _ | .ebreak | .ecall
  | .mul _ _ _ => true

/-- The exceptions the instruction itself can raise, with the datum each records (R220, R213 to R219). Those of its
fetch and decode are not the instruction's. -/
def canRaise (s : State) : Instr → List Fault
  | .lb _ rs1 imm | .lbu _ rs1 imm => [.loadAccessFault (loadAddr s rs1 imm)]
  | .lh _ rs1 imm | .lhu _ rs1 imm | .lw _ rs1 imm =>
    [.loadAddressMisaligned (loadAddr s rs1 imm), .loadAccessFault (loadAddr s rs1 imm)]
  | .sb rs1 _ imm => [.storeAccessFault (storeAddr s rs1 imm)]
  | .sh rs1 _ imm | .sw rs1 _ imm =>
    [.storeAddressMisaligned (storeAddr s rs1 imm), .storeAccessFault (storeAddr s rs1 imm)]
  | .beq _ _ offset | .bne _ _ offset | .blt _ _ offset | .bltu _ _ offset | .bge _ _ offset
  | .bgeu _ _ offset => [.instructionAddressMisaligned (branchTarget s offset)]
  | .jal _ offset => [.instructionAddressMisaligned (jalTarget s offset)]
  | .jalr _ rs1 imm => [.instructionAddressMisaligned (jalrTarget s rs1 imm)]
  | .ebreak => [.breakpoint s.pc]
  | .ecall => [.environmentCall s.pc]
  | .add _ _ _ | .sub _ _ _ | .and _ _ _ | .or _ _ _ | .xor _ _ _ | .sll _ _ _ | .srl _ _ _ | .sra _ _ _
  | .slt _ _ _ | .sltu _ _ _ | .addi _ _ _ | .andi _ _ _ | .ori _ _ _ | .xori _ _ _ | .slli _ _ _
  | .srli _ _ _ | .srai _ _ _ | .slti _ _ _ | .sltiu _ _ _ | .auipc _ _ | .lui _ _ | .mul _ _ _ => []

end Sys2Proof.Machine
end

