-- ==== Sys2Proof/Safety.lean ====
section
/-! DEFINITION. The terms statements are written in: the invariant of a machine, how a run ends (`70_reset_and_hazards.md`
R246), and what an instruction that completes leaves unchanged. -/

namespace Sys2Proof.Machine

/-! ## The invariant -/

/-- A memory of this machine: canonical, and listing only addresses of `MEM_VALID` (R43). -/
def memoryOk (cfg : Config) (m : Memory) : Bool :=
  Memory.wf m && m.all (fun c => validAddr cfg (BitVec.ofNat 32 c.1))

/-- Admissible plain parameters: `RESET_PC` is a multiple of 4 (R37) and `MEM_INIT` is a memory (R38). -/
def configOk (cfg : Config) : Bool := aligned4 cfg.resetPc && memoryOk cfg cfg.memInit

/-- A state the environment may continue from: `pc` a multiple of 4 (R28), a memory, and addresses of the space. -/
def resumptionOk (cfg : Config) (a : Resumption) : Bool :=
  aligned4 a.pc && memoryOk cfg a.mem && a.marked.all (fun k => decide (k < 2 ^ 32))

/-- An environment that, asked at a state with an aligned `pc` and a memory, answers `Halt` or such a state. The spec
constrains no answer (R225); this is what the invariant has to ask of one. -/
def EnvOk (cfg : Config) : Prop :=
  ∀ (s : State) (e : Fault) (a : Resumption), s.cfg = cfg → aligned4 s.pc = true → memoryOk cfg s.mem = true →
    answerTo s e = some a → resumptionOk cfg a = true

/-- Every parameter of R8 admissible, `ENV` among them. -/
structure ConfigOk (cfg : Config) : Prop where
  plain : configOk cfg = true
  env : EnvOk cfg

/-- The invariant: `pc` is a multiple of 4 (R28), memory and `Written` are in canonical form, the parameters are
admissible. -/
structure State.Inv (s : State) : Prop where
  pc : aligned4 s.pc = true
  memory : memoryOk s.cfg s.mem = true
  written : AddrSet.wf s.written = true
  cfg : ConfigOk s.cfg

/-! ## How a run ends (R246) -/

/-- How a run ends. -/
inductive Ending where
  /-- `EnvironmentCall`: the normal end, whose state a postcondition speaks of. -/
  | normal
  /-- `Breakpoint`: a stop a claim may count as final. -/
  | breakpoint
  /-- Any other trap, or the refusal: no postcondition is owed. -/
  | notFinal
  deriving DecidableEq, Repr

/-- The ending an outcome is, none if the run goes on (R246). -/
def endingOf : Outcome → Option Ending
  | .next _ => none
  | .fault (.environmentCall _) => some .normal
  | .fault (.breakpoint _) => some .breakpoint
  | .fault (.instructionAccessFault _) | .fault (.illegalInstruction _)
  | .fault (.instructionAddressMisaligned _) | .fault (.loadAddressMisaligned _)
  | .fault (.storeAddressMisaligned _) | .fault (.loadAccessFault _) | .fault (.storeAccessFault _)
  | .refused _ => some .notFinal

/-! ## What an instruction leaves unchanged -/

/-- Every register but `rd` reads as before (R24). -/
def sameRegsBut (rd : RegNum) (s t : State) : Prop := ∀ r, r ≠ rd → getReg t r = getReg s r

/-- Every register reads as before. -/
def sameRegs (s t : State) : Prop := ∀ r, getReg t r = getReg s r

/-- Every byte of memory reads as before. -/
def sameMemory (s t : State) : Prop := ∀ a, readByte t a = readByte s a

/-- `Written` and the parameters are as before, and the environment has not been asked. -/
def sameOthers (s t : State) : Prop := t.written = s.written ∧ t.cfg = s.cfg ∧ t.answered = s.answered

/-- The whole effect of an instruction that computes `v` into `rd` and goes on: `rd` holds `v` (nothing is written if
`rd` is `x0`, which goes on reading 0, R22), every other register and every byte of memory reads as before, `pc` is
`pc + 4`. -/
structure Computes (s : State) (rd : RegNum) (v : Word) (t : State) : Prop where
  result : rd ≠ 0#5 → getReg t rd = v
  zeroRegister : getReg t 0#5 = 0#32
  otherRegs : sameRegsBut rd s t
  nextPc : t.pc = s.pc + 4#32
  memory : sameMemory s t
  others : sameOthers s t

/-- The whole effect of an instruction that only sets `pc`. -/
structure GoesTo (s : State) (target : Word) (t : State) : Prop where
  nextPc : t.pc = target
  regs : sameRegs s t
  memory : sameMemory s t
  others : sameOthers s t

/-- The whole effect of a jump that links: `rd` holds `pc + 4` (nothing is written if `rd` is `x0`). -/
structure Links (s : State) (rd : RegNum) (target : Word) (t : State) : Prop where
  result : rd ≠ 0#5 → getReg t rd = s.pc + 4#32
  zeroRegister : getReg t 0#5 = 0#32
  otherRegs : sameRegsBut rd s t
  nextPc : t.pc = target
  memory : sameMemory s t
  others : sameOthers s t

/-- The whole effect of a store of the low `n` bytes of `v` at `addr`: byte `i` of `v` is at `addr + i`, every byte
outside reads as before, the bytes stored to enter `Written`, no register changes, `pc` is `pc + 4`. -/
structure Stores (s : State) (addr : Word) (n : Nat) (v : Word) (t : State) : Prop where
  stored : ∀ i, i < n → readByte t (addr + BitVec.ofNat 32 i) = v.extractLsb' (8 * i) 8
  memory : ∀ a, a ∉ span addr n → readByte t a = readByte s a
  written : ∀ k, k ∈ t.written ↔ k ∈ s.written ∨ ∃ a ∈ span addr n, k = a.toNat
  regs : sameRegs s t
  nextPc : t.pc = s.pc + 4#32
  cfg : t.cfg = s.cfg
  answered : t.answered = s.answered

/-! ## Encodings -/

/-- A row of R87: every word with these fixed bits decodes to what its fields make, whatever `HAS_MUL` is. -/
def DecodesTo (mask pattern : Word) (build : Word → Instr) : Prop :=
  ∀ hasMul w, w &&& mask = pattern → decodeWord hasMul w = .ok (build w)

/-- The words R89 lists as illegal, space by space, under a setting of `HAS_MUL`. -/
def illegalSpace (hasMul : Bool) (w : Word) : Prop :=
  let op := opcodeOf w
  let f3 := (funct3Of w).toNat
  let f7 := funct7Of w
  if op = 0x03#7 then f3 = 3 ∨ f3 = 6 ∨ f3 = 7
  else if op = 0x13#7 then (f3 = 1 ∧ f7 ≠ 0x00#7) ∨ (f3 = 5 ∧ f7 ≠ 0x00#7 ∧ f7 ≠ 0x20#7)
  else if op = 0x23#7 then 3 ≤ f3
  else if op = 0x33#7 then
    (f3 = 0 ∧ f7 ≠ 0x00#7 ∧ f7 ≠ 0x20#7 ∧ ¬(hasMul = true ∧ f7 = 0x01#7)) ∨
      (f3 = 5 ∧ f7 ≠ 0x00#7 ∧ f7 ≠ 0x20#7) ∨ (f3 ≠ 0 ∧ f3 ≠ 5 ∧ f7 ≠ 0x00#7)
  else if op = 0x63#7 then f3 = 2 ∨ f3 = 3
  else if op = 0x67#7 then f3 ≠ 0
  else if op = 0x73#7 then w ≠ 0x00000073#32 ∧ w ≠ 0x00100073#32
  else ¬(op = 0x17#7 ∨ op = 0x37#7 ∨ op = 0x6F#7)

/-! ## Agreement of two runs of one instruction -/

/-- One instruction run on two states does the same to all a program sees of it through its destination register, `pc`,
memory and the rest: both complete alike, or both raise the same exception, each on its own unchanged state. -/
def AgreeOn (i : Instr) (s u : State) : Prop :=
  (∃ t w, exec i s = .next t ∧ exec i u = .next w ∧ t.answered = s.answered ∧ w.answered = u.answered ∧
    t.pc = w.pc ∧ t.mem = w.mem ∧ t.written = w.written ∧ t.cfg = w.cfg ∧
    ∀ r, dest i = some r → getReg t r = getReg w r) ∨
  (∃ e, e ∈ canRaise s i ∧ exec i s = raise e s ∧ exec i u = raise e u)

end Sys2Proof.Machine
end

