-- ==== Sys2Proof/Certificates/Slice0/Obligations.lean ====
section
/-! DEFINITION. The statements for the provers. `R<n>` is a rule of `spec/`, `D<n>` a decision of
`92_eei_decisions.md`, log `<n>` a row of `notes/assumptions/`. -/

open Sys2Proof Sys2Proof.Machine

/-! ## Encoding and decoding -/

/-- A few words written out from R87's rows decode to their instructions, and two words outside the table do not. -/
def Obligations.SampleWordsDecode : Prop :=
  decodeWord false 0x402081B3#32 = .ok (.sub 3#5 1#5 2#5) ∧
  decodeWord false 0xFFF08193#32 = .ok (.addi 3#5 1#5 0xFFF#12) ∧
  decodeWord false 0x4040D193#32 = .ok (.srai 3#5 1#5 4#5) ∧
  decodeWord false 0xFFF08183#32 = .ok (.lb 3#5 1#5 0xFFF#12) ∧
  decodeWord false 0x7E20AE23#32 = .ok (.sw 1#5 2#5 0x7FC#12) ∧
  decodeWord false 0x0020F0E3#32 = .ok (.bgeu 1#5 2#5 0x0800#13) ∧
  decodeWord false 0x001000EF#32 = .ok (.jal 1#5 0x000800#21) ∧
  decodeWord false 0x123452B7#32 = .ok (.lui 5#5 0x12345#20) ∧
  decodeWord false 0x00000073#32 = .ok .ecall ∧
  decodeWord false 0x00100073#32 = .ok .ebreak ∧
  decodeWord true 0x022081B3#32 = .ok (.mul 3#5 1#5 2#5) ∧
  decodeWord false 0x022081B3#32 = .error (.illegalInstruction 0x022081B3#32) ∧
  decodeWord true 0x0FF0000F#32 = .error (.illegalInstruction 0x0FF0000F#32)

/-- Decode and encode agree: every well-formed instruction, with every operand at every value its encoding admits, is
what its word decodes to; `mul` under `HAS_MUL` (R72 to R87, R180). -/
def Obligations.DecodeOfEncode : Prop :=
  ∀ (hasMul : Bool) (i : Instr), i.wf = true → (i.isMul = true → hasMul = true) →
    decodeWord hasMul (encode i) = .ok i

/-- Encode after decode: a word that decodes is the word of the instruction it decodes to, so no bit of it is without
meaning (R91), and that instruction is well-formed. -/
def Obligations.EncodeOfDecode : Prop :=
  ∀ (hasMul : Bool) (w : Word) (i : Instr), decodeWord hasMul w = .ok i → encode i = w ∧ i.wf = true

/-- The rows' patterns are pairwise disjoint: no word matches two rows, so the order of the search does not matter
(R85, which marks it as derived). -/
def Obligations.AtMostOneRowMatches : Prop :=
  ∀ (w : Word) (j k : Nat) (hj : j < opcodeRows.length) (hk : k < opcodeRows.length),
    opcodeRows[j].matchesWord w = true → opcodeRows[k].matchesWord w = true → j = k

/-- The words the decoder rejects are exactly the spaces R89 lists (decision D14), each by the one name
`IllegalInstruction(inst)`. -/
def Obligations.RejectsExactlyTheIllegalSpaces : Prop :=
  ∀ (hasMul : Bool) (w : Word), decodeWord hasMul w = .error (.illegalInstruction w) ↔ illegalSpace hasMul w

/-- The shift amount of the I* format is `inst[24:20]` read as 0 to 31, and the U immediate is `inst[31:12]` with twelve
zeros below (R80, R83; what R80 says of funct7 is in `RejectsExactlyTheIllegalSpaces`): the fields the decoder takes and
what the operand forms make of them. -/
def Obligations.ShiftAmountAndUpperImmediate : Prop :=
  (∀ w : Word, (shamtOf w).toNat = w.toNat / 2 ^ 20 % 32) ∧
  (∀ (w : Word) (k : Nat), k < 32 → (immU (immUOf w)).getLsbD k = if k < 12 then false else w.getLsbD k)

/-- The I, S, B and J immediates, bit by bit from the instruction word, sign-extended from `inst[31]` (R79, R81, R82,
R84). The extension is the spec's decision D11. -/
def Obligations.SignExtendedImmediates : Prop :=
  ∀ (w : Word) (k : Nat), k < 32 →
    ((immI (immIOf w)).getLsbD k = if k < 12 then w.getLsbD (20 + k) else w.getLsbD 31) ∧
    ((immS (immSOf w)).getLsbD k =
      if k < 5 then w.getLsbD (7 + k) else if k < 12 then w.getLsbD (20 + k) else w.getLsbD 31) ∧
    ((immB (offsetBOf w)).getLsbD k =
      if k = 0 then false else if k < 5 then w.getLsbD (7 + k) else if k < 11 then w.getLsbD (20 + k)
        else if k = 11 then w.getLsbD 7 else w.getLsbD 31) ∧
    ((immJ (offsetJOf w)).getLsbD k =
      if k = 0 then false else if k < 11 then w.getLsbD (20 + k) else if k = 11 then w.getLsbD 20
        else if k < 20 then w.getLsbD k else w.getLsbD 31)

/-- The `mul` pattern is an instruction under `HAS_MUL` and illegal without it, and no other word's decoding depends on
the parameter (R180; the encoding is the spec's decision D15, log 14). -/
def Obligations.HasMulAdmitsOnlyMul : Prop :=
  (∀ w : Word, w &&& 0xFE00707F#32 = 0x02000033#32 →
    decodeWord true w = .ok (.mul (w.extractLsb' 7 5) (w.extractLsb' 15 5) (w.extractLsb' 20 5)) ∧
    decodeWord false w = .error (.illegalInstruction w)) ∧
  (∀ w : Word, w &&& 0xFE00707F#32 ≠ 0x02000033#32 → decodeWord true w = decodeWord false w)

/-! ## The step -/

/-- A step runs the decoded instruction (R14, R46): where `pc` is a multiple of 4, as it always is (R28, R49), and the four
bytes there are valid and unwritten and decode, little-endian, to `i`, the step is `exec i` on the same state; nothing
else happens around it. -/
def Obligations.StepRunsTheDecodedInstruction : Prop :=
  ∀ (s : State) (i : Instr), s.pc.toNat % 4 = 0 →
    (∀ k, k < 4 → validAddr s.cfg (s.pc + BitVec.ofNat 32 k) = true) →
    (∀ k, k < 4 → (s.pc + BitVec.ofNat 32 k).toNat ∉ s.written) →
    decodeWord s.cfg.hasMul
      (readByte s (s.pc + 3#32) ++ readByte s (s.pc + 2#32) ++ readByte s (s.pc + 1#32) ++ readByte s s.pc) = .ok i →
    step s = exec i s

/-- A fetch any of whose bytes is outside `MEM_VALID` raises `InstructionAccessFault(pc)`, before anything else is
looked at (R211, R223; decisions D4, D18). A `pc` that is no multiple of 4 raises the same: R242 says so of `RESET_PC`,
elsewhere it is the model's choice (log 26). -/
def Obligations.FetchOutsideMemoryTraps : Prop :=
  (∀ (s : State) (k : Nat), k < 4 → validAddr s.cfg (s.pc + BitVec.ofNat 32 k) = false →
    step s = raise (.instructionAccessFault s.pc) s) ∧
  (∀ s : State, s.pc.toNat % 4 ≠ 0 → step s = raise (.instructionAccessFault s.pc) s)

/-- A fetch of a byte that a store has written is refused, whatever the environment would answer (R62, decision D8). -/
def Obligations.FetchOfStoredBytesRefused : Prop :=
  ∀ (s : State) (k : Nat), s.pc.toNat % 4 = 0 →
    (∀ j, j < 4 → validAddr s.cfg (s.pc + BitVec.ofNat 32 j) = true) → k < 4 →
    (s.pc + BitVec.ofNat 32 k).toNat ∈ s.written → step s = .refused (.staleFetch s.pc)

/-- A fetched word that is in one of R89's illegal spaces raises `IllegalInstruction(inst)` (R88, R212; decision D14). -/
def Obligations.IllegalWordTraps : Prop :=
  ∀ (s : State) (inst : Word), fetch s = .word inst → illegalSpace s.cfg.hasMul inst →
    step s = raise (.illegalInstruction inst) s

/-- An encoded instruction loaded at `pc` is what the next step runs, from any state (log 24; the model's way
to place a program, no rule of the spec). -/
def Obligations.LoadedInstructionRuns : Prop :=
  ∀ (s : State) (i : Instr), i.wf = true →
    step (s.withFetchWord 32 (encode i).toNat) = exec i (s.withFetchWord 32 (encode i).toNat)

/-! ## Arithmetic -/

/-- `add` and `sub`, encoding and effect: the sum and the difference modulo 2^32 (R101, R102). -/
def Obligations.AddAndSubResults : Prop :=
  DecodesTo 0xFE00707F#32 0x00000033#32 (buildR .add) ∧ DecodesTo 0xFE00707F#32 0x40000033#32 (buildR .sub) ∧
  ∀ (rd rs1 rs2 : RegNum) (s : State),
    (∃ t v, exec (.add rd rs1 rs2) s = .next t ∧ Computes s rd v t ∧
      v.toNat = ((getReg s rs1).toNat + (getReg s rs2).toNat) % 2 ^ 32) ∧
    (∃ t v, exec (.sub rd rs1 rs2) s = .next t ∧ Computes s rd v t ∧
      (v.toNat : Int) = (((getReg s rs1).toNat : Int) - ((getReg s rs2).toNat : Int)) % 2 ^ 32)

/-- `and`, `or`, `xor`, encoding and effect, bit by bit (R103, R104, R105). -/
def Obligations.BitwiseResults : Prop :=
  DecodesTo 0xFE00707F#32 0x00007033#32 (buildR .and) ∧ DecodesTo 0xFE00707F#32 0x00006033#32 (buildR .or) ∧
  DecodesTo 0xFE00707F#32 0x00004033#32 (buildR .xor) ∧
  ∀ (rd rs1 rs2 : RegNum) (s : State),
    (∃ t v, exec (.and rd rs1 rs2) s = .next t ∧ Computes s rd v t ∧
      ∀ k, k < 32 → v.getLsbD k = ((getReg s rs1).getLsbD k && (getReg s rs2).getLsbD k)) ∧
    (∃ t v, exec (.or rd rs1 rs2) s = .next t ∧ Computes s rd v t ∧
      ∀ k, k < 32 → v.getLsbD k = ((getReg s rs1).getLsbD k || (getReg s rs2).getLsbD k)) ∧
    (∃ t v, exec (.xor rd rs1 rs2) s = .next t ∧ Computes s rd v t ∧
      ∀ k, k < 32 → v.getLsbD k = ((getReg s rs1).getLsbD k ^^ (getReg s rs2).getLsbD k))

/-- `sll`, `srl`, `sra`: the amount is `x[rs2]` modulo 32, its low five bits, which is the spec's decision D10 (R106 to
R108, log 15); the arithmetic shift rounds toward minus infinity. -/
def Obligations.RegisterShiftResults : Prop :=
  DecodesTo 0xFE00707F#32 0x00001033#32 (buildR .sll) ∧ DecodesTo 0xFE00707F#32 0x00005033#32 (buildR .srl) ∧
  DecodesTo 0xFE00707F#32 0x40005033#32 (buildR .sra) ∧
  ∀ (rd rs1 rs2 : RegNum) (s : State),
    (∃ t v, exec (.sll rd rs1 rs2) s = .next t ∧ Computes s rd v t ∧
      v.toNat = (getReg s rs1).toNat * 2 ^ ((getReg s rs2).toNat % 32) % 2 ^ 32) ∧
    (∃ t v, exec (.srl rd rs1 rs2) s = .next t ∧ Computes s rd v t ∧
      v.toNat = (getReg s rs1).toNat / 2 ^ ((getReg s rs2).toNat % 32)) ∧
    (∃ t v, exec (.sra rd rs1 rs2) s = .next t ∧ Computes s rd v t ∧
      v.toInt = (getReg s rs1).toInt / 2 ^ ((getReg s rs2).toNat % 32))

/-- `slt`: 1 if the first operand is less as a signed number, else 0 (R109, which marks the signedness as derived). -/
def Obligations.SetLessThanResult : Prop :=
  DecodesTo 0xFE00707F#32 0x00002033#32 (buildR .slt) ∧
  ∀ (rd rs1 rs2 : RegNum) (s : State),
    ∃ t v, exec (.slt rd rs1 rs2) s = .next t ∧ Computes s rd v t ∧
      v.toNat = if (getReg s rs1).toInt < (getReg s rs2).toInt then 1 else 0

/-- `sltu`: 1 if the first operand is less as an unsigned number, else 0 (R110). -/
def Obligations.SetLessThanUnsignedResult : Prop :=
  DecodesTo 0xFE00707F#32 0x00003033#32 (buildR .sltu) ∧
  ∀ (rd rs1 rs2 : RegNum) (s : State),
    ∃ t v, exec (.sltu rd rs1 rs2) s = .next t ∧ Computes s rd v t ∧
      v.toNat = if (getReg s rs1).toNat < (getReg s rs2).toNat then 1 else 0

/-- `addi`: the sum with the immediate read as -2048 to 2047, modulo 2^32 (R111; the signed reading is the
spec's decision D11, log 16). -/
def Obligations.AddImmediateResult : Prop :=
  DecodesTo 0x0000707F#32 0x00000013#32 (buildI .addi) ∧
  ∀ (rd rs1 : RegNum) (imm : BitVec 12) (s : State),
    ∃ t v, exec (.addi rd rs1 imm) s = .next t ∧ Computes s rd v t ∧
      (v.toNat : Int) = (((getReg s rs1).toNat : Int) + imm.toInt) % 2 ^ 32

/-- `andi`, `ori`, `xori`: bit by bit with the immediate, whose bit 11 stands for bits 31:12 too (R112, R113, R114;
the extension is the spec's decision D11, log 16). -/
def Obligations.LogicalImmediateResults : Prop :=
  DecodesTo 0x0000707F#32 0x00007013#32 (buildI .andi) ∧ DecodesTo 0x0000707F#32 0x00006013#32 (buildI .ori) ∧
  DecodesTo 0x0000707F#32 0x00004013#32 (buildI .xori) ∧
  ∀ (rd rs1 : RegNum) (imm : BitVec 12) (s : State),
    (∃ t v, exec (.andi rd rs1 imm) s = .next t ∧ Computes s rd v t ∧
      ∀ k, k < 32 → v.getLsbD k = ((getReg s rs1).getLsbD k && imm.getLsbD (min k 11))) ∧
    (∃ t v, exec (.ori rd rs1 imm) s = .next t ∧ Computes s rd v t ∧
      ∀ k, k < 32 → v.getLsbD k = ((getReg s rs1).getLsbD k || imm.getLsbD (min k 11))) ∧
    (∃ t v, exec (.xori rd rs1 imm) s = .next t ∧ Computes s rd v t ∧
      ∀ k, k < 32 → v.getLsbD k = ((getReg s rs1).getLsbD k ^^ imm.getLsbD (min k 11)))

/-- `slli`, `srli`, `srai` by 0 to 31 (R115, R116, R117); the same opcode and funct3 with another funct7 is illegal, so no
larger amount can be encoded. -/
def Obligations.ShiftImmediateResults : Prop :=
  DecodesTo 0xFE00707F#32 0x00001013#32 (buildShift .slli) ∧
  DecodesTo 0xFE00707F#32 0x00005013#32 (buildShift .srli) ∧
  DecodesTo 0xFE00707F#32 0x40005013#32 (buildShift .srai) ∧
  (∀ (hasMul : Bool) (w : Word), opcodeOf w = 0x13#7 →
    (funct3Of w = 1#3 → funct7Of w ≠ 0x00#7 → decodeWord hasMul w = .error (.illegalInstruction w)) ∧
    (funct3Of w = 5#3 → funct7Of w ≠ 0x00#7 → funct7Of w ≠ 0x20#7 →
      decodeWord hasMul w = .error (.illegalInstruction w))) ∧
  ∀ (rd rs1 : RegNum) (shamt : BitVec 5) (s : State),
    (∃ t v, exec (.slli rd rs1 shamt) s = .next t ∧ Computes s rd v t ∧
      v.toNat = (getReg s rs1).toNat * 2 ^ shamt.toNat % 2 ^ 32) ∧
    (∃ t v, exec (.srli rd rs1 shamt) s = .next t ∧ Computes s rd v t ∧
      v.toNat = (getReg s rs1).toNat / 2 ^ shamt.toNat) ∧
    (∃ t v, exec (.srai rd rs1 shamt) s = .next t ∧ Computes s rd v t ∧
      v.toInt = (getReg s rs1).toInt / 2 ^ shamt.toNat)

/-- `slti`: signed comparison with the immediate read as -2048 to 2047 (R118; the signed reading of the
immediate is the spec's decision D11, log 16). -/
def Obligations.SetLessThanImmediateResult : Prop :=
  DecodesTo 0x0000707F#32 0x00002013#32 (buildI .slti) ∧
  ∀ (rd rs1 : RegNum) (imm : BitVec 12) (s : State),
    ∃ t v, exec (.slti rd rs1 imm) s = .next t ∧ Computes s rd v t ∧
      v.toNat = if (getReg s rs1).toInt < imm.toInt then 1 else 0

/-- `sltiu`: unsigned comparison with the immediate, sign-extended first, which is the spec's decision D11 (R119,
log 16). -/
def Obligations.SetLessThanImmediateUnsignedResult : Prop :=
  DecodesTo 0x0000707F#32 0x00003013#32 (buildI .sltiu) ∧
  ∀ (rd rs1 : RegNum) (imm : BitVec 12) (s : State),
    ∃ t v, exec (.sltiu rd rs1 imm) s = .next t ∧ Computes s rd v t ∧
      v.toNat = if ((getReg s rs1).toNat : Int) < imm.toInt % 2 ^ 32 then 1 else 0

/-- `mul`: the low 32 bits of the product, the same whether the operands are read as unsigned or as signed (R181; taking
the low half is the spec's decision D15, log 14). -/
def Obligations.MultiplyResult : Prop :=
  ∀ (rd rs1 rs2 : RegNum) (s : State),
    ∃ t v, exec (.mul rd rs1 rs2) s = .next t ∧ Computes s rd v t ∧
      v.toNat = (getReg s rs1).toNat * (getReg s rs2).toNat % 2 ^ 32 ∧
      (v.toInt - (getReg s rs1).toInt * (getReg s rs2).toInt) % 2 ^ 32 = 0

/-! ## Loads and stores -/

/-- The five loads at an aligned address inside `MEM_VALID`: the little-endian bytes there, widened by sign or by zeros (R131
to R135; the byte order, the wrap of the address and the reading of the immediate are the spec's decisions D1, D5, D11,
log 12, 16, 17). -/
def Obligations.LoadResults : Prop :=
  DecodesTo 0x0000707F#32 0x00000003#32 (buildI .lb) ∧ DecodesTo 0x0000707F#32 0x00004003#32 (buildI .lbu) ∧
  DecodesTo 0x0000707F#32 0x00001003#32 (buildI .lh) ∧ DecodesTo 0x0000707F#32 0x00005003#32 (buildI .lhu) ∧
  DecodesTo 0x0000707F#32 0x00002003#32 (buildI .lw) ∧
  ∀ (rd rs1 : RegNum) (imm : BitVec 12) (s : State) (a : Word), a = getReg s rs1 + BitVec.ofInt 32 imm.toInt →
    (validAddr s.cfg a = true →
      (∃ t v, exec (.lb rd rs1 imm) s = .next t ∧ Computes s rd v t ∧ v.toInt = (readByte s a).toInt) ∧
      (∃ t v, exec (.lbu rd rs1 imm) s = .next t ∧ Computes s rd v t ∧ v.toNat = (readByte s a).toNat)) ∧
    (a.toNat % 2 = 0 → validAddr s.cfg a = true → validAddr s.cfg (a + 1#32) = true →
      (∃ t v, exec (.lh rd rs1 imm) s = .next t ∧ Computes s rd v t ∧
        v.toInt = (readByte s (a + 1#32)).toInt * 256 + ((readByte s a).toNat : Int)) ∧
      (∃ t v, exec (.lhu rd rs1 imm) s = .next t ∧ Computes s rd v t ∧
        v.toNat = (readByte s (a + 1#32)).toNat * 256 + (readByte s a).toNat)) ∧
    (a.toNat % 4 = 0 → (∀ k, k < 4 → validAddr s.cfg (a + BitVec.ofNat 32 k) = true) →
      ∃ t v, exec (.lw rd rs1 imm) s = .next t ∧ Computes s rd v t ∧
        ∀ k, k < 4 → v.extractLsb' (8 * k) 8 = readByte s (a + BitVec.ofNat 32 k))

/-- When a load raises, and with what (R139, R214, R216, R223; decisions D2, D4, D18): misaligned first, unless
`MISALIGNED_DATA_OK`; then a byte outside `MEM_VALID`. A load to `x0` raises alike. -/
def Obligations.LoadTraps : Prop :=
  ∀ (rd rs1 : RegNum) (imm : BitVec 12) (s : State) (a : Word), a = loadAddr s rs1 imm →
    (validAddr s.cfg a = false →
      exec (.lb rd rs1 imm) s = raise (.loadAccessFault a) s ∧
      exec (.lbu rd rs1 imm) s = raise (.loadAccessFault a) s) ∧
    (a.toNat % 2 ≠ 0 → s.cfg.misalignedDataOk = false →
      exec (.lh rd rs1 imm) s = raise (.loadAddressMisaligned a) s ∧
      exec (.lhu rd rs1 imm) s = raise (.loadAddressMisaligned a) s) ∧
    (a.toNat % 4 ≠ 0 → s.cfg.misalignedDataOk = false →
      exec (.lw rd rs1 imm) s = raise (.loadAddressMisaligned a) s) ∧
    ((a.toNat % 2 = 0 ∨ s.cfg.misalignedDataOk = true) →
      (∃ k, k < 2 ∧ validAddr s.cfg (a + BitVec.ofNat 32 k) = false) →
      exec (.lh rd rs1 imm) s = raise (.loadAccessFault a) s ∧
      exec (.lhu rd rs1 imm) s = raise (.loadAccessFault a) s) ∧
    ((a.toNat % 4 = 0 ∨ s.cfg.misalignedDataOk = true) →
      (∃ k, k < 4 ∧ validAddr s.cfg (a + BitVec.ofNat 32 k) = false) →
      exec (.lw rd rs1 imm) s = raise (.loadAccessFault a) s)

/-- The three stores at an aligned address inside `MEM_VALID`: the low 1, 2 or 4 bytes of `x[rs2]` at `addr` upward,
least significant first, every other byte and every register as before (R136 to R138; decisions D1, D5, D11, log 12, 16,
17). -/
def Obligations.StoreResults : Prop :=
  DecodesTo 0x0000707F#32 0x00000023#32 (buildS .sb) ∧ DecodesTo 0x0000707F#32 0x00001023#32 (buildS .sh) ∧
  DecodesTo 0x0000707F#32 0x00002023#32 (buildS .sw) ∧
  ∀ (rs1 rs2 : RegNum) (imm : BitVec 12) (s : State) (a : Word), a = getReg s rs1 + BitVec.ofInt 32 imm.toInt →
    (validAddr s.cfg a = true → ∃ t, exec (.sb rs1 rs2 imm) s = .next t ∧ Stores s a 1 (getReg s rs2) t) ∧
    (a.toNat % 2 = 0 → validAddr s.cfg a = true → validAddr s.cfg (a + 1#32) = true →
      ∃ t, exec (.sh rs1 rs2 imm) s = .next t ∧ Stores s a 2 (getReg s rs2) t) ∧
    (a.toNat % 4 = 0 → (∀ k, k < 4 → validAddr s.cfg (a + BitVec.ofNat 32 k) = true) →
      ∃ t, exec (.sw rs1 rs2 imm) s = .next t ∧ Stores s a 4 (getReg s rs2) t)

/-- When a store raises, and with what (R139, R215, R217, R223; decisions D2, D4, D18): no byte is written, not even those
inside `MEM_VALID`. -/
def Obligations.StoreTraps : Prop :=
  ∀ (rs1 rs2 : RegNum) (imm : BitVec 12) (s : State) (a : Word), a = storeAddr s rs1 imm →
    (validAddr s.cfg a = false → exec (.sb rs1 rs2 imm) s = raise (.storeAccessFault a) s) ∧
    (a.toNat % 2 ≠ 0 → s.cfg.misalignedDataOk = false →
      exec (.sh rs1 rs2 imm) s = raise (.storeAddressMisaligned a) s) ∧
    (a.toNat % 4 ≠ 0 → s.cfg.misalignedDataOk = false →
      exec (.sw rs1 rs2 imm) s = raise (.storeAddressMisaligned a) s) ∧
    ((a.toNat % 2 = 0 ∨ s.cfg.misalignedDataOk = true) →
      (∃ k, k < 2 ∧ validAddr s.cfg (a + BitVec.ofNat 32 k) = false) →
      exec (.sh rs1 rs2 imm) s = raise (.storeAccessFault a) s) ∧
    ((a.toNat % 4 = 0 ∨ s.cfg.misalignedDataOk = true) →
      (∃ k, k < 4 ∧ validAddr s.cfg (a + BitVec.ofNat 32 k) = false) →
      exec (.sw rs1 rs2 imm) s = raise (.storeAccessFault a) s)

/-- With `MISALIGNED_DATA_OK` a half-word or word access at any address whose bytes are in `MEM_VALID` is performed byte
by byte, addresses wrapping (R48, R55; decisions D2, D5). -/
def Obligations.MisalignedAccessesPerformed : Prop :=
  ∀ (r rs1 : RegNum) (imm : BitVec 12) (s : State), s.cfg.misalignedDataOk = true →
    ((∀ k, k < 2 → validAddr s.cfg (loadAddr s rs1 imm + BitVec.ofNat 32 k) = true) →
      (∃ t v, exec (.lh r rs1 imm) s = .next t ∧ Computes s r v t ∧
        v = (readByte s (loadAddr s rs1 imm + 1#32) ++ readByte s (loadAddr s rs1 imm)).signExtend 32) ∧
      (∃ t v, exec (.lhu r rs1 imm) s = .next t ∧ Computes s r v t ∧
        v = (readByte s (loadAddr s rs1 imm + 1#32) ++ readByte s (loadAddr s rs1 imm)).setWidth 32)) ∧
    ((∀ k, k < 4 → validAddr s.cfg (loadAddr s rs1 imm + BitVec.ofNat 32 k) = true) →
      ∃ t v, exec (.lw r rs1 imm) s = .next t ∧ Computes s r v t ∧
        ∀ k, k < 4 → v.extractLsb' (8 * k) 8 = readByte s (loadAddr s rs1 imm + BitVec.ofNat 32 k)) ∧
    ((∀ k, k < 2 → validAddr s.cfg (storeAddr s rs1 imm + BitVec.ofNat 32 k) = true) →
      ∃ t, exec (.sh rs1 r imm) s = .next t ∧ Stores s (storeAddr s rs1 imm) 2 (getReg s r) t) ∧
    ((∀ k, k < 4 → validAddr s.cfg (storeAddr s rs1 imm + BitVec.ofNat 32 k) = true) →
      ∃ t, exec (.sw rs1 r imm) s = .next t ∧ Stores s (storeAddr s rs1 imm) 4 (getReg s r) t)

/-- A store that completes, followed by the load of the same width from the same address, gives the stored value back: all
of it for a word, its low bytes for the others (R47, R59). -/
def Obligations.LoadAfterStoreReturnsTheValue : Prop :=
  ∀ (rd rs1 rs2 : RegNum) (imm : BitVec 12) (s t : State), t.answered = s.answered →
    (exec (.sw rs1 rs2 imm) s = .next t →
      ∃ u, exec (.lw rd rs1 imm) t = .next u ∧ Computes t rd (getReg s rs2) u) ∧
    (exec (.sh rs1 rs2 imm) s = .next t →
      ∃ u v, exec (.lhu rd rs1 imm) t = .next u ∧ Computes t rd v u ∧ v.toNat = (getReg s rs2).toNat % 2 ^ 16) ∧
    (exec (.sb rs1 rs2 imm) s = .next t →
      ∃ u v, exec (.lbu rd rs1 imm) t = .next u ∧ Computes t rd v u ∧ v.toNat = (getReg s rs2).toNat % 2 ^ 8)

/-- Mixed widths over one word (R47, which marks it as derived): after a word is stored at `a`, its bytes and half-words
read as parts of it, and a byte stored at `a + 1` on top changes only bits 15:8 of the word. -/
def Obligations.MixedWidthsSeeEachOther : Prop :=
  ∀ (s : State) (a v : Word) (b : Byte),
    let t := storeBytes s .word a v
    (∀ k, k < 4 → (t.mem.read (a + BitVec.ofNat 32 k) .byte).toNat = v.toNat / 2 ^ (8 * k) % 2 ^ 8) ∧
    (t.mem.read a .half).toNat = v.toNat % 2 ^ 16 ∧
    (t.mem.read (a + 2#32) .half).toNat = v.toNat / 2 ^ 16 ∧
    ((storeBytes t .byte (a + 1#32) b).mem.read a .word).toNat =
      v.toNat / 2 ^ 16 * 2 ^ 16 + b.toNat * 2 ^ 8 + v.toNat % 2 ^ 8

/-! ## Control -/

/-- The six branches with their conditions (R151 to R156). Not taken: on to `pc + 4`, whatever the offset. Taken: to `pc`
plus the offset read as a signed number, modulo 2^32, when that is a multiple of 4; otherwise the branch itself raises
`InstructionAddressMisaligned` with that target. Nothing else changes. The signed reading, the wrap and the raise are the
spec's decisions D11, D5, D3 (R82, R150, R159; log 16, 17, 22). -/
def Obligations.BranchResults : Prop :=
  DecodesTo 0x0000707F#32 0x00000063#32 (buildB .beq) ∧ DecodesTo 0x0000707F#32 0x00001063#32 (buildB .bne) ∧
  DecodesTo 0x0000707F#32 0x00004063#32 (buildB .blt) ∧ DecodesTo 0x0000707F#32 0x00006063#32 (buildB .bltu) ∧
  DecodesTo 0x0000707F#32 0x00005063#32 (buildB .bge) ∧ DecodesTo 0x0000707F#32 0x00007063#32 (buildB .bgeu) ∧
  ∀ (rs1 rs2 : RegNum) (offset : BitVec 13) (s : State) (i : Instr) (taken : Prop) (target : Word),
    target = s.pc + BitVec.ofInt 32 offset.toInt →
    ((i = .beq rs1 rs2 offset ∧ (taken ↔ getReg s rs1 = getReg s rs2)) ∨
      (i = .bne rs1 rs2 offset ∧ (taken ↔ getReg s rs1 ≠ getReg s rs2)) ∨
      (i = .blt rs1 rs2 offset ∧ (taken ↔ (getReg s rs1).toInt < (getReg s rs2).toInt)) ∨
      (i = .bltu rs1 rs2 offset ∧ (taken ↔ (getReg s rs1).toNat < (getReg s rs2).toNat)) ∨
      (i = .bge rs1 rs2 offset ∧ (taken ↔ (getReg s rs2).toInt ≤ (getReg s rs1).toInt)) ∨
      (i = .bgeu rs1 rs2 offset ∧ (taken ↔ (getReg s rs2).toNat ≤ (getReg s rs1).toNat))) →
    (¬taken → ∃ t, exec i s = .next t ∧ GoesTo s (s.pc + 4#32) t) ∧
    (taken → target.toNat % 4 = 0 → ∃ t, exec i s = .next t ∧ GoesTo s target t) ∧
    (taken → target.toNat % 4 ≠ 0 → exec i s = raise (.instructionAddressMisaligned target) s)

/-- `jal`: to `pc` plus the offset read as a signed number, modulo 2^32, with `pc + 4` in `rd`; a target that is not a
multiple of 4 raises and writes no link (R157; the signed reading, the wrap and the raise are the spec's decisions D11,
D5, D3, log 16, 17, 22). -/
def Obligations.JumpAndLinkResult : Prop :=
  DecodesTo 0x0000007F#32 0x0000006F#32 (buildJ .jal) ∧
  ∀ (rd : RegNum) (offset : BitVec 21) (s : State) (target : Word), target = s.pc + BitVec.ofInt 32 offset.toInt →
    (target.toNat % 4 = 0 → ∃ t, exec (.jal rd offset) s = .next t ∧ Links s rd target t) ∧
    (target.toNat % 4 ≠ 0 → exec (.jal rd offset) s = raise (.instructionAddressMisaligned target) s)

/-- `jalr`: to the old `x[rs1]` plus the immediate, even where `rd` is `rs1` (R158; decisions D9, D12). Bit 0 of the sum is
cleared under `JALR_CLEAR_BIT0` and kept, to raise, without it (log 7). -/
def Obligations.JumpAndLinkRegisterResult : Prop :=
  DecodesTo 0x0000707F#32 0x00000067#32 (buildI .jalr) ∧
  ∀ (rd rs1 : RegNum) (imm : BitVec 12) (s : State) (sum target : Word),
    sum = getReg s rs1 + BitVec.ofInt 32 imm.toInt →
    target.toNat = (if s.cfg.jalrClearBit0 then sum.toNat / 2 * 2 else sum.toNat) →
    (target.toNat % 4 = 0 → ∃ t, exec (.jalr rd rs1 imm) s = .next t ∧ Links s rd target t) ∧
    (target.toNat % 4 ≠ 0 → exec (.jalr rd rs1 imm) s = raise (.instructionAddressMisaligned target) s)

/-! ## Upper immediates and the environment -/

/-- `lui`: the 20-bit operand in bits 31:12, zeros below (R171). -/
def Obligations.LoadUpperImmediateResult : Prop :=
  DecodesTo 0x0000007F#32 0x00000037#32 (buildU .lui) ∧
  ∀ (rd : RegNum) (immu : BitVec 20) (s : State),
    ∃ t v, exec (.lui rd immu) s = .next t ∧ Computes s rd v t ∧ v.toNat = immu.toNat * 4096

/-- `auipc`: the address of the `auipc` itself plus the shifted operand, modulo 2^32 (R170; the wrap is the spec's decision
D5). -/
def Obligations.AddUpperImmediateToPcResult : Prop :=
  DecodesTo 0x0000007F#32 0x00000017#32 (buildU .auipc) ∧
  ∀ (rd : RegNum) (immu : BitVec 20) (s : State),
    ∃ t v, exec (.auipc rd immu) s = .next t ∧ Computes s rd v t ∧
      v.toNat = (s.pc.toNat + immu.toNat * 4096) % 2 ^ 32

/-- `ecall` and `ebreak` (R172, R173; decisions D13, D16): their whole effect is the trap, `EnvironmentCall(pc)` and
`Breakpoint(pc)`. Where the environment supplies a state the instruction goes on there; where it answers `Halt` the
run stops, under that name. The two words are conflict C1's, the reverse of what the card prints (log 13); how an
environment stands in `State` is the model's choice (log 9). -/
def Obligations.EnvironmentInstructionsTrap : Prop :=
  DecodesTo 0xFFFFFFFF#32 0x00000073#32 (fun _ => .ecall) ∧ DecodesTo 0xFFFFFFFF#32 0x00100073#32 (fun _ => .ebreak) ∧
  (∀ (i : Instr) (e : Fault) (s : State),
    ((i = .ecall ∧ e = .environmentCall s.pc) ∨ (i = .ebreak ∧ e = .breakpoint s.pc)) →
    (∀ a : Resumption, answerTo s e = some a →
      ∃ t, exec i s = .next t ∧ t.regs = a.regs ∧ t.pc = a.pc ∧ t.mem = a.mem ∧
        (∀ k, k ∈ t.written ↔ k ∈ s.written ∨ k ∈ a.marked) ∧ t.cfg = s.cfg) ∧
    (answerTo s e = none → exec i s = .fault e))

/-- What any trap does (R221, R225; decision D16, and log 9 for the forms an environment has): under `Halt` it
stops with the exception's name; otherwise the machine goes on at exactly the state the environment supplied, which it does
not constrain, and only the addresses the environment's user marks enter `Written`. One more trap is then answered. -/
def Obligations.TrapGoesToTheEnvironment : Prop :=
  ∀ (e : Fault) (s : State),
    (answerTo s e = none → raise e s = .fault e) ∧
    (∀ a : Resumption, answerTo s e = some a →
      ∃ t, raise e s = .next t ∧ t.regs = a.regs ∧ t.pc = a.pc ∧ t.mem = a.mem ∧
        (∀ k, k ∈ t.written ↔ k ∈ s.written ∨ k ∈ a.marked) ∧ t.cfg = s.cfg ∧ t.answered = s.answered + 1)

/-- The forms of `ENV` (R8, R221, R225; the forms are the model's choice, log 9). The default halts on every cause. A
written-out sequence answers the first traps of a run. A table answers by cause and state alone, at every trap alike; the
one that skips each `ecall` and halts on the rest does so without end, since the step leaves it as it was. Of an
uninterpreted one the answer is `openEnv`'s, of cause, information and state. -/
def Obligations.EnvironmentForms : Prop :=
  (∀ (s : State) (e : Fault), s.cfg.env = .halt → answerTo s e = none) ∧
  (∀ (s : State) (e : Fault) (l : List Resumption), s.cfg.env = .script l → answerTo s e = l[s.answered]?) ∧
  (∀ (s u : State) (e : Fault) (table : List Service), s.cfg.env = .services table → u.cfg.env = .services table →
    s.regs = u.regs → s.pc = u.pc → s.mem = u.mem → answerTo s e = answerTo u e) ∧
  (∀ s : State, s.cfg.env = .services [⟨.environmentCall, [], 4#32, [], []⟩] →
    (∃ t, exec .ecall s = .next t ∧ sameRegs s t ∧ sameMemory s t ∧ t.pc = s.pc + 4#32 ∧ t.written = s.written ∧
      t.cfg = s.cfg) ∧
    (∀ e : Fault, e.cause ≠ .environmentCall → raise e s = .fault e)) ∧
  (∀ (s : State) (e : Fault) (k : Nat), s.cfg.env = .function k →
    answerTo s e = openEnv k s.answered e.cause e.info s.regs s.pc s.mem)

/-! ## Rules about every instruction -/

/-- Traps are precise, and only the exceptions R220's table gives an instruction are raised by it (R222, R220, which rest on
decisions D16, D17): every instruction either completes, the environment not consulted, or is exactly one of those traps
taken on the unchanged state. It never refuses. -/
def Obligations.InstructionCompletesOrTraps : Prop :=
  ∀ (i : Instr) (s : State),
    (∃ t, exec i s = .next t ∧ t.answered = s.answered) ∨ (∃ e, e ∈ canRaise s i ∧ exec i s = raise e s)

/-- Which registers an instruction reads and writes (R24). It writes none but its `rd`: every other register reads as before.
It reads none but those of the table: from two states that agree on them and on all that is not a register it completes
alike in `rd`, `pc`, memory and all else, or raises the same exception (whose answer may see every register). -/
def Obligations.RegistersReadAndWritten : Prop :=
  (∀ (i : Instr) (s t : State), exec i s = .next t → t.answered = s.answered →
    ∀ r, dest i ≠ some r → getReg t r = getReg s r) ∧
  (∀ (i : Instr) (s u : State), (∀ r, r ∈ reads i → getReg s r = getReg u r) →
    s.pc = u.pc → s.mem = u.mem → s.written = u.written → s.cfg = u.cfg → AgreeOn i s u)

/-- Only `sb`, `sh`, `sw` touch memory, and only the bytes at their address (R41, R50): when an instruction completes, every
byte outside the addresses it stores to reads as before, and exactly those addresses enter `Written`. -/
def Obligations.OnlyStoresChangeMemory : Prop :=
  ∀ (i : Instr) (s t : State), exec i s = .next t → t.answered = s.answered →
    (∀ a, a ∉ storedTo s i → readByte t a = readByte s a) ∧
    (∀ k, k ∈ t.written ↔ k ∈ s.written ∨ ∃ a ∈ storedTo s i, k = a.toNat) ∧
    t.cfg = s.cfg

/-- How each instruction advances `pc` when it completes: the table of R27, `jalr`'s bit 0 by R158. -/
def Obligations.NextPcOfEveryInstruction : Prop :=
  ∀ (i : Instr) (s t : State), exec i s = .next t → t.answered = s.answered → t.pc = nextPc s i

/-- `pc` stays a multiple of 4 (R28, which marks it as derived): every step gives such a `pc`, provided the states the
environment would supply have one. -/
def Obligations.PcStaysAligned : Prop :=
  ∀ s t : State, (∀ e a, answerTo s e = some a → a.pc.toNat % 4 = 0) → step s = .next t → t.pc.toNat % 4 = 0

/-- The invariant is kept by every step, from every state that meets it: `pc` aligned, memory canonical and inside
`MEM_VALID`, `Written` canonical, the parameters, `ENV` among them, admissible (R28, R37, R43; the
canonical form is the model's, log 4). -/
def Obligations.StepKeepsTheInvariant : Prop :=
  ∀ s t : State, s.Inv → step s = .next t → t.Inv

/-- The reset state meets the invariant under every admissible setting of the parameters, an answering environment
included, and every contents of `x1` to `x31`; the setting the host runs is one (its values are the model's choice,
log 1 to 7). -/
def Obligations.ResetMeetsTheInvariant : Prop :=
  (∀ (cfg : Config) (x : Regs), ConfigOk cfg → (State.boot cfg x).Inv) ∧ State.reset.Inv

/-- The first step after reset (R240, R242, decision D22): where `RESET_PC` is no multiple of 4 or one of its four bytes is
outside `MEM_VALID` it raises `InstructionAccessFault`; otherwise it fetches the little-endian word `MEM_INIT` holds
there. -/
def Obligations.FirstStepAfterReset : Prop :=
  ∀ (cfg : Config) (x : Regs),
    ((cfg.resetPc.toNat % 4 ≠ 0 ∨ ∃ k, k < 4 ∧ validAddr cfg (cfg.resetPc + BitVec.ofNat 32 k) = false) →
      step (State.boot cfg x) = raise (.instructionAccessFault cfg.resetPc) (State.boot cfg x)) ∧
    (cfg.resetPc.toNat % 4 = 0 → (∀ k, k < 4 → validAddr cfg (cfg.resetPc + BitVec.ofNat 32 k) = true) →
      fetch (State.boot cfg x) = .word
        (Memory.byte cfg.memInit (cfg.resetPc + 3#32).toNat ++ Memory.byte cfg.memInit (cfg.resetPc + 2#32).toNat ++
          Memory.byte cfg.memInit (cfg.resetPc + 1#32).toNat ++ Memory.byte cfg.memInit cfg.resetPc.toNat))

/-- What reset leaves (R35 to R38, decision D21), for every setting and every contents of `x1` to `x31`: `x0` reads 0, `pc` is
`RESET_PC`, every byte is `MEM_INIT`'s, `Written` is empty. -/
def Obligations.ResetLeaves : Prop :=
  ∀ (cfg : Config) (x : Regs),
    getReg (State.boot cfg x) 0#5 = 0#32 ∧ (State.boot cfg x).pc = cfg.resetPc ∧
    (∀ a : Word, readByte (State.boot cfg x) a = Memory.byte cfg.memInit a.toNat) ∧
    (State.boot cfg x).written = [] ∧
    (∀ (r : RegNum) (h : 0 < r.toNat), getReg (State.boot cfg x) r = x[r.toNat - 1]'(by have := r.isLt; omega))

/-- `x0` reads 0 in every state and a write to it leaves no trace (R22, which marks the discarded write as derived). -/
def Obligations.RegisterZeroIsConstant : Prop :=
  ∀ (s : State) (v : Word), getReg s 0#5 = 0#32 ∧ setReg s 0#5 v = s

/-- No step changes a parameter of R8 (log 8). -/
def Obligations.ParametersNeverChange : Prop :=
  ∀ s t : State, step s = .next t → t.cfg = s.cfg

/-- `Written` records every store (R45, R62, R59): it only grows, every address a completed instruction stores to is in it
after the step, the byte stored being a new one or the one already there, and a byte outside it after a step that consulted
no environment reads as before the step. -/
def Obligations.WrittenRecordsEveryStore : Prop :=
  ∀ s t : State, step s = .next t →
    (∀ k, k ∈ s.written → k ∈ t.written) ∧
    (∀ (inst : Word) (i : Instr), fetch s = .word inst → decodeWord s.cfg.hasMul inst = .ok i →
      t.answered = s.answered → ∀ a, a ∈ storedTo s i → a.toNat ∈ t.written) ∧
    (t.answered = s.answered → ∀ a : Word, a.toNat ∉ t.written → readByte t a = readByte s a)

/-- With `MEM_VALID` the whole space the three access faults cannot occur, whatever the environment (R54, decision D4): a
fetch at a `pc` that is a multiple of 4, as it always is (R28), gives none; an instruction completes unasked or raises an
exception that is none; and no step stops with one. -/
def Obligations.WholeMemoryNeverAccessFaults : Prop :=
  ∀ s : State, (∀ a : Word, validAddr s.cfg a = true) →
    (s.pc.toNat % 4 = 0 → fetch s ≠ .accessFault) ∧
    (∀ i : Instr, (∃ t, exec i s = .next t ∧ t.answered = s.answered) ∨
      ∃ e, e ∈ canRaise s i ∧ e.cause ≠ .loadAccessFault ∧ e.cause ≠ .storeAccessFault ∧ exec i s = raise e s) ∧
    ∀ a : Word, (s.pc.toNat % 4 = 0 → step s ≠ .fault (.instructionAccessFault a)) ∧
      step s ≠ .fault (.loadAccessFault a) ∧ step s ≠ .fault (.storeAccessFault a)

/-- Canonical memories that read alike are equal, so states can be compared (the model's form, log 4). -/
def Obligations.EqualReadsAreEqualMemories : Prop :=
  ∀ m n : Memory, Memory.wf m = true → Memory.wf n = true →
    (∀ a, a < 2 ^ 32 → Memory.byte m a = Memory.byte n a) → m = n

/-- `pc` wraps (R29, decision D5): at `0xFFFFFFFC` every instruction of R27's first row that completes goes on at 0, a branch
not taken does, and `jal` and `jalr` write the link 0. That `addi` completes there is said too. -/
def Obligations.PcWrapsAtTheTop : Prop :=
  ∀ s : State, s.pc = 0xFFFFFFFC#32 →
    (∀ (i : Instr) (t : State), sequential i = true → exec i s = .next t → t.answered = s.answered → t.pc = 0#32) ∧
    (∀ (rs1 rs2 : RegNum) (offset : BitVec 13), getReg s rs1 ≠ getReg s rs2 →
      ∃ t, exec (.beq rs1 rs2 offset) s = .next t ∧ t.pc = 0#32) ∧
    (∀ (rd rs1 : RegNum) (imm : BitVec 12), ∃ t, exec (.addi rd rs1 imm) s = .next t ∧ t.pc = 0#32) ∧
    (∀ (rd : RegNum) (offset : BitVec 21), rd ≠ 0#5 → (jalTarget s offset).toNat % 4 = 0 →
      ∃ t, exec (.jal rd offset) s = .next t ∧ getReg t rd = 0#32) ∧
    (∀ (rd rs1 : RegNum) (imm : BitVec 12), rd ≠ 0#5 → (jalrTarget s rs1 imm).toNat % 4 = 0 →
      ∃ t, exec (.jalr rd rs1 imm) s = .next t ∧ getReg t rd = 0#32)

/-- How a run ends under `Halt` (R246, decision D24): a fetched `ecall` is the normal end, a fetched `ebreak` a breakpoint, and
any other stop of a step is not final. -/
def Obligations.EndOfRun : Prop :=
  ∀ s : State, (∀ e, answerTo s e = none) →
    (fetch s = .word 0x00000073#32 → endingOf (step s) = some .normal) ∧
    (fetch s = .word 0x00100073#32 → endingOf (step s) = some .breakpoint) ∧
    ((∀ t, step s ≠ .next t) → fetch s ≠ .word 0x00000073#32 → fetch s ≠ .word 0x00100073#32 →
      endingOf (step s) = some .notFinal)

/-! ## Pseudo-instructions -/

/-- `beqz`, `bnez`, `j`, `jal`, `jr`, `ret` (R190 to R194, R201, R202): a label the offset reaches gives the card's
Translation, and its run does what the card's Description says wherever the target it goes to is a multiple of 4; a
`beqz` or `bnez` that is not taken goes on whatever its label. A jump or a taken branch to another target raises with it, the
spec's decision D3 (for `jr` and `ret` said without `JALR_CLEAR_BIT0`; with it `JumpAndLinkRegisterResult` speaks). That
a label can be reached over the end of the space is the model's choice (log 28). -/
def Obligations.PseudoJumpsAndBranches : Prop :=
  ∀ (s : State) (rs1 : RegNum) (label : Word),
    (∀ o : BitVec 13, evenOffset o = true → label = s.pc + BitVec.ofInt 32 o.toInt →
      expand s.pc (.beqz rs1 label) = some [.beq rs1 0#5 o] ∧ expand s.pc (.bnez rs1 label) = some [.bne rs1 0#5 o] ∧
      (label.toNat % 4 = 0 ∨ getReg s rs1 ≠ 0#32 → ∃ t, execAll [.beq rs1 0#5 o] s = .next t ∧
        GoesTo s (if getReg s rs1 = 0#32 then label else s.pc + 4#32) t) ∧
      (label.toNat % 4 = 0 ∨ getReg s rs1 = 0#32 → ∃ t, execAll [.bne rs1 0#5 o] s = .next t ∧
        GoesTo s (if getReg s rs1 ≠ 0#32 then label else s.pc + 4#32) t) ∧
      (label.toNat % 4 ≠ 0 →
        (getReg s rs1 = 0#32 → execAll [.beq rs1 0#5 o] s = raise (.instructionAddressMisaligned label) s) ∧
        (getReg s rs1 ≠ 0#32 → execAll [.bne rs1 0#5 o] s = raise (.instructionAddressMisaligned label) s))) ∧
    (∀ o : BitVec 21, evenOffset o = true → label = s.pc + BitVec.ofInt 32 o.toInt →
      expand s.pc (.j label) = some [.jal 0#5 o] ∧ expand s.pc (.jal label) = some [.jal 1#5 o] ∧
      (label.toNat % 4 = 0 →
        (∃ t, execAll [.jal 0#5 o] s = .next t ∧ GoesTo s label t) ∧
        (∃ t, execAll [.jal 1#5 o] s = .next t ∧ Links s 1#5 label t)) ∧
      (label.toNat % 4 ≠ 0 →
        execAll [.jal 0#5 o] s = raise (.instructionAddressMisaligned label) s ∧
        execAll [.jal 1#5 o] s = raise (.instructionAddressMisaligned label) s)) ∧
    (expand s.pc (.jr rs1) = some [.jalr 0#5 rs1 0#12] ∧ expand s.pc .ret = some [.jalr 0#5 1#5 0#12] ∧
      ∀ r : RegNum,
        ((getReg s r).toNat % 4 = 0 → ∃ t, execAll [.jalr 0#5 r 0#12] s = .next t ∧ GoesTo s (getReg s r) t) ∧
        ((getReg s r).toNat % 4 ≠ 0 → s.cfg.jalrClearBit0 = false →
          execAll [.jalr 0#5 r 0#12] s = raise (.instructionAddressMisaligned (getReg s r)) s))

/-- `mv`, `neg`, `nop`, `not` (R197 to R200): the card's Translation, and that its run does what the card's Description
says. -/
def Obligations.PseudoRegisterOperations : Prop :=
  ∀ (s : State) (rd rs1 : RegNum),
    (expand s.pc (.mv rd rs1) = some [.addi rd rs1 0#12] ∧
      ∃ t, execAll [.addi rd rs1 0#12] s = .next t ∧ Computes s rd (getReg s rs1) t) ∧
    (expand s.pc (.neg rd rs1) = some [.sub rd 0#5 rs1] ∧
      ∃ t v, execAll [.sub rd 0#5 rs1] s = .next t ∧ Computes s rd v t ∧
        (v.toNat : Int) = -((getReg s rs1).toNat : Int) % 2 ^ 32) ∧
    (expand s.pc .nop = some [.addi 0#5 0#5 0#12] ∧ encode (.addi 0#5 0#5 0#12) = 0x00000013#32 ∧
      ∃ t, execAll [.addi 0#5 0#5 0#12] s = .next t ∧ GoesTo s (s.pc + 4#32) t) ∧
    (expand s.pc (.not rd rs1) = some [.xori rd rs1 0xFFF#12] ∧
      ∃ t v, execAll [.xori rd rs1 0xFFF#12] s = .next t ∧ Computes s rd v t ∧
        ∀ k, k < 32 → v.getLsbD k = !(getReg s rs1).getLsbD k)

/-- `li` leaves its constant in `rd`, any 32-bit constant, by one or two instructions, and nothing else changes (R196; the
expansion is the spec's decision D26, log 28). -/
def Obligations.LoadImmediatePseudo : Prop :=
  ∀ (s : State) (rd : RegNum) (imm here : Word),
    ∃ is t, expand here (.li rd imm) = some is ∧ execAll is s = .next t ∧ (is.length = 1 ∨ is.length = 2) ∧
      (rd ≠ 0#5 → getReg t rd = imm) ∧ sameRegsBut rd s t ∧ getReg t 0#5 = 0#32 ∧ sameMemory s t ∧ sameOthers s t ∧
      t.pc = s.pc + BitVec.ofNat 32 (4 * is.length)

/-- `la` leaves the label's address in `rd` from wherever it stands, by two instructions, and nothing else changes (R195;
the expansion is the spec's decision D26, log 28). -/
def Obligations.LoadAddressPseudo : Prop :=
  ∀ (s : State) (rd : RegNum) (label : Word),
    ∃ is t, expand s.pc (.la rd label) = some is ∧ execAll is s = .next t ∧ is.length = 2 ∧
      (rd ≠ 0#5 → getReg t rd = label) ∧ sameRegsBut rd s t ∧ getReg t 0#5 = 0#32 ∧ sameMemory s t ∧ sameOthers s t ∧
      t.pc = s.pc + 8#32
end

