-- ==== Sys2Proof/Laws/Environment.lean ====
section
/-! SUPPORT. What each form of `ENV` answers, and which environments are admissible. -/

namespace Sys2Proof.Machine

/-! ## What each form answers -/

theorem answerTo_halt {s : State} (h : s.cfg.env = .halt) (e : Fault) : answerTo s e = none := by
  simp [answerTo, h]

theorem answerTo_script {s : State} {l : List Resumption} (h : s.cfg.env = .script l) (e : Fault) :
    answerTo s e = l[s.answered]? := by simp [answerTo, h]

theorem answerTo_services {s : State} {table : List Service} (h : s.cfg.env = .services table) (e : Fault) :
    answerTo s e = (table.find? (fun v => v.cause == e.cause)).map (serve s) := by simp [answerTo, h]

theorem answerTo_function {s : State} {k : Nat} (h : s.cfg.env = .function k) (e : Fault) :
    answerTo s e = openEnv k s.answered e.cause e.info s.regs s.pc s.mem := by simp [answerTo, h]

/-- The registers a line of a table writes leave memory alone, so its writes to memory are to the trap's memory. -/
theorem serve_mem (s : State) (v : Service) : (serve s v).mem = v.bytes.foldl (fun m c => m.set c.1 c.2) s.mem := rfl

@[simp] theorem serve_pc (s : State) (v : Service) : (serve s v).pc = s.pc + v.pcOffset := rfl
@[simp] theorem serve_marked (s : State) (v : Service) : (serve s v).marked = v.marked := rfl

/-! ## Memories of the machine -/

theorem memoryOk_iff {cfg : Config} {m : Memory} :
    memoryOk cfg m = true ↔ Memory.wf m = true ∧ ∀ c ∈ m, validAddr cfg (BitVec.ofNat 32 c.1) = true := by
  simp [memoryOk, List.all_eq_true]

/-- A byte written at a valid address keeps a memory a memory of the machine. -/
theorem memoryOk_set {cfg : Config} {m : Memory} {a : Nat} (b : Byte) (ha : a < 2 ^ 32)
    (hv : validAddr cfg (BitVec.ofNat 32 a) = true) (h : memoryOk cfg m = true) :
    memoryOk cfg (m.set a b) = true := by
  obtain ⟨hw, hm⟩ := memoryOk_iff.1 h
  refine memoryOk_iff.2 ⟨Memory.wf_set b ha hw, fun c hc => ?_⟩
  rcases Memory.mem_set hc with e | hc
  · rw [e]; exact hv
  · exact hm c hc

/-- Bytes written at valid addresses keep a memory a memory of the machine. -/
theorem memoryOk_foldl_set {cfg : Config} {l : List Host.Cell} {m : Memory}
    (hl : ∀ c ∈ l, c.1 < 2 ^ 32 ∧ validAddr cfg (BitVec.ofNat 32 c.1) = true) (h : memoryOk cfg m = true) :
    memoryOk cfg (l.foldl (fun m c => m.set c.1 c.2) m) = true := by
  induction l generalizing m with
  | nil => exact h
  | cons c rest ih =>
    obtain ⟨ha, hv⟩ := hl c (by simp)
    exact ih (fun d hd => hl d (by simp [hd])) (memoryOk_set c.2 ha hv h)

/-! ## Admissible environments -/

theorem envOk_halt {cfg : Config} (h : cfg.env = .halt) : EnvOk cfg := by
  rintro s e a rfl - - ha
  simp [answerTo_halt h] at ha

theorem envOk_script {cfg : Config} {l : List Resumption} (h : cfg.env = .script l)
    (hl : ∀ a ∈ l, resumptionOk cfg a = true) : EnvOk cfg := by
  rintro s e a rfl - - ha
  rw [answerTo_script h] at ha
  exact hl a (List.mem_of_getElem? ha)

/-- A table whose lines move `pc` by multiples of 4 and write and mark only valid addresses. -/
theorem envOk_services {cfg : Config} {table : List Service} (h : cfg.env = .services table)
    (ht : ∀ v ∈ table, v.pcOffset.toNat % 4 = 0 ∧ (∀ k ∈ v.marked, k < 2 ^ 32) ∧
      ∀ c ∈ v.bytes, c.1 < 2 ^ 32 ∧ validAddr cfg (BitVec.ofNat 32 c.1) = true) : EnvOk cfg := by
  rintro s e a rfl hp hm ha
  rw [answerTo_services h] at ha
  obtain ⟨v, hv, rfl⟩ := Option.map_eq_some_iff.1 ha
  obtain ⟨h4, hk, hb⟩ := ht v (List.mem_of_find?_eq_some hv)
  have h4' : (s.pc + v.pcOffset).toNat % 4 = 0 := by
    have := aligned4_iff.1 hp
    rw [BitVec.toNat_add]; omega
  simp only [resumptionOk, serve_pc, serve_marked, serve_mem, aligned4_iff.2 h4', memoryOk_foldl_set hb hm,
    Bool.true_and, List.all_eq_true, decide_eq_true_eq]
  exact hk

end Sys2Proof.Machine
end

