-- ==== Sys2Proof/Machine/Assembler.lean ====
section
/-! DEFINITION. The card's assembly syntax (`45_assembler_pseudo.md` R185 to R189, R203): a line of text to the
instructions it stands for, and a listing with labels, comments and `.word` to the words it places in memory. Nothing
here is hardware and no step refers to it. -/

namespace Sys2Proof.Machine

/-- What separates tokens: white space, a comma (R185), and the parentheses of `imm(rs1)` (R186). That white space is the
blank and the tab alone, and that a parenthesis separates wherever it stands, is a DESIGN CHOICE (log 28). -/
def isSeparator (c : Char) : Bool := c == ' ' || c == ',' || c == '\t' || c == '(' || c == ')'

/-- Cut a line into tokens, dropping a comment, which `#` starts (R187). The second argument is the token being read,
last character first. A run of separators counts as one, and separators at either end of a line, a comma after the
mnemonic or after the last operand among them, are accepted: DESIGN CHOICE, R185 does not say (log 28). -/
def tokensFrom : List Char → List Char → List String
  | [], cur => if cur.isEmpty then [] else [String.ofList cur.reverse]
  | c :: rest, cur =>
    if c == '#' then (if cur.isEmpty then [] else [String.ofList cur.reverse])
    else if isSeparator c then
      (if cur.isEmpty then tokensFrom rest [] else String.ofList cur.reverse :: tokensFrom rest [])
    else tokensFrom rest (c :: cur)

/-- The tokens of a line (R185). -/
def tokens (line : String) : List String := tokensFrom line.toList []

/-- The value of a digit, decimal or hexadecimal. -/
def digitOf (c : Char) : Option Nat :=
  let n := c.toNat
  if 48 ≤ n ∧ n ≤ 57 then some (n - 48)
  else if 97 ≤ n ∧ n ≤ 102 then some (n - 87)
  else if 65 ≤ n ∧ n ≤ 70 then some (n - 55)
  else none

/-- The number the digits write in a base, continuing from `acc`. -/
def digitsOf (base : Nat) : List Char → Nat → Option Nat
  | [], acc => some acc
  | c :: rest, acc =>
    match digitOf c with
    | some d => if d < base then digitsOf base rest (base * acc + d) else none
    | none => none

/-- An unsigned numeral: decimal, leading zeros allowed, or `0x` with hexadecimal digits of either case. R186 names no
numeral form and R9 speaks of this spec's own text, which has `0b` too: that an operand takes these two forms, no
`0b` or `0X` one, and that a leading zero does not mean octal, is a DESIGN CHOICE (log 28). -/
def naturalOf : List Char → Option Nat
  | [] => none
  | '0' :: 'x' :: d :: rest => digitsOf 16 (d :: rest) 0
  | c :: rest => digitsOf 10 (c :: rest) 0

/-- A numeral with an optional sign, `-` or `+`; R186 shows both on offsets, on every operand is a DESIGN CHOICE
(log 28). -/
def numberOf (t : String) : Option Int :=
  match t.toList with
  | '-' :: rest => (naturalOf rest).map (fun n => -(n : Int))
  | '+' :: rest => (naturalOf rest).map (fun n => (n : Int))
  | cs => (naturalOf cs).map (fun n => (n : Int))

/-- A register, `x0` to `x31` or a convention name (R203); leading zeros in the number are accepted, DESIGN CHOICE
(log 28). -/
def registerOf (t : String) : Option RegNum :=
  match regNames.lookup t with
  | some r => some r
  | none =>
    match t.toList with
    | 'x' :: rest =>
      match digitsOf 10 rest 0 with
      | some n => if n < 32 ∧ rest ≠ [] then some (BitVec.ofNat 5 n) else none
      | none => none
    | _ => none

/-- What labels stand for (R13). -/
abbrev Labels := List (String × Word)

/-- The byte distance a branch or jump operand gives: a numeral is the offset itself (R186), a symbol the distance to
its address (R188). A token that reads as a numeral is one even where a label has that name, and a symbol that no line
defines makes the line no instruction: DESIGN CHOICE (log 28). -/
def offsetOperand (labels : Labels) (here : Word) (t : String) : Option Int :=
  match numberOf t with
  | some v => some v
  | none => (labels.lookup t).map (distance here)

/-- The address a `label` operand of a pseudo-instruction stands for; a numeral is an offset from here (R186). One
beyond a signed 32-bit distance is out of every range and makes the line no instruction: what an assembler does with
such a value R186 leaves open, DESIGN CHOICE (log 28). -/
def labelOperand (labels : Labels) (here : Word) (t : String) : Option Word :=
  match numberOf t with
  | some v => if -2147483648 ≤ v ∧ v ≤ 2147483647 then some (here + BitVec.ofInt 32 v) else none
  | none => labels.lookup t

/-- A 32-bit constant (R187, R196), written as a signed or as an unsigned number: -2147483648 to 4294967295; another is
none, DESIGN CHOICE (log 28). -/
def wordOperand (t : String) : Option Word :=
  match numberOf t with
  | some v => if -2147483648 ≤ v ∧ v ≤ 4294967295 then some (BitVec.ofInt 32 v) else none
  | none => none

/-- The format of a mnemonic with the instruction it makes (R185, R186: the operands in the card's order). -/
inductive Shape where
  | regs3 (mk : RegNum → RegNum → RegNum → Instr)
  | regsImm (mk : RegNum → RegNum → BitVec 12 → Instr)
  | regsShamt (mk : RegNum → RegNum → BitVec 5 → Instr)
  | loadForm (mk : RegNum → RegNum → BitVec 12 → Instr)
  | storeForm (mk : RegNum → RegNum → BitVec 12 → Instr)
  | branchForm (mk : RegNum → RegNum → BitVec 13 → Instr)
  | upper (mk : RegNum → BitVec 20 → Instr)
  | jump (mk : RegNum → BitVec 21 → Instr)
  | plain (i : Instr)

/-- The card's mnemonics (R185). -/
def shapes : List (String × Shape) := [
  ("add", .regs3 .add), ("sub", .regs3 .sub), ("and", .regs3 .and), ("or", .regs3 .or), ("xor", .regs3 .xor),
  ("sll", .regs3 .sll), ("srl", .regs3 .srl), ("sra", .regs3 .sra), ("slt", .regs3 .slt),
  ("sltu", .regs3 .sltu), ("mul", .regs3 .mul),
  ("addi", .regsImm .addi), ("andi", .regsImm .andi), ("ori", .regsImm .ori), ("xori", .regsImm .xori),
  ("slti", .regsImm .slti), ("sltiu", .regsImm .sltiu), ("jalr", .regsImm .jalr),
  ("slli", .regsShamt .slli), ("srli", .regsShamt .srli), ("srai", .regsShamt .srai),
  ("lb", .loadForm .lb), ("lbu", .loadForm .lbu), ("lh", .loadForm .lh), ("lhu", .loadForm .lhu),
  ("lw", .loadForm .lw),
  ("sb", .storeForm .sb), ("sh", .storeForm .sh), ("sw", .storeForm .sw),
  ("beq", .branchForm .beq), ("bne", .branchForm .bne), ("blt", .branchForm .blt),
  ("bltu", .branchForm .bltu), ("bge", .branchForm .bge), ("bgeu", .branchForm .bgeu),
  ("auipc", .upper .auipc), ("lui", .upper .lui), ("jal", .jump .jal),
  ("ebreak", .plain .ebreak), ("ecall", .plain .ecall)]

/-- Fill an instruction's operands, in the order the card prints them: a store names its value register first, then
`imm(rs1)` (R186). `jalr` takes the card's three operands `rd rs1 imm` only: that the spelling `jalr rd, imm(rs1)` of
other assemblers is rejected is a DESIGN CHOICE, R186 does not say (log 28). -/
def fill (labels : Labels) (here : Word) : Shape → List String → Option Instr
  | .regs3 mk, [a, b, c] => do return mk (← registerOf a) (← registerOf b) (← registerOf c)
  | .regsImm mk, [a, b, c] => do return mk (← registerOf a) (← registerOf b) (← imm12Of (← numberOf c))
  | .regsShamt mk, [a, b, c] => do return mk (← registerOf a) (← registerOf b) (← shamtOfInt (← numberOf c))
  | .loadForm mk, [a, b, c] => do return mk (← registerOf a) (← registerOf c) (← imm12Of (← numberOf b))
  | .storeForm mk, [a, b, c] => do return mk (← registerOf c) (← registerOf a) (← imm12Of (← numberOf b))
  | .branchForm mk, [a, b, c] => do
    return mk (← registerOf a) (← registerOf b) (← offset13Of (← offsetOperand labels here c))
  | .upper mk, [a, b] => do return mk (← registerOf a) (← immuOf (← numberOf b))
  | .jump mk, [a, b] => do return mk (← registerOf a) (← offset21Of (← offsetOperand labels here b))
  | .plain i, [] => some i
  | _, _ => none

/-- A pseudo-instruction line (R190 to R201). `jal` with one operand is the pseudo-instruction (R193). -/
def pseudoOf (labels : Labels) (here : Word) : List String → Option Pseudo
  | ["beqz", a, l] => do return .beqz (← registerOf a) (← labelOperand labels here l)
  | ["bnez", a, l] => do return .bnez (← registerOf a) (← labelOperand labels here l)
  | ["j", l] => do return .j (← labelOperand labels here l)
  | ["jal", l] => do return .jal (← labelOperand labels here l)
  | ["jr", a] => do return .jr (← registerOf a)
  | ["la", a, l] => do return .la (← registerOf a) (← labelOperand labels here l)
  | ["li", a, v] => do return .li (← registerOf a) (← wordOperand v)
  | ["mv", a, b] => do return .mv (← registerOf a) (← registerOf b)
  | ["neg", a, b] => do return .neg (← registerOf a) (← registerOf b)
  | ["nop"] => some .nop
  | ["not", a, b] => do return .not (← registerOf a) (← registerOf b)
  | ["ret"] => some .ret
  | _ => none

/-- The instructions a line stands for at `here` (R185, R189): a pseudo-instruction's translation, or one
instruction. -/
def assembleLine (labels : Labels) (here : Word) (ts : List String) : Option (List Instr) :=
  match pseudoOf labels here ts with
  | some p => expand here p
  | none =>
    match ts with
    | [] => none
    | name :: operands =>
      match shapes.lookup name with
      | some shape => (fill labels here shape operands).map (fun i => [i])
      | none => none

/-- A symbol a token defines: `name:` (R187). What a name may be the spec leaves open; that it is any token of at least
one character before its last `:`, one that reads as a numeral, a mnemonic or a register or holds a `:` itself included, is a
DESIGN CHOICE (log 28). -/
def labelDefinition (t : String) : Option String :=
  match t.toList.reverse with
  | ':' :: c :: rest => some (String.ofList (c :: rest).reverse)
  | _ => none

/-- The words a line without its label places (R187): none for an empty line, the datum of `.word`, or the encodings of
its instructions. `.word` takes one numeral, no symbol: DESIGN CHOICE (log 28). -/
def wordsOfLine (labels : Labels) (here : Word) : List String → Option (List Word)
  | [] => some []
  | [".word", v] => (wordOperand v).map (fun w => [w])
  | ts => (assembleLine labels here ts).map (fun is => is.map encode)

/-- How many words a line takes, which no label decides (R195, R196). -/
def sizeOfLine : List String → Option Nat
  | [] => some 0
  | ["la", _, _] => some 2
  | ["li", a, v] => (wordsOfLine [] 0#32 ["li", a, v]).map List.length
  | _ => some 1

/-- The lines of a listing with the label each begins with taken off; one label a line, set apart from what follows,
DESIGN CHOICE (log 28). -/
def splitLabel : List String → Option String × List String
  | [] => (none, [])
  | t :: rest =>
    match labelDefinition t with
    | some name => (some name, rest)
    | none => (none, t :: rest)

/-- First pass: the address of every label (R187, R188). Of a symbol defined twice the first definition counts, DESIGN
CHOICE (log 28). -/
def collectLabels : List (List String) → Word → Option Labels
  | [], _ => some []
  | line :: rest, here => do
    let (name, ts) := splitLabel line
    let later ← collectLabels rest (here + BitVec.ofNat 32 (4 * (← sizeOfLine ts)))
    match name with
    | some n => return (n, here) :: later
    | none => return later

/-- Second pass: the words, in order. -/
def emitWords (labels : Labels) : List (List String) → Word → Option (List Word)
  | [], _ => some []
  | line :: rest, here => do
    let ws ← wordsOfLine labels here (splitLabel line).2
    let later ← emitWords labels rest (here + BitVec.ofNat 32 (4 * ws.length))
    return ws ++ later

/-- The words a listing places in memory from `start` on (R187, R189); none if one of its lines is no instruction, and
addresses are counted modulo 2^32: DESIGN CHOICE (log 28). -/
def assemble (start : Word) (lines : List String) : Option (List Word) := do
  let ts := lines.map tokens
  emitWords (← collectLabels ts start) ts start

end Sys2Proof.Machine
end

