-- ==== Sys2Proof/Tests/Slice0.lean ====
section
/-! SUPPORT. The model's own tests and, for every statement with hypotheses, a state and operands that meet them. A
word is written field by field as R72 to R78 lay it out; the expected results of the one-step tests are the vectors of
`95_test_vectors.md` and `96_test_vectors_faults.md`, which the spec derived from its rules. -/

namespace Sys2Proof.Tests

open Sys2Proof.Machine

/-! ## Decoding: a word for every constructor, field by field (R72 to R78, R87) -/

theorem test_decode_add :
    decodeWord false 0b0000000_00010_00001_000_00011_0110011#32 = .ok (.add 3#5 1#5 2#5) := by decide
theorem test_decode_sub :
    decodeWord false 0b0100000_01000_10000_000_11111_0110011#32 = .ok (.sub 31#5 16#5 8#5) := by decide
theorem test_decode_and :
    decodeWord false 0b0000000_00110_00101_111_00100_0110011#32 = .ok (.and 4#5 5#5 6#5) := by decide
theorem test_decode_or :
    decodeWord false 0b0000000_10101_01010_110_10001_0110011#32 = .ok (.or 17#5 10#5 21#5) := by decide
theorem test_decode_xor :
    decodeWord false 0b0000000_00010_00001_100_00011_0110011#32 = .ok (.xor 3#5 1#5 2#5) := by decide
theorem test_decode_sll :
    decodeWord false 0b0000000_01000_10000_001_11111_0110011#32 = .ok (.sll 31#5 16#5 8#5) := by decide
theorem test_decode_srl :
    decodeWord false 0b0000000_00110_00101_101_00100_0110011#32 = .ok (.srl 4#5 5#5 6#5) := by decide
theorem test_decode_sra :
    decodeWord false 0b0100000_10101_01010_101_10001_0110011#32 = .ok (.sra 17#5 10#5 21#5) := by decide
theorem test_decode_slt :
    decodeWord false 0b0000000_00010_00001_010_00011_0110011#32 = .ok (.slt 3#5 1#5 2#5) := by decide
theorem test_decode_sltu :
    decodeWord false 0b0000000_01000_10000_011_11111_0110011#32 = .ok (.sltu 31#5 16#5 8#5) := by decide
theorem test_decode_addi :
    decodeWord false 0b100000000000_10001_000_00011_0010011#32 = .ok (.addi 3#5 17#5 0x800#12) := by decide
theorem test_decode_andi :
    decodeWord false 0b011111111111_10001_111_00011_0010011#32 = .ok (.andi 3#5 17#5 0x7FF#12) := by decide
theorem test_decode_ori :
    decodeWord false 0b111111111111_10001_110_00011_0010011#32 = .ok (.ori 3#5 17#5 0xFFF#12) := by decide
theorem test_decode_xori :
    decodeWord false 0b000011110000_10001_100_00011_0010011#32 = .ok (.xori 3#5 17#5 0x0F0#12) := by decide
theorem test_decode_slti :
    decodeWord false 0b010101010101_10001_010_00011_0010011#32 = .ok (.slti 3#5 17#5 0x555#12) := by decide
theorem test_decode_sltiu :
    decodeWord false 0b101010101010_10001_011_00011_0010011#32 = .ok (.sltiu 3#5 17#5 0xAAA#12) := by decide
theorem test_decode_slli :
    decodeWord false 0b0000000_11111_01001_001_10100_0010011#32 = .ok (.slli 20#5 9#5 31#5) := by decide
theorem test_decode_srli :
    decodeWord false 0b0000000_00001_01001_101_10100_0010011#32 = .ok (.srli 20#5 9#5 1#5) := by decide
theorem test_decode_srai :
    decodeWord false 0b0100000_10000_01001_101_10100_0010011#32 = .ok (.srai 20#5 9#5 16#5) := by decide
theorem test_decode_lb :
    decodeWord false 0b111111111111_11110_000_11111_0000011#32 = .ok (.lb 31#5 30#5 0xFFF#12) := by decide
theorem test_decode_lbu :
    decodeWord false 0b011111111111_11110_100_11111_0000011#32 = .ok (.lbu 31#5 30#5 0x7FF#12) := by decide
theorem test_decode_lh :
    decodeWord false 0b100000000000_11110_001_11111_0000011#32 = .ok (.lh 31#5 30#5 0x800#12) := by decide
theorem test_decode_lhu :
    decodeWord false 0b001010101010_11110_101_11111_0000011#32 = .ok (.lhu 31#5 30#5 0x2AA#12) := by decide
theorem test_decode_lw :
    decodeWord false 0b000000000100_11110_010_11111_0000011#32 = .ok (.lw 31#5 30#5 0x004#12) := by decide
theorem test_decode_sb :
    decodeWord false 0b1000000_11111_11110_000_00000_0100011#32 = .ok (.sb 30#5 31#5 0x800#12) := by decide
theorem test_decode_sh :
    decodeWord false 0b1111111_11111_11110_001_11110_0100011#32 = .ok (.sh 30#5 31#5 0xFFE#12) := by decide
theorem test_decode_sw :
    decodeWord false 0b0111111_11111_11110_010_11100_0100011#32 = .ok (.sw 30#5 31#5 0x7FC#12) := by decide
theorem test_decode_beq :
    decodeWord false 0b0_000000_00010_00001_000_0100_0_1100011#32 = .ok (.beq 1#5 2#5 0x0008#13) := by decide
theorem test_decode_bne :
    decodeWord false 0b1_111111_00010_00001_001_1110_1_1100011#32 = .ok (.bne 1#5 2#5 0x1FFC#13) := by decide
theorem test_decode_blt :
    decodeWord false 0b0_111111_00010_00001_100_1111_1_1100011#32 = .ok (.blt 1#5 2#5 0x0FFE#13) := by decide
theorem test_decode_bltu :
    decodeWord false 0b1_111111_00010_00001_110_1111_1_1100011#32 = .ok (.bltu 1#5 2#5 0x1FFE#13) := by decide
theorem test_decode_bge :
    decodeWord false 0b1_000000_00010_00001_101_0000_0_1100011#32 = .ok (.bge 1#5 2#5 0x1000#13) := by decide
theorem test_decode_bgeu :
    decodeWord false 0b0_000000_00010_00001_111_0000_1_1100011#32 = .ok (.bgeu 1#5 2#5 0x0800#13) := by decide
theorem test_decode_jal :
    decodeWord false 0b0_1010101111_0_10011010_00001_1101111#32 = .ok (.jal 1#5 0x09A55E#21) := by decide
theorem test_decode_jal_backward :
    decodeWord false 0b1_0000000000_1_00000000_00000_1101111#32 = .ok (.jal 0#5 0x100800#21) := by decide
theorem test_decode_jalr :
    decodeWord false 0b111111111100_00101_000_00001_1100111#32 = .ok (.jalr 1#5 5#5 0xFFC#12) := by decide
theorem test_decode_auipc :
    decodeWord false 0b10000000000000000001_00101_0010111#32 = .ok (.auipc 5#5 0x80001#20) := by decide
theorem test_decode_lui :
    decodeWord false 0b00010010001101000101_00101_0110111#32 = .ok (.lui 5#5 0x12345#20) := by decide
theorem test_decode_ebreak : decodeWord false 0b000000000001_00000_000_00000_1110011#32 = .ok .ebreak := by decide
theorem test_decode_ecall : decodeWord false 0b000000000000_00000_000_00000_1110011#32 = .ok .ecall := by decide
theorem test_decode_mul :
    decodeWord true 0b0000001_00010_00001_000_00011_0110011#32 = .ok (.mul 3#5 1#5 2#5) := by decide

/-! ## Decoding: illegal words (96_test_vectors_faults.md, section 2.7) -/

/-- Rejected by name under both settings of `HAS_MUL`. -/
def rejected (w : Word) : Bool :=
  decide (decodeWord false w = .error (.illegalInstruction w)) &&
    decide (decodeWord true w = .error (.illegalInstruction w))

theorem test_reject_opcode :
    [0x00000000#32, 0xFFFFFFFF#32, 0x0FF0000F#32, 0x00000001#32, 0x0000001B#32].all rejected = true := by decide
theorem test_reject_system :
    [0x00200073#32, 0x30200073#32, 0x00008073#32, 0x000000F3#32, 0x300022F3#32].all rejected = true := by decide
theorem test_reject_funct7 :
    [0x0220C1B3#32, 0x402091B3#32, 0x802081B3#32, 0x02009193#32, 0x6000D193#32].all rejected = true := by decide
theorem test_reject_funct3 :
    [0x0000B183#32, 0x0020B023#32, 0x0020A063#32, 0x00009067#32].all rejected = true := by decide

theorem test_reject_mul_without_HAS_MUL :
    decodeWord false 0x022081B3#32 = .error (.illegalInstruction 0x022081B3#32) := by decide

theorem test_decodeBytes_little_endian :
    decodeBytes false [0xB3#8, 0x81#8, 0x20#8, 0x40#8, 0x13#8] = .ok (.sub 3#5 1#5 2#5, [0x13#8]) := by decide

theorem test_decodeBytes_too_few : decodeBytes false [0xB3#8, 0x81#8, 0x20#8] = .error (.tooFewBytes 3) := by decide

theorem test_decodeTableWord : decodeTableWord 32 0x022081B3 = some (.mul 3#5 1#5 2#5) := by decide

/-! ## Encoding: words of the spec (95_test_vectors.md, section 2.1, S16) -/

theorem test_encode_R : encode (.sub 3#5 1#5 2#5) = 0x402081B3#32 := by decide
theorem test_encode_I : encode (.lw 31#5 30#5 0xFFF#12) = 0xFFFF2F83#32 := by decide
theorem test_encode_shift : encode (.srai 3#5 1#5 4#5) = 0x4040D193#32 := by decide
theorem test_encode_S : encode (.sw 1#5 2#5 0x7FC#12) = 0x7E20AE23#32 := by decide
theorem test_encode_B : encode (.bgeu 1#5 2#5 0x0800#13) = 0x0020F0E3#32 := by decide
theorem test_encode_U : encode (.lui 5#5 0x12345#20) = 0x123452B7#32 := by decide
theorem test_encode_J : encode (.jal 1#5 0x0FFFFE#21) = 0x7FFFF0EF#32 := by decide
theorem test_encode_environment : encode .ecall = 0x00000073#32 ∧ encode .ebreak = 0x00100073#32 := by decide

/-! ## WellFormed: each check refuses an ill-formed term (R82, R84) -/

theorem test_wf_beq : Instr.wf (.beq 1#5 2#5 0x0007#13) = false := by decide
theorem test_wf_bne : Instr.wf (.bne 1#5 2#5 0x1FFF#13) = false := by decide
theorem test_wf_blt : Instr.wf (.blt 1#5 2#5 0x0001#13) = false := by decide
theorem test_wf_bltu : Instr.wf (.bltu 1#5 2#5 0x0FFF#13) = false := by decide
theorem test_wf_bge : Instr.wf (.bge 1#5 2#5 0x1001#13) = false := by decide
theorem test_wf_bgeu : Instr.wf (.bgeu 1#5 2#5 0x0801#13) = false := by decide
theorem test_wf_jal : Instr.wf (.jal 1#5 0x100001#21) = false := by decide
theorem test_wf_accepts : Instr.wf (.beq 1#5 2#5 0x1FFE#13) = true ∧ Instr.wf (.jal 1#5 0x1FFFFE#21) = true := by
  decide

/-! ## One step each (95_test_vectors.md, part 2; the state of its conventions) -/

/-- `MEM_VALID` is 0x0000 to 0x3FFF; `HAS_MUL` is true, which changes no word but `mul`. -/
def vectorConfig : Config :=
  { Config.default with memValid := [⟨0x00000000#32, 0x00003FFF#32⟩], hasMul := true }

/-- The data word `01 7F FF 80` at 0x1000. -/
def vectorMem : Memory := [(0x1000, 0x01#8), (0x1001, 0x7F#8), (0x1002, 0xFF#8), (0x1003, 0x80#8)]

/-- A state under given parameters with `x1`, `x2`, `pc` and memory as given. -/
def stateWith (cfg : Config) (x1 x2 pc : Word) (mem : Memory) : State :=
  ((setReg (setReg (State.boot cfg (Vector.replicate 31 0xDEAD0000#32)) 1#5 x1) 2#5 x2).setPc pc).setMem mem

/-- The state before a vector: `pc` is 0x100. -/
def vector (x1 x2 : Word) : State := stateWith vectorConfig x1 x2 0x00000100#32 vectorMem

/-- The step that runs the word `w`. -/
def run (w : Nat) (s : State) : Outcome := step (s.withFetchWord 32 w)

/-- A register and `pc` after a step that goes on. -/
def regAndPc (r : RegNum) : Outcome → Option (Word × Word)
  | .next t => some (getReg t r, t.pc)
  | .fault _ => none
  | .refused _ => none

/-- The word at an address and how many addresses are in `Written` after a step that goes on. -/
def wordAndWritten (a : Word) : Outcome → Option (Word × Nat)
  | .next t => some (t.mem.read a .word, t.written.length)
  | .fault _ => none
  | .refused _ => none

/-- The trap a step ends in. -/
def trapOf : Outcome → Option Fault
  | .next _ => none
  | .fault e => some e
  | .refused _ => none

/-- The refusal a step ends in. -/
def refusalOf : Outcome → Option Refusal
  | .next _ => none
  | .fault _ => none
  | .refused r => some r

theorem test_add_wraps :
    regAndPc 3#5 (run 0x002081B3 (vector 0xFFFFFFFF#32 0x00000001#32)) = some (0x00000000#32, 0x00000104#32) := by
  decide
theorem test_sub_borrows :
    regAndPc 3#5 (run 0x402081B3 (vector 0x00000000#32 0x00000001#32)) = some (0xFFFFFFFF#32, 0x00000104#32) := by
  decide
theorem test_sub_order :
    regAndPc 3#5 (run 0x402081B3 (vector 0x00000003#32 0xFFFFFFFF#32)) = some (0x00000004#32, 0x00000104#32) := by
  decide
theorem test_and :
    regAndPc 3#5 (run 0x0020F1B3 (vector 0xF0F0F0F0#32 0x0FF00FF0#32)) = some (0x00F000F0#32, 0x00000104#32) := by
  decide
theorem test_or :
    regAndPc 3#5 (run 0x0020E1B3 (vector 0xF0F0F0F0#32 0x0FF00FF0#32)) = some (0xFFF0FFF0#32, 0x00000104#32) := by
  decide
theorem test_xor :
    regAndPc 3#5 (run 0x0020C1B3 (vector 0xF0F0F0F0#32 0x0FF00FF0#32)) = some (0xFF00FF00#32, 0x00000104#32) := by
  decide
theorem test_sll_low_five_bits :
    regAndPc 3#5 (run 0x002091B3 (vector 0x12345678#32 0xFFFFFFE4#32)) = some (0x23456780#32, 0x00000104#32) := by
  decide
theorem test_srl_by_32_is_by_0 :
    regAndPc 3#5 (run 0x0020D1B3 (vector 0x80000000#32 0x00000020#32)) = some (0x80000000#32, 0x00000104#32) := by
  decide
theorem test_srl_zeros_enter :
    regAndPc 3#5 (run 0x0020D1B3 (vector 0xFFFFFFFF#32 0x00000004#32)) = some (0x0FFFFFFF#32, 0x00000104#32) := by
  decide
theorem test_sra_sign_enters :
    regAndPc 3#5 (run 0x4020D1B3 (vector 0x80000000#32 0x0000003F#32)) = some (0xFFFFFFFF#32, 0x00000104#32) := by
  decide
theorem test_sra_positive :
    regAndPc 3#5 (run 0x4020D1B3 (vector 0x7FFFFFFF#32 0x00000004#32)) = some (0x07FFFFFF#32, 0x00000104#32) := by
  decide
theorem test_slt_signed :
    regAndPc 3#5 (run 0x0020A1B3 (vector 0x80000000#32 0x7FFFFFFF#32)) = some (0x00000001#32, 0x00000104#32) := by
  decide
theorem test_slt_order :
    regAndPc 3#5 (run 0x0020A1B3 (vector 0x00000000#32 0xFFFFFFFF#32)) = some (0x00000000#32, 0x00000104#32) := by
  decide
theorem test_sltu_unsigned :
    regAndPc 3#5 (run 0x0020B1B3 (vector 0x80000000#32 0x7FFFFFFF#32)) = some (0x00000000#32, 0x00000104#32) := by
  decide
theorem test_sltu_order :
    regAndPc 3#5 (run 0x0020B1B3 (vector 0x00000000#32 0xFFFFFFFF#32)) = some (0x00000001#32, 0x00000104#32) := by
  decide
theorem test_addi_negative :
    regAndPc 3#5 (run 0x80008193 (vector 0x00001000#32 0x00000000#32)) = some (0x00000800#32, 0x00000104#32) := by
  decide
theorem test_addi_wraps :
    regAndPc 3#5 (run 0x00108193 (vector 0xFFFFFFFF#32 0x00000000#32)) = some (0x00000000#32, 0x00000104#32) := by
  decide
theorem test_andi_sign_extends :
    regAndPc 3#5 (run 0x8000F193 (vector 0xFFFFFFFF#32 0x00000000#32)) = some (0xFFFFF800#32, 0x00000104#32) := by
  decide
theorem test_ori_sign_extends :
    regAndPc 3#5 (run 0x8000E193 (vector 0x00000001#32 0x00000000#32)) = some (0xFFFFF801#32, 0x00000104#32) := by
  decide
theorem test_xori_minus_one :
    regAndPc 3#5 (run 0xFFF0C193 (vector 0x0F0F0F0F#32 0x00000000#32)) = some (0xF0F0F0F0#32, 0x00000104#32) := by
  decide
theorem test_slli :
    regAndPc 3#5 (run 0x00409193 (vector 0x12345678#32 0x00000000#32)) = some (0x23456780#32, 0x00000104#32) := by
  decide
theorem test_srli :
    regAndPc 3#5 (run 0x0040D193 (vector 0x87654321#32 0x00000000#32)) = some (0x08765432#32, 0x00000104#32) := by
  decide
theorem test_srai :
    regAndPc 3#5 (run 0x4040D193 (vector 0x87654321#32 0x00000000#32)) = some (0xF8765432#32, 0x00000104#32) := by
  decide
theorem test_slti_signed :
    regAndPc 3#5 (run 0x8000A193 (vector 0x80000000#32 0x00000000#32)) = some (0x00000001#32, 0x00000104#32) := by
  decide
theorem test_slti_equal_sign :
    regAndPc 3#5 (run 0xFFF0A193 (vector 0x00000000#32 0x00000000#32)) = some (0x00000000#32, 0x00000104#32) := by
  decide
theorem test_sltiu_sign_extends_first :
    regAndPc 3#5 (run 0x8000B193 (vector 0x000007FF#32 0x00000000#32)) = some (0x00000001#32, 0x00000104#32) := by
  decide
theorem test_sltiu_equal :
    regAndPc 3#5 (run 0xFFF0B193 (vector 0xFFFFFFFF#32 0x00000000#32)) = some (0x00000000#32, 0x00000104#32) := by
  decide
theorem test_lb_sign :
    regAndPc 3#5 (run 0x00308183 (vector 0x00001000#32 0x00000000#32)) = some (0xFFFFFF80#32, 0x00000104#32) := by
  decide
theorem test_lb_negative_offset :
    regAndPc 3#5 (run 0xFFF08183 (vector 0x00001003#32 0x00000000#32)) = some (0xFFFFFFFF#32, 0x00000104#32) := by
  decide
theorem test_lbu_zeros :
    regAndPc 3#5 (run 0x0030C183 (vector 0x00001000#32 0x00000000#32)) = some (0x00000080#32, 0x00000104#32) := by
  decide
theorem test_lh_sign :
    regAndPc 3#5 (run 0x00209183 (vector 0x00001000#32 0x00000000#32)) = some (0xFFFF80FF#32, 0x00000104#32) := by
  decide
theorem test_lhu_zeros :
    regAndPc 3#5 (run 0x0020D183 (vector 0x00001000#32 0x00000000#32)) = some (0x000080FF#32, 0x00000104#32) := by
  decide
theorem test_lw_little_endian :
    regAndPc 3#5 (run 0xFFC0A183 (vector 0x00001004#32 0x00000000#32)) = some (0x80FF7F01#32, 0x00000104#32) := by
  decide
theorem test_lw_rd_is_rs1 :
    regAndPc 1#5 (run 0x0000A083 (vector 0x00001000#32 0x00000000#32)) = some (0x80FF7F01#32, 0x00000104#32) := by
  decide
theorem test_sb_one_byte :
    wordAndWritten 0x00001004#32 (run 0x002082A3 (vector 0x00001000#32 0x123456AB#32)) =
      some (0x0000AB00#32, 1) := by decide
theorem test_sh_two_bytes :
    wordAndWritten 0x00001004#32 (run 0xFE209F23 (vector 0x00001008#32 0x1234BEEF#32)) =
      some (0xBEEF0000#32, 2) := by decide
theorem test_sw_four_bytes :
    wordAndWritten 0x00001004#32 (run 0x0020A223 (vector 0x00001000#32 0xDEADBEEF#32)) =
      some (0xDEADBEEF#32, 4) := by decide
theorem test_sb_zero :
    wordAndWritten 0x00001000#32 (run 0x00008023 (vector 0x00001001#32 0x00000000#32)) =
      some (0x80FF0001#32, 1) := by decide
theorem test_beq_taken :
    regAndPc 0#5 (run 0x00208463 (vector 0x00000007#32 0x00000007#32)) = some (0x00000000#32, 0x00000108#32) := by
  decide
theorem test_beq_not_taken :
    regAndPc 0#5 (run 0x00208463 (vector 0x00000007#32 0x00000008#32)) = some (0x00000000#32, 0x00000104#32) := by
  decide
theorem test_bne_taken_backward :
    regAndPc 0#5 (run 0xFE209EE3 (vector 0x00000001#32 0x00000000#32)) = some (0x00000000#32, 0x000000FC#32) := by
  decide
theorem test_bne_not_taken :
    regAndPc 0#5 (run 0xFE209EE3 (vector 0x00000005#32 0x00000005#32)) = some (0x00000000#32, 0x00000104#32) := by
  decide
theorem test_blt_signed :
    regAndPc 0#5 (run 0x0020C863 (vector 0x80000000#32 0x7FFFFFFF#32)) = some (0x00000000#32, 0x00000110#32) := by
  decide
theorem test_blt_equal :
    regAndPc 0#5 (run 0x0020C863 (vector 0x00000005#32 0x00000005#32)) = some (0x00000000#32, 0x00000104#32) := by
  decide
theorem test_bltu_unsigned :
    regAndPc 0#5 (run 0x0020E863 (vector 0x00000000#32 0xFFFFFFFF#32)) = some (0x00000000#32, 0x00000110#32) := by
  decide
theorem test_bltu_order :
    regAndPc 0#5 (run 0x0020E863 (vector 0xFFFFFFFF#32 0x00000000#32)) = some (0x00000000#32, 0x00000104#32) := by
  decide
theorem test_bge_equal :
    regAndPc 0#5 (run 0x0020D863 (vector 0x00000005#32 0x00000005#32)) = some (0x00000000#32, 0x00000110#32) := by
  decide
theorem test_bge_signed :
    regAndPc 0#5 (run 0x0020D863 (vector 0xFFFFFFFF#32 0x00000000#32)) = some (0x00000000#32, 0x00000104#32) := by
  decide
theorem test_bgeu_unsigned :
    regAndPc 0#5 (run 0x0020F0E3 (vector 0xFFFFFFFF#32 0x00000001#32)) = some (0x00000000#32, 0x00000900#32) := by
  decide
theorem test_bgeu_order :
    regAndPc 0#5 (run 0x0020F0E3 (vector 0x00000000#32 0xFFFFFFFF#32)) = some (0x00000000#32, 0x00000104#32) := by
  decide
theorem test_jal_links :
    regAndPc 1#5 (run 0x001000EF (vector 0x00000000#32 0x00000000#32)) = some (0x00000104#32, 0x00000900#32) := by
  decide
theorem test_jal_x0_backward :
    regAndPc 0#5 (run 0xFF9FF06F (vector 0x00000000#32 0x00000000#32)) = some (0x00000000#32, 0x000000F8#32) := by
  decide
theorem test_jalr_uses_old_rs1 :
    regAndPc 1#5 (run 0x008080E7 (vector 0x00002000#32 0x00000000#32)) = some (0x00000104#32, 0x00002008#32) := by
  decide
theorem test_jalr_absolute :
    regAndPc 0#5 (run 0x40000067 (vector 0x00000000#32 0x00000000#32)) = some (0x00000000#32, 0x00000400#32) := by
  decide
theorem test_auipc :
    regAndPc 5#5 (run 0x80000297 (vector 0x00000000#32 0x00000000#32)) = some (0x80000100#32, 0x00000104#32) := by
  decide
theorem test_lui :
    regAndPc 5#5 (run 0x123452B7 (vector 0x00000000#32 0x00000000#32)) = some (0x12345000#32, 0x00000104#32) := by
  decide
theorem test_mul_low_half :
    regAndPc 3#5 (run 0x022081B3 (vector 0x12345678#32 0x9ABCDEF0#32)) = some (0x242D2080#32, 0x00000104#32) := by
  decide
theorem test_mul_negative :
    regAndPc 3#5 (run 0x022081B3 (vector 0xFFFFFFFF#32 0x00000005#32)) = some (0xFFFFFFFB#32, 0x00000104#32) := by
  decide
theorem test_x0_discards :
    regAndPc 0#5 (run 0x00208033 (vector 0x00000007#32 0x00000008#32)) = some (0x00000000#32, 0x00000104#32) := by
  decide

/-! ## Traps and refusals (96_test_vectors_faults.md, section 2.8) -/

theorem test_lw_misaligned :
    trapOf (run 0x0020A183 (vector 0x00001000#32 0x00000000#32)) = some (.loadAddressMisaligned 0x00001002#32) := by
  decide
theorem test_sh_misaligned :
    trapOf (run 0x002090A3 (vector 0x00001000#32 0x00000005#32)) = some (.storeAddressMisaligned 0x00001001#32) := by
  decide
theorem test_lbu_outside :
    trapOf (run 0x0000C183 (vector 0x00004000#32 0x00000000#32)) = some (.loadAccessFault 0x00004000#32) := by decide
theorem test_load_to_x0_outside :
    trapOf (run 0x0000A003 (vector 0x00004000#32 0x00000000#32)) = some (.loadAccessFault 0x00004000#32) := by decide
theorem test_sw_outside :
    trapOf (run 0x0020A023 (vector 0x00004000#32 0x00000005#32)) = some (.storeAccessFault 0x00004000#32) := by decide
theorem test_misaligned_before_outside :
    trapOf (run 0x0020A1A3 (vector 0x00004000#32 0x00000000#32)) = some (.storeAddressMisaligned 0x00004003#32) := by
  decide
theorem test_beq_to_misaligned :
    trapOf (run 0x00208363 (vector 0x00000007#32 0x00000007#32)) = some (.instructionAddressMisaligned 0x00000106#32) := by
  decide
theorem test_jal_to_misaligned :
    trapOf (run 0x002000EF (vector 0x00000000#32 0x00000000#32)) = some (.instructionAddressMisaligned 0x00000102#32) := by
  decide
theorem test_jalr_to_odd :
    trapOf (run 0x000080E7 (vector 0x00002001#32 0x00000000#32)) = some (.instructionAddressMisaligned 0x00002001#32) := by
  decide
theorem test_illegal :
    trapOf (run 0x0FF0000F (vector 0x00000000#32 0x00000000#32)) = some (.illegalInstruction 0x0FF0000F#32) := by
  decide
theorem test_ecall :
    trapOf (run 0x00000073 (vector 0x00000000#32 0x00000000#32)) = some (.environmentCall 0x00000100#32) := by decide
theorem test_ebreak :
    trapOf (run 0x00100073 (vector 0x00000000#32 0x00000000#32)) = some (.breakpoint 0x00000100#32) := by decide
theorem test_fetch_outside :
    trapOf (step (stateWith vectorConfig 0#32 0#32 0x00004000#32 [])) =
      some (.instructionAccessFault 0x00004000#32) := by decide
theorem test_fetch_straddling_the_end :
    trapOf (step (stateWith { vectorConfig with memValid := [⟨0x00000000#32, 0x00000101#32⟩] } 0#32 0#32
      0x00000100#32 [(0x100, 0x13#8)])) = some (.instructionAccessFault 0x00000100#32) := by decide
/-- Valid memory, but `RESET_PC` is no multiple of 4 (R242, item 2). -/
theorem test_misaligned_reset_pc :
    trapOf (step (State.boot { vectorConfig with resetPc := 0x00000102#32 } (Vector.replicate 31 0#32))) =
      some (.instructionAccessFault 0x00000102#32) := by decide
theorem test_stale_fetch :
    refusalOf (step ((vector 0#32 0#32).setWritten [0x103])) = some (.staleFetch 0x00000100#32) := by decide

/-! ## The parameters (R48, R158) and a trap the environment answers (R225) -/

/-- `MISALIGNED_DATA_OK` and `JALR_CLEAR_BIT0` set. -/
def permissiveConfig : Config := { vectorConfig with misalignedDataOk := true, jalrClearBit0 := true }

theorem test_misaligned_lw_performed :
    regAndPc 3#5 (run 0x0020A183 (stateWith permissiveConfig 0x00001000#32 0#32 0x00000100#32
      (vectorMem ++ [(0x1004, 0xAA#8), (0x1005, 0xBB#8)]))) = some (0xBBAA80FF#32, 0x00000104#32) := by decide
theorem test_jalr_clears_bit0 :
    regAndPc 1#5 (run 0x000080E7 (stateWith permissiveConfig 0x00002001#32 0#32 0x00000100#32 [])) =
      some (0x00000104#32, 0x00002000#32) := by decide
theorem test_jalr_clears_only_bit0 :
    trapOf (run 0x000080E7 (stateWith permissiveConfig 0x00002003#32 0#32 0x00000100#32 [])) =
      some (.instructionAddressMisaligned 0x00002002#32) := by decide

/-- An answer of the environment: `x10` is 42, the run goes on after the call. -/
def answer : Resumption where
  regs := Vector.ofFn (fun i => if i.val = 9 then 42#32 else 0#32)
  pc := 0x00000104#32
  mem := vectorMem
  marked := [0x1000, 0xFFFFFFFF]

/-- The parameters of the vectors with an environment that gives that one answer. -/
def scriptConfig : Config := { vectorConfig with env := .script [answer] }

/-- An environment that skips each `ecall` with `x10` set to 42 and halts on every other cause. -/
def servicesConfig : Config :=
  { vectorConfig with env := .services [⟨.environmentCall, [(10#5, 42#32)], 4#32, [(0x1001, 0#8)], [0x1001]⟩] }

theorem test_ecall_answered :
    regAndPc 10#5 (run 0x00000073 (stateWith scriptConfig 0#32 0#32 0x00000100#32 vectorMem)) =
      some (42#32, 0x00000104#32) := by decide
theorem test_after_the_last_answer :
    trapOf (run 0x00000073 ((stateWith scriptConfig 0#32 0#32 0x00000100#32 vectorMem).setAnswered 1)) =
      some (.environmentCall 0x00000100#32) := by decide
theorem test_ecall_served_again :
    regAndPc 10#5 (run 0x00000073 ((stateWith servicesConfig 0#32 0#32 0x00000200#32 []).setAnswered 1000)) =
      some (42#32, 0x00000204#32) := by decide
theorem test_served_memory :
    wordAndWritten 0x00001000#32 (run 0x00000073 (stateWith servicesConfig 0#32 0#32 0x00000100#32 vectorMem)) =
      some (0x80FF0001#32, 1) := by decide
theorem test_cause_not_served :
    trapOf (run 0x00100073 (stateWith servicesConfig 0#32 0#32 0x00000100#32 [])) =
      some (.breakpoint 0x00000100#32) := by decide

/-! ## Wrap-around (R29, R55) -/

/-- The whole space is memory. -/
def wholeConfig : Config := { Config.default with misalignedDataOk := true }

theorem test_jal_link_wraps :
    regAndPc 1#5 (run 0x008000EF (stateWith wholeConfig 0#32 0#32 0xFFFFFFFC#32 [])) =
      some (0#32, 0x00000004#32) := by decide
theorem test_auipc_wraps :
    regAndPc 5#5 (run 0x00001297 (stateWith wholeConfig 0#32 0#32 0xFFFFF000#32 [])) =
      some (0#32, 0xFFFFF004#32) := by decide
theorem test_store_wraps :
    wordAndWritten 0xFFFFFFFE#32 (run 0x0020A023 (stateWith wholeConfig 0xFFFFFFFE#32 0x44332211#32 0x100#32 [])) =
      some (0x44332211#32, 4) := by decide

/-! ## Reset (R35 to R38) -/

theorem test_reset_pc : State.reset.pc = 0x00000000#32 := by decide
theorem test_reset_inv : State.reset.Inv := ⟨by decide, by decide, by decide, ⟨by decide, envOk_halt rfl⟩⟩
theorem test_first_step_runs_the_word : regAndPc 5#5 (run 0x123452B7 State.reset) = some (0x12345000#32, 4#32) := by
  decide
theorem test_mul_as_first_instruction : regAndPc 3#5 (run 0x022081B3 State.reset) = some (0#32, 4#32) := by decide

/-! ## The assembler (95_test_vectors.md, part 1 and P4) -/

theorem test_translations :
    assemble 0x00000100#32 ["beqz x5 12", "bnez x5 -12", "j 20", "jal 20", "jr x5", "li x5 0x12345678", "mv x5 x6",
      "neg x5 x6", "nop", "not x5 x6", "ret"] =
    some [0x00028663#32, 0xFE029AE3#32, 0x0140006F#32, 0x014000EF#32, 0x00028067#32, 0x123452B7#32, 0x67828293#32,
      0x00030293#32, 0x406002B3#32, 0x00000013#32, 0xFFF34293#32, 0x00008067#32] := by decide

/-- A line is no instruction (log 28): a numeral outside 32 bits or in a form not read, a label out of reach, `jalr`'s other spelling. -/
theorem test_lines_rejected :
    (assemble 0x00000100#32 ["j 4294967316"]).isNone ∧ (assemble 0x00000100#32 ["beqz x5 0x1000"]).isNone ∧
    (assemble 0x00000100#32 ["jalr x1, 0(x5)"]).isNone ∧ (assemble 0x00000100#32 ["addi x5 x0 0b101"]).isNone ∧
    assemble 0x00000100#32 ["jalr x1, x5, 0"] = some [0x000280E7#32] := by decide

theorem test_listing :
    assemble 0x00000100#32 ["la   t0 arr   # auipc + addi", "li t1 4", "li a0 0", "loop: lw t2 0(t0)", "add a0 a0 t2",
      "addi t0 t0 4", "addi t1 t1 -1", "bnez t1 loop", "ecall", "arr: .word 1", ".word 0xFFFFFFFF"] =
    some [0x00000297#32, 0x02828293#32, 0x00400313#32, 0x00000513#32, 0x0002A383#32, 0x00750533#32, 0x00428293#32,
      0xFFF30313#32, 0xFE0318E3#32, 0x00000073#32, 0x00000001#32, 0xFFFFFFFF#32] := by decide

/-! ## Witnesses: for every statement with hypotheses, a state and operands that meet them, clause by clause

The states are `stateWith` and `vector` above; addresses and offsets are taken at the ends of their ranges. -/

theorem witness_DecodeOfEncode :
    (Instr.wf (.bgeu 31#5 31#5 0x1FFE#13) = true ∧ (Instr.isMul (.bgeu 31#5 31#5 0x1FFE#13) = true → false = true)) ∧
    (Instr.wf (.mul 31#5 0#5 31#5) = true ∧ (Instr.isMul (.mul 31#5 0#5 31#5) = true → true = true)) := by decide

theorem witness_EncodeOfDecode : decodeWord false 0xFFFFFFE3#32 = .ok (.bgeu 31#5 31#5 0x1FFE#13) := by decide

/-- A word of each row, the premise of every `DecodesTo` clause: the row's own pattern. -/
theorem witness_DecodesTo : opcodeRows.all (fun r => r.pattern &&& r.mask == r.pattern) = true := by decide

/-- A destination that is not `x0`, and the ends of the ranges of bits and bytes the statements speak of. -/
theorem witness_destination_bits_bytes : 31#5 ≠ 0#5 ∧ 1#5 ≠ 0#5 ∧ 0 < 32 ∧ 31 < 32 ∧ 0 < 4 ∧ 3 < 4 := by decide

theorem witness_AtMostOneRowMatches :
    (∃ h : 0 < opcodeRows.length, opcodeRows[0].matchesWord 0x002081B3#32 = true) ∧
    (∃ h : 39 < opcodeRows.length, opcodeRows[39].matchesWord 0x022081B3#32 = true) :=
  ⟨⟨by decide, by decide⟩, ⟨by decide, by decide⟩⟩

/-- The bit positions where the clauses of the immediates meet. -/
theorem witness_SignExtendedImmediates : ∀ k ∈ [0, 4, 5, 10, 11, 12, 19, 20, 31], k < 32 := by decide

theorem witness_ShiftAmountAndUpperImmediate : 0 < 32 ∧ 11 < 32 ∧ 12 < 32 ∧ 31 < 32 := by decide

theorem witness_HasMulAdmitsOnlyMul :
    0x03FF8FB3#32 &&& 0xFE00707F#32 = 0x02000033#32 ∧ 0x002081B3#32 &&& 0xFE00707F#32 ≠ 0x02000033#32 := by decide

/-- At the top of the space, the four bytes ending it. -/
theorem witness_StepRunsTheDecodedInstruction :
    let s := (stateWith wholeConfig 0#32 0#32 0xFFFFFFFC#32 []).withFetchWord 32 0x00108193
    s.pc.toNat % 4 = 0 ∧ (∀ k, k < 4 → validAddr s.cfg (s.pc + BitVec.ofNat 32 k) = true) ∧
    (∀ k, k < 4 → (s.pc + BitVec.ofNat 32 k).toNat ∉ s.written) ∧
    decodeWord s.cfg.hasMul
      (readByte s (s.pc + 3#32) ++ readByte s (s.pc + 2#32) ++ readByte s (s.pc + 1#32) ++ readByte s s.pc) =
        .ok (.addi 3#5 1#5 1#12) := by decide

/-- The first byte outside, and only the last; and a `pc` that is no multiple of 4, all its bytes inside. -/
theorem witness_FetchOutsideMemoryTraps :
    let s := stateWith vectorConfig 0#32 0#32 0x00004000#32 []
    let u := stateWith vectorConfig 0#32 0#32 0x00003FFD#32 []
    (0 < 4 ∧ validAddr s.cfg (s.pc + BitVec.ofNat 32 0) = false) ∧
    (3 < 4 ∧ validAddr u.cfg (u.pc + BitVec.ofNat 32 3) = false ∧
      validAddr u.cfg (u.pc + BitVec.ofNat 32 2) = true) ∧
    (stateWith vectorConfig 0#32 0#32 0x00000101#32 []).pc.toNat % 4 ≠ 0 := by decide

/-- Only the first byte stored to, and only the last. -/
theorem witness_FetchOfStoredBytesRefused :
    let s := (vector 0#32 0#32).setWritten [0x100]
    let u := (vector 0#32 0#32).setWritten [0x103]
    (s.pc.toNat % 4 = 0 ∧ (∀ j, j < 4 → validAddr s.cfg (s.pc + BitVec.ofNat 32 j) = true) ∧
      (s.pc + BitVec.ofNat 32 0).toNat ∈ s.written) ∧
    (u.pc.toNat % 4 = 0 ∧ (∀ j, j < 4 → validAddr u.cfg (u.pc + BitVec.ofNat 32 j) = true) ∧
      (u.pc + BitVec.ofNat 32 3).toNat ∈ u.written) := by decide

theorem witness_IllegalWordTraps :
    let s := (vector 0#32 0#32).withFetchWord 32 0x0FF0000F
    fetch s = .word 0x0FF0000F#32 ∧ illegalSpace s.cfg.hasMul 0x0FF0000F#32 := by
  refine ⟨by decide, ?_⟩
  unfold illegalSpace; decide

theorem witness_LoadedInstructionRuns : Instr.wf (.jal 31#5 0x100000#21) = true := by decide

/-- `lb` and `lbu` at the last byte of the space, `lh` and `lhu` at its last half-word, `lw` at its last word. -/
theorem witness_LoadResults :
    let s := stateWith wholeConfig 0xFFFFFFFF#32 0#32 0x100#32 []
    (0xFFFFFFFF#32 = getReg s 1#5 + BitVec.ofInt 32 (0x000#12).toInt ∧ validAddr s.cfg 0xFFFFFFFF#32 = true) ∧
    (0xFFFFFFFE#32 = getReg s 1#5 + BitVec.ofInt 32 (0xFFF#12).toInt ∧ (0xFFFFFFFE#32).toNat % 2 = 0 ∧
      validAddr s.cfg 0xFFFFFFFE#32 = true ∧ validAddr s.cfg (0xFFFFFFFE#32 + 1#32) = true) ∧
    (0xFFFFFFFC#32 = getReg s 1#5 + BitVec.ofInt 32 (0xFFD#12).toInt ∧ (0xFFFFFFFC#32).toNat % 4 = 0 ∧
      ∀ k, k < 4 → validAddr s.cfg (0xFFFFFFFC#32 + BitVec.ofNat 32 k) = true) := by decide

/-- Each clause at the end of `MEM_VALID`: just outside; misaligned by one; aligned with no byte inside; misaligned
and performed with only the last byte outside. -/
theorem witness_LoadTraps :
    validAddr vectorConfig (loadAddr (vector 0x00003FFF#32 0#32) 1#5 0x001#12) = false ∧
    ((loadAddr (vector 0x00003FFF#32 0#32) 1#5 0x000#12).toNat % 2 ≠ 0 ∧ vectorConfig.misalignedDataOk = false) ∧
    ((loadAddr (vector 0x00003FFE#32 0#32) 1#5 0x000#12).toNat % 4 ≠ 0 ∧ vectorConfig.misalignedDataOk = false) ∧
    ((loadAddr (vector 0x00004000#32 0#32) 1#5 0x000#12).toNat % 2 = 0 ∧
      validAddr vectorConfig (loadAddr (vector 0x00004000#32 0#32) 1#5 0x000#12 + BitVec.ofNat 32 0) = false) ∧
    (permissiveConfig.misalignedDataOk = true ∧ validAddr permissiveConfig
      (loadAddr (stateWith permissiveConfig 0x00003FFD#32 0#32 0x100#32 []) 1#5 0x000#12 + BitVec.ofNat 32 3) = false) :=
  by decide

theorem witness_StoreResults :
    let s := stateWith wholeConfig 0xFFFFFFFF#32 0#32 0x100#32 []
    (0xFFFFFFFF#32 = getReg s 1#5 + BitVec.ofInt 32 (0x000#12).toInt ∧ validAddr s.cfg 0xFFFFFFFF#32 = true) ∧
    (0xFFFFFFFE#32 = getReg s 1#5 + BitVec.ofInt 32 (0xFFF#12).toInt ∧ (0xFFFFFFFE#32).toNat % 2 = 0 ∧
      validAddr s.cfg 0xFFFFFFFE#32 = true ∧ validAddr s.cfg (0xFFFFFFFE#32 + 1#32) = true) ∧
    (0xFFFFFFFC#32 = getReg s 1#5 + BitVec.ofInt 32 (0xFFD#12).toInt ∧ (0xFFFFFFFC#32).toNat % 4 = 0 ∧
      ∀ k, k < 4 → validAddr s.cfg (0xFFFFFFFC#32 + BitVec.ofNat 32 k) = true) := by decide

theorem witness_StoreTraps :
    validAddr vectorConfig (storeAddr (vector 0x00003FFF#32 0#32) 1#5 0x001#12) = false ∧
    ((storeAddr (vector 0x00003FFF#32 0#32) 1#5 0x000#12).toNat % 2 ≠ 0 ∧ vectorConfig.misalignedDataOk = false) ∧
    ((storeAddr (vector 0x00003FFE#32 0#32) 1#5 0x000#12).toNat % 4 ≠ 0 ∧ vectorConfig.misalignedDataOk = false) ∧
    ((storeAddr (vector 0x00004000#32 0#32) 1#5 0x000#12).toNat % 2 = 0 ∧
      validAddr vectorConfig (storeAddr (vector 0x00004000#32 0#32) 1#5 0x000#12 + BitVec.ofNat 32 0) = false) ∧
    (permissiveConfig.misalignedDataOk = true ∧ validAddr permissiveConfig
      (storeAddr (stateWith permissiveConfig 0x00003FFD#32 0#32 0x100#32 []) 1#5 0x000#12 + BitVec.ofNat 32 3) = false) :=
  by decide

/-- The access wraps round the end of the space. -/
theorem witness_MisalignedAccessesPerformed :
    let s := stateWith wholeConfig 0xFFFFFFFF#32 0#32 0x100#32 []
    s.cfg.misalignedDataOk = true ∧
    (∀ k, k < 2 → validAddr s.cfg (loadAddr s 1#5 0x000#12 + BitVec.ofNat 32 k) = true) ∧
    (∀ k, k < 4 → validAddr s.cfg (loadAddr s 1#5 0x000#12 + BitVec.ofNat 32 k) = true) ∧
    (∀ k, k < 2 → validAddr s.cfg (storeAddr s 1#5 0x000#12 + BitVec.ofNat 32 k) = true) ∧
    (∀ k, k < 4 → validAddr s.cfg (storeAddr s 1#5 0x000#12 + BitVec.ofNat 32 k) = true) := by decide

/-- The state a store that completes leaves. -/
def afterStore (w : Width) : State :=
  advance (storeBytes (vector 0x1000#32 0x12345678#32) w 0x1000#32 ((0x12345678#32).extractLsb' 0 w.bits))

theorem witness_LoadAfterStoreReturnsTheValue :
    exec (.sw 1#5 2#5 0#12) (vector 0x1000#32 0x12345678#32) = .next (afterStore .word) ∧
    exec (.sh 1#5 2#5 0#12) (vector 0x1000#32 0x12345678#32) = .next (afterStore .half) ∧
    exec (.sb 1#5 2#5 0#12) (vector 0x1000#32 0x12345678#32) = .next (afterStore .byte) ∧
    ∀ w, (afterStore w).answered = (vector 0x1000#32 0x12345678#32).answered := ⟨rfl, rfl, rfl, fun _ => rfl⟩

/-- Each condition true and false with its own operands; the last backward and the last forward
aligned target, and the last forward one, which is misaligned. -/
theorem witness_BranchResults :
    (getReg (vector 7#32 7#32) 1#5 = getReg (vector 7#32 7#32) 2#5 ∧
      ¬ getReg (vector 7#32 8#32) 1#5 = getReg (vector 7#32 8#32) 2#5) ∧
    (getReg (vector 7#32 8#32) 1#5 ≠ getReg (vector 7#32 8#32) 2#5 ∧
      ¬ getReg (vector 7#32 7#32) 1#5 ≠ getReg (vector 7#32 7#32) 2#5) ∧
    ((getReg (vector 0x80000000#32 0x7FFFFFFF#32) 1#5).toInt < (getReg (vector 0x80000000#32 0x7FFFFFFF#32) 2#5).toInt ∧
      ¬ (getReg (vector 5#32 5#32) 1#5).toInt < (getReg (vector 5#32 5#32) 2#5).toInt) ∧
    ((getReg (vector 0#32 0xFFFFFFFF#32) 1#5).toNat < (getReg (vector 0#32 0xFFFFFFFF#32) 2#5).toNat ∧
      ¬ (getReg (vector 5#32 5#32) 1#5).toNat < (getReg (vector 5#32 5#32) 2#5).toNat) ∧
    ((getReg (vector 5#32 5#32) 2#5).toInt ≤ (getReg (vector 5#32 5#32) 1#5).toInt ∧
      ¬ (getReg (vector 0x80000000#32 0x7FFFFFFF#32) 2#5).toInt ≤
        (getReg (vector 0x80000000#32 0x7FFFFFFF#32) 1#5).toInt) ∧
    ((getReg (vector 5#32 5#32) 2#5).toNat ≤ (getReg (vector 5#32 5#32) 1#5).toNat ∧
      ¬ (getReg (vector 0#32 0xFFFFFFFF#32) 2#5).toNat ≤ (getReg (vector 0#32 0xFFFFFFFF#32) 1#5).toNat) ∧
    (0xFFFFF100#32 = (vector 7#32 7#32).pc + BitVec.ofInt 32 (0x1000#13).toInt ∧ (0xFFFFF100#32).toNat % 4 = 0) ∧
    (0x000010FC#32 = (vector 7#32 7#32).pc + BitVec.ofInt 32 (0x0FFC#13).toInt ∧ (0x000010FC#32).toNat % 4 = 0) ∧
    (0x000010FE#32 = (vector 7#32 7#32).pc + BitVec.ofInt 32 (0x0FFE#13).toInt ∧ (0x000010FE#32).toNat % 4 ≠ 0) := by
  decide

theorem witness_JumpAndLinkResult :
    (0xFFF00100#32 = (vector 0#32 0#32).pc + BitVec.ofInt 32 (0x100000#21).toInt ∧ (0xFFF00100#32).toNat % 4 = 0) ∧
    (0x001000FE#32 = (vector 0#32 0#32).pc + BitVec.ofInt 32 (0x0FFFFE#21).toInt ∧ (0x001000FE#32).toNat % 4 ≠ 0) := by
  decide

/-- Both settings of `JALR_CLEAR_BIT0`, an aligned and a misaligned target under each. -/
theorem witness_JumpAndLinkRegisterResult :
    let s := vector 0x2000#32 0x2001#32
    let p := stateWith permissiveConfig 0x2001#32 0x2003#32 0x100#32 []
    (0x2000#32 = getReg s 1#5 + BitVec.ofInt 32 (0x000#12).toInt ∧ s.cfg.jalrClearBit0 = false ∧
      (0x2000#32).toNat % 4 = 0) ∧
    (0x2001#32 = getReg s 2#5 + BitVec.ofInt 32 (0x000#12).toInt ∧ (0x2001#32).toNat % 4 ≠ 0) ∧
    (0x2001#32 = getReg p 1#5 + BitVec.ofInt 32 (0x000#12).toInt ∧ p.cfg.jalrClearBit0 = true ∧
      (0x2000#32).toNat = (0x2001#32).toNat / 2 * 2 ∧ (0x2000#32).toNat % 4 = 0) ∧
    (0x2003#32 = getReg p 2#5 + BitVec.ofInt 32 (0x000#12).toInt ∧
      (0x2002#32).toNat = (0x2003#32).toNat / 2 * 2 ∧ (0x2002#32).toNat % 4 ≠ 0) := by decide

/-- Environments that answer and environments that halt: by a sequence before and after its last answer, by a table, by
default. -/
theorem witness_TrapGoesToTheEnvironment :
    let s := stateWith scriptConfig 0#32 0#32 0x00000100#32 []
    let u := stateWith servicesConfig 0#32 0#32 0x00000100#32 []
    answerTo s (.breakpoint 0x00000100#32) = some answer ∧
    answerTo (s.setAnswered 1) (.breakpoint 0x00000100#32) = none ∧
    (∃ a, answerTo u (.environmentCall 0x00000100#32) = some a) ∧
    answerTo u (.breakpoint 0x00000100#32) = none ∧ answerTo (vector 0#32 0#32) (.environmentCall 0x00000100#32) = none :=
  ⟨rfl, rfl, ⟨_, rfl⟩, rfl, rfl⟩

/-- Both instructions, answered and not. -/
theorem witness_EnvironmentInstructionsTrap :
    let s := stateWith scriptConfig 0#32 0#32 0x00000100#32 []
    answerTo s (.environmentCall s.pc) = some answer ∧ answerTo s (.breakpoint s.pc) = some answer ∧
    answerTo (vector 0#32 0#32) (.environmentCall (vector 0#32 0#32).pc) = none ∧
    answerTo (vector 0#32 0#32) (.breakpoint (vector 0#32 0#32).pc) = none := ⟨rfl, rfl, rfl, rfl⟩

/-- A machine of each form; for the table two states that differ in the count of answers, and a cause it does not
serve. -/
theorem witness_EnvironmentForms :
    let s := stateWith servicesConfig 0#32 0#32 0x00000100#32 []
    (vector 0#32 0#32).cfg.env = .halt ∧ (stateWith scriptConfig 0#32 0#32 0#32 []).cfg.env = .script [answer] ∧
    (s.cfg.env = (s.setAnswered 5).cfg.env ∧ s.regs = (s.setAnswered 5).regs ∧ s.pc = (s.setAnswered 5).pc ∧
      s.mem = (s.setAnswered 5).mem ∧ s ≠ s.setAnswered 5) ∧
    (stateWith { vectorConfig with env := .services [⟨.environmentCall, [], 4#32, [], []⟩] } 0#32 0#32 0#32 []).cfg.env =
      .services [⟨.environmentCall, [], 4#32, [], []⟩] ∧
    (Fault.breakpoint 0#32).cause ≠ .environmentCall ∧
    (stateWith { vectorConfig with env := .function 7 } 0#32 0#32 0#32 []).cfg.env = .function 7 :=
  ⟨rfl, rfl, ⟨rfl, rfl, rfl, rfl, by decide⟩, rfl, by decide, rfl⟩

/-- An instruction that completes; and two states that differ in a register it does not read. -/
theorem witness_RegistersReadAndWritten :
    (exec (.addi 3#5 1#5 1#12) (vector 1#32 2#32) = .next (retire (vector 1#32 2#32) 3#5 2#32) ∧
      (retire (vector 1#32 2#32) 3#5 2#32).answered = (vector 1#32 2#32).answered) ∧
    ((∀ r, r ∈ reads (.addi 3#5 1#5 1#12) → getReg (vector 1#32 2#32) r = getReg (vector 1#32 9#32) r) ∧
      (vector 1#32 2#32).pc = (vector 1#32 9#32).pc ∧ (vector 1#32 2#32).mem = (vector 1#32 9#32).mem ∧
      (vector 1#32 2#32).written = (vector 1#32 9#32).written ∧ (vector 1#32 2#32).cfg = (vector 1#32 9#32).cfg) := by
  refine ⟨⟨rfl, rfl⟩, fun r hr => ?_, rfl, rfl, rfl, rfl⟩
  simp only [reads, List.mem_singleton] at hr
  subst hr; decide

theorem witness_OnlyStoresChangeMemory :
    exec (.sw 1#5 2#5 0#12) (vector 0x1000#32 0x12345678#32) = .next (afterStore .word) ∧
    (afterStore .word).answered = (vector 0x1000#32 0x12345678#32).answered ∧
    0x00000FFF#32 ∉ storedTo (vector 0x1000#32 0x12345678#32) (.sw 1#5 2#5 0#12) ∧
    0x00001004#32 ∉ storedTo (vector 0x1000#32 0x12345678#32) (.sw 1#5 2#5 0#12) := ⟨rfl, rfl, by decide, by decide⟩

theorem witness_NextPcOfEveryInstruction :
    exec (.sw 1#5 2#5 0#12) (vector 0x1000#32 0x12345678#32) = .next (afterStore .word) ∧
    (afterStore .word).answered = (vector 0x1000#32 0x12345678#32).answered := ⟨rfl, rfl⟩

/-- A state that meets the invariant, with stored bytes and an environment that answers, whose step goes on by an
instruction; and one whose step goes on by an answer. -/
def running : State :=
  ((stateWith scriptConfig 7#32 8#32 0x00000100#32 vectorMem).setWritten [0x1000, 0xFFFFFFFF]).withFetchWord 32 0x002081B3
def calling : State := (stateWith servicesConfig 7#32 8#32 0x00000100#32 vectorMem).withFetchWord 32 0x00000073

theorem scriptConfig_ok : ConfigOk scriptConfig :=
  ⟨by decide, envOk_script rfl (by simp only [List.mem_singleton, forall_eq]; decide)⟩

theorem servicesConfig_ok : ConfigOk servicesConfig :=
  ⟨by decide, envOk_services rfl (by simp only [List.mem_singleton, forall_eq]; decide)⟩

theorem witness_StepKeepsTheInvariant :
    running.Inv ∧ step running = .next (retire running 3#5 15#32) ∧ calling.Inv ∧ ∃ t, step calling = .next t :=
  ⟨⟨by decide, by decide, by decide, scriptConfig_ok⟩, rfl, ⟨by decide, by decide, by decide, servicesConfig_ok⟩,
    ⟨_, rfl⟩⟩

theorem witness_PcStaysAligned :
    (∀ e a, answerTo running e = some a → a.pc.toNat % 4 = 0) ∧
    step running = .next (retire running 3#5 15#32) := by
  refine ⟨fun e a h => ?_, rfl⟩
  cases h; decide

theorem witness_ParametersNeverChange : step running = .next (retire running 3#5 15#32) := rfl

theorem witness_WrittenRecordsEveryStore :
    step running = .next (retire running 3#5 15#32) ∧ 0xFFFFFFFF ∈ running.written ∧
    (retire running 3#5 15#32).answered = running.answered ∧
    (0xFFFFFFFE#32).toNat ∉ (retire running 3#5 15#32).written := ⟨rfl, by decide, rfl, by decide⟩

/-- The store clause: a store, over the last byte of `MEM_VALID`, of the byte already there. -/
theorem witness_WrittenRecordsEveryStore_store :
    let s := (vector 0x00003FFF#32 0#32).withFetchWord 32 0x00208023
    fetch s = .word 0x00208023#32 ∧ decodeWord s.cfg.hasMul 0x00208023#32 = .ok (.sb 1#5 2#5 0#12) ∧
    (∃ t, step s = .next t ∧ t.answered = s.answered) ∧ 0x00003FFF#32 ∈ storedTo s (.sb 1#5 2#5 0#12) :=
  ⟨by decide, by decide, ⟨_, rfl, rfl⟩, by decide⟩

theorem witness_ResetMeetsTheInvariant :
    ConfigOk Config.default ∧ ConfigOk scriptConfig ∧ ConfigOk servicesConfig :=
  ⟨⟨by decide, envOk_halt rfl⟩, scriptConfig_ok, servicesConfig_ok⟩

/-- `RESET_PC` no multiple of 4; its first byte outside; only its last byte outside; and the last word of `MEM_VALID`. -/
theorem witness_FirstStepAfterReset :
    (0x00000001#32).toNat % 4 ≠ 0 ∧ validAddr vectorConfig (0x00004000#32 + BitVec.ofNat 32 0) = false ∧
    validAddr { vectorConfig with memValid := [⟨0x00000000#32, 0x00003FFE#32⟩] } (0x00003FFC#32 + BitVec.ofNat 32 3) =
      false ∧
    ((0x00003FFC#32).toNat % 4 = 0 ∧ ∀ k, k < 4 → validAddr vectorConfig (0x00003FFC#32 + BitVec.ofNat 32 k) = true) := by
  decide

theorem witness_ResetLeaves : 0 < (1#5).toNat ∧ 0 < (31#5).toNat := by decide

theorem witness_WholeMemoryNeverAccessFaults (a : Word) :
    validAddr State.reset.cfg a = true ∧ State.reset.pc.toNat % 4 = 0 := by
  refine ⟨?_, by decide⟩
  simp [validAddr, Region.contains, State.reset, State.boot, Config.default, BitVec.ule]; omega

/-- Two histories of writes, in both orders, at the two ends of the space. -/
theorem witness_EqualReadsAreEqualMemories :
    let m := Memory.set (Memory.set [] 0 1#8) 0xFFFFFFFF 2#8
    let n := Memory.set (Memory.set [] 0xFFFFFFFF 2#8) 0 1#8
    Memory.wf m = true ∧ Memory.wf n = true ∧ ∀ a, a < 2 ^ 32 → Memory.byte m a = Memory.byte n a := by
  refine ⟨by decide, by decide, fun a _ => ?_⟩
  simp only [Memory.byte_set]
  split <;> split <;> first | rfl | omega

theorem witness_PcWrapsAtTheTop :
    let s := stateWith wholeConfig 0x100#32 0#32 0xFFFFFFFC#32 []
    s.pc = 0xFFFFFFFC#32 ∧
    (sequential (.sw 1#5 2#5 0#12) = true ∧
      ∃ t, exec (.sw 1#5 2#5 0#12) s = .next t ∧ t.answered = s.answered) ∧
    getReg s 1#5 ≠ getReg s 2#5 ∧ 1#5 ≠ 0#5 ∧ (jalTarget s 0x000008#21).toNat % 4 = 0 ∧
    (jalrTarget s 1#5 0x004#12).toNat % 4 = 0 :=
  ⟨rfl, ⟨rfl, _, rfl, rfl⟩, by decide, by decide, by decide, by decide⟩

/-- The three ways a run ends, one of them by an illegal word. -/
theorem witness_EndOfRun :
    (∀ e, answerTo (vector 0#32 0#32) e = none) ∧
    fetch ((vector 0#32 0#32).withFetchWord 32 0x00000073) = .word 0x00000073#32 ∧
    fetch ((vector 0#32 0#32).withFetchWord 32 0x00100073) = .word 0x00100073#32 ∧
    (step ((vector 0#32 0#32).withFetchWord 32 0) = .fault (.illegalInstruction 0#32) ∧
      fetch ((vector 0#32 0#32).withFetchWord 32 0) = .word 0#32) :=
  ⟨answerTo_halt rfl, by decide, by decide, rfl, by decide⟩

/-- The farthest labels each form reaches, aligned, and registers that hold an aligned target. -/
theorem witness_PseudoJumpsAndBranches :
    let s := vector 0x2000#32 0x3FFC#32
    (evenOffset 0x1000#13 = true ∧ 0xFFFFF100#32 = s.pc + BitVec.ofInt 32 (0x1000#13).toInt ∧
      (0xFFFFF100#32).toNat % 4 = 0) ∧
    (evenOffset 0x0FFC#13 = true ∧ 0x000010FC#32 = s.pc + BitVec.ofInt 32 (0x0FFC#13).toInt ∧
      (0x000010FC#32).toNat % 4 = 0) ∧
    (evenOffset 0x100000#21 = true ∧ 0xFFF00100#32 = s.pc + BitVec.ofInt 32 (0x100000#21).toInt ∧
      (0xFFF00100#32).toNat % 4 = 0) ∧
    (evenOffset 0x0FFFFC#21 = true ∧ 0x001000FC#32 = s.pc + BitVec.ofInt 32 (0x0FFFFC#21).toInt ∧
      (0x001000FC#32).toNat % 4 = 0) ∧
    (getReg s 2#5).toNat % 4 = 0 ∧ (getReg s 1#5).toNat % 4 = 0 := by decide

/-- The last forward labels, which are misaligned, with a register that is 0 and one that is not; and registers that hold a
misaligned target. -/
theorem witness_PseudoJumpsAndBranches_misaligned :
    let s := vector 0x2001#32 0x0003#32
    (evenOffset 0x0FFE#13 = true ∧ 0x000010FE#32 = s.pc + BitVec.ofInt 32 (0x0FFE#13).toInt ∧
      (0x000010FE#32).toNat % 4 ≠ 0 ∧ getReg s 0#5 = 0#32 ∧ getReg s 1#5 ≠ 0#32) ∧
    (evenOffset 0x0FFFFE#21 = true ∧ 0x001000FE#32 = s.pc + BitVec.ofInt 32 (0x0FFFFE#21).toInt ∧
      (0x001000FE#32).toNat % 4 ≠ 0) ∧
    (getReg s 1#5).toNat % 4 ≠ 0 ∧ (getReg s 2#5).toNat % 4 ≠ 0 ∧ s.cfg.jalrClearBit0 = false := by decide

/-- A shift word with a funct7 of no row. -/
theorem witness_ShiftImmediateResults :
    (opcodeOf 0x02009193#32 = 0x13#7 ∧ funct3Of 0x02009193#32 = 1#3 ∧ funct7Of 0x02009193#32 ≠ 0x00#7) ∧
    (opcodeOf 0x6000D193#32 = 0x13#7 ∧ funct3Of 0x6000D193#32 = 5#3 ∧ funct7Of 0x6000D193#32 ≠ 0x00#7 ∧
      funct7Of 0x6000D193#32 ≠ 0x20#7) := by decide

end Sys2Proof.Tests
end

section
/-! PROOFS for `00_scope.md`: what a step that goes on can do to the state, what a table of services answers, and the
statements about the step, the parameters and the forms of `ENV`. -/

namespace Sys2Proof.Machine

/-! ## A step whose fetch and decode succeed -/

/-- The rule of R14 for a word that decodes. -/
theorem step_of_fetch_decode {s : State} {inst : Word} {i : Instr} (hf : fetch s = .word inst)
    (hd : decodeWord s.cfg.hasMul inst = .ok i) : step s = exec i s := by
  simp [step, hf, hd]

/-- A span none of whose bytes is in `Written` is not stale. -/
theorem staleSpan_eq_false {s : State} {a : Word} {n : Nat}
    (h : ∀ k, k < n → (a + BitVec.ofNat 32 k).toNat ∉ s.written) : staleSpan s a n = false := by
  rw [Bool.eq_false_iff, Ne, staleSpan_iff_offsets]
  exact fun ⟨k, hk, hw⟩ => h k hk hw

/-- Settles O9: the fetch gives the four bytes as a word (R46), and that word decodes to `i`. -/
theorem stepRunsTheDecodedInstruction : Obligations.StepRunsTheDecodedInstruction := by
  unfold Obligations.StepRunsTheDecodedInstruction
  intro s i hpc hvalid hfresh hdecode
  have hfetch : fetch s = .word (s.mem.read s.pc .word) :=
    fetch_word.2 ⟨aligned4_iff.2 hpc, validSpan_iff_offsets.2 hvalid, staleSpan_eq_false hfresh, rfl⟩
  exact step_of_fetch_decode hfetch hdecode

/-! ## What an instruction that goes on does -/

/-- The states an instruction can go on to: at most one register and `pc` written, a store's bytes written and `pc`
advanced, or the state an environment supplied for a trap. -/
inductive GoesOn (s : State) : State → Prop
  | writesReg (rd : RegNum) (v p : Word) : GoesOn s ((setReg s rd v).setPc p)
  | stores (w : Width) (a : Word) (v : BitVec w.bits) : GoesOn s (advance (storeBytes s w a v))
  | resumes {e : Fault} {a : Resumption} (h : answerTo s e = some a) : GoesOn s (resume s a)

section GoesOn
variable {s t : State}

theorem goesOn_retire (s : State) (rd : RegNum) (v : Word) : GoesOn s (retire s rd v) := .writesReg rd v _

/-- An instruction that writes no register is one that writes `x0`. -/
theorem goesOn_setPc (s : State) (p : Word) : GoesOn s (s.setPc p) := .writesReg 0#5 0#32 p

theorem goesOn_of_retire {rd : RegNum} {v : Word} (h : (.next (retire s rd v) : Outcome) = .next t) : GoesOn s t := by
  cases h; exact goesOn_retire s rd v

theorem goesOn_of_raise {e : Fault} (h : raise e s = .next t) : GoesOn s t := by
  obtain ⟨a, ha, rfl⟩ := raise_next h
  exact .resumes ha

theorem goesOn_of_load {w : Width} {ext : BitVec w.bits → Word} {rd rs1 : RegNum} {imm : BitVec 12}
    (h : load w ext rd rs1 imm s = .next t) : GoesOn s t := by
  rw [load_eq] at h
  split at h
  · exact goesOn_of_raise h
  · split at h
    · exact goesOn_of_retire h
    · exact goesOn_of_raise h

theorem goesOn_of_store {w : Width} {rs1 rs2 : RegNum} {imm : BitVec 12}
    (h : store w rs1 rs2 imm s = .next t) : GoesOn s t := by
  rw [store_eq] at h
  split at h
  · exact goesOn_of_raise h
  · split at h
    · cases h; exact .stores w _ _
    · exact goesOn_of_raise h

theorem goesOn_of_branch {cond : Word → Word → Bool} {rs1 rs2 : RegNum} {offset : BitVec 13}
    (h : branch cond rs1 rs2 offset s = .next t) : GoesOn s t := by
  rw [branch_eq] at h
  split at h
  · split at h
    · cases h; exact goesOn_setPc s _
    · exact goesOn_of_raise h
  · cases h; exact goesOn_setPc s _

theorem goesOn_of_jumpAndLink {rd : RegNum} {target : Word} (h : jumpAndLink rd target s = .next t) :
    GoesOn s t := by
  rw [jumpAndLink_eq] at h
  split at h
  · cases h; exact .writesReg rd _ _
  · exact goesOn_of_raise h

/-- Every instruction, by the shape of its meaning. -/
theorem goesOn_of_exec {i : Instr} (h : exec i s = .next t) : GoesOn s t := by
  cases i with
  | add | sub | and | or | xor | sll | srl | sra | slt | sltu | addi | andi | ori | xori | slli | srli | srai | slti
  | sltiu | auipc | lui | mul => exact goesOn_of_retire h
  | lb | lbu | lh | lhu | lw => exact goesOn_of_load h
  | sb | sh | sw => exact goesOn_of_store h
  | beq | bne | blt | bltu | bge | bgeu => exact goesOn_of_branch h
  | jal | jalr => exact goesOn_of_jumpAndLink h
  | ebreak | ecall => exact goesOn_of_raise h

/-- Every step, an answered trap of its fetch or decode included. -/
theorem goesOn_of_step (h : step s = .next t) : GoesOn s t := by
  obtain ⟨_, _, _, _, hexec⟩ | ⟨e, a, ha, rfl⟩ := step_next h
  · exact goesOn_of_exec hexec
  · exact .resumes ha

theorem GoesOn.cfg_eq (h : GoesOn s t) : t.cfg = s.cfg := by
  cases h with
  | writesReg rd v p => rw [State.setPc_cfg, setReg_cfg]
  | stores w a v => rw [advance_cfg, storeBytes_cfg]
  | resumes ha => rw [resume_cfg]

end GoesOn

/-- Settles O50: every state a step goes on to keeps the parameters. -/
theorem parametersNeverChange : Obligations.ParametersNeverChange := by
  unfold Obligations.ParametersNeverChange
  exact fun _ _ h => (goesOn_of_step h).cfg_eq

/-! ## What a table of services answers -/

/-- Of a state, a register write sees the registers alone. -/
theorem setReg_regs_congr {s u : State} (h : s.regs = u.regs) (r : RegNum) (v : Word) :
    (setReg s r v).regs = (setReg u r v).regs := by
  unfold setReg
  split
  · exact h
  · simp [h]

theorem foldl_setReg_regs_congr {s u : State} (h : s.regs = u.regs) (l : List (RegNum × Word)) :
    (l.foldl (fun t w => setReg t w.1 w.2) s).regs = (l.foldl (fun t w => setReg t w.1 w.2) u).regs := by
  induction l generalizing s u with
  | nil => exact h
  | cons w rest ih => exact ih (setReg_regs_congr h w.1 w.2)

/-- A line of a table sees registers, `pc` and memory alone, not the count of answers. -/
theorem serve_congr {s u : State} (hregs : s.regs = u.regs) (hpc : s.pc = u.pc) (hmem : s.mem = u.mem) (v : Service) :
    serve s v = serve u v := by
  simp only [serve, foldl_setReg_regs_congr hregs, hpc, hmem]

theorem answerTo_services_congr {s u : State} {table : List Service} (hs : s.cfg.env = .services table)
    (hu : u.cfg.env = .services table) (hregs : s.regs = u.regs) (hpc : s.pc = u.pc) (hmem : s.mem = u.mem)
    (e : Fault) : answerTo s e = answerTo u e := by
  rw [answerTo_services hs, answerTo_services hu]
  exact congrArg (fun f => Option.map f _) (funext (serve_congr hregs hpc hmem))

/-- The line of a table that skips each `ecall` and changes nothing else (R225). -/
def skipEcall : Service := ⟨.environmentCall, [], 4#32, [], []⟩

theorem serve_skipEcall (s : State) : serve s skipEcall = ⟨s.regs, s.pc + 4#32, s.mem, []⟩ := rfl

/-- The table of that one line goes on after each `ecall`, at a state that has the table still. -/
theorem exec_ecall_skipEcall {s : State} (h : s.cfg.env = .services [skipEcall]) :
    exec .ecall s = .next (resume s (serve s skipEcall)) := by
  have hanswer : answerTo s (.environmentCall s.pc) = some (serve s skipEcall) := by
    rw [answerTo_services h]; rfl
  exact raise_resume hanswer

theorem answerTo_skipEcall_of_ne {s : State} (h : s.cfg.env = .services [skipEcall]) {e : Fault}
    (he : e.cause ≠ .environmentCall) : answerTo s e = none := by
  have hline : (skipEcall.cause == e.cause) = false := beq_false_of_ne he.symm
  simp [answerTo_services h, hline]

/-- Settles O39, a form at a time. -/
theorem environmentForms : Obligations.EnvironmentForms := by
  unfold Obligations.EnvironmentForms
  refine ⟨fun s e h => answerTo_halt h e, fun s e l h => answerTo_script h e, ?table, ?skip,
    fun s e k h => answerTo_function h e⟩
  case table =>
    exact fun s u e table hs hu hregs hpc hmem => answerTo_services_congr hs hu hregs hpc hmem e
  case skip =>
    intro s h
    refine ⟨⟨_, exec_ecall_skipEcall h, ?_⟩, fun e he => raise_halt (answerTo_skipEcall_of_ne h he)⟩
    rw [serve_skipEcall]
    exact ⟨fun _ => rfl, fun _ => rfl, rfl, rfl, rfl⟩

end Sys2Proof.Machine
end

section
/-! PROOFS for `10_state.md`: an instruction as a plan made from what it reads and an effect applied to the state, held to
the tables of R24, R27, R50 and R220; and the statements about registers, `pc`, reset and the invariant. -/

namespace Sys2Proof.Machine

/-! ## `x0` and reset -/

/-- Settles O49: `x0` has no storage. -/
theorem registerZeroIsConstant : Obligations.RegisterZeroIsConstant := by
  unfold Obligations.RegisterZeroIsConstant
  exact fun s v => ⟨getReg_zero s, setReg_zero s v⟩

/-- A register other than `x0` is its slot of the storage (R21). -/
theorem getReg_of_pos (s : State) {r : RegNum} (h : 0 < r.toNat) :
    getReg s r = s.regs[r.toNat - 1]'(by have := r.isLt; omega) := by
  rw [getReg, dif_neg (Nat.ne_of_gt h)]

/-- Settles O48, field by field of `State.boot`. -/
theorem resetLeaves : Obligations.ResetLeaves := by
  unfold Obligations.ResetLeaves
  exact fun cfg x => ⟨getReg_zero _, rfl, fun _ => rfl, rfl, fun _ h => getReg_of_pos (State.boot cfg x) h⟩

theorem configOk_iff {cfg : Config} :
    configOk cfg = true ↔ aligned4 cfg.resetPc = true ∧ memoryOk cfg cfg.memInit = true := by
  simp [configOk]

/-- What reset takes over of the parameters is what makes them admissible (R37, R38). -/
theorem boot_inv {cfg : Config} (x : Regs) (h : ConfigOk cfg) : (State.boot cfg x).Inv := by
  obtain ⟨hpc, hmem⟩ := configOk_iff.1 h.plain
  exact ⟨hpc, hmem, rfl, h⟩

theorem configOk_default : ConfigOk Config.default := ⟨by decide, envOk_halt rfl⟩

/-- Settles O46: the host's setting is one of the admissible ones. -/
theorem resetMeetsTheInvariant : Obligations.ResetMeetsTheInvariant := by
  unfold Obligations.ResetMeetsTheInvariant
  exact ⟨fun _ x h => boot_inv x h, boot_inv _ configOk_default⟩

/-! ## What an instruction that completes does to the state -/

/-- What an instruction writes beside `pc`: nothing, one register, or the bytes of one store. -/
inductive Update
  | nothing
  | reg (rd : RegNum) (v : Word)
  | bytes (w : Width) (a : Word) (v : BitVec w.bits)

/-- The state with an update made. -/
def Update.apply (s : State) : Update → State
  | .nothing => s
  | .reg rd v => setReg s rd v
  | .bytes w a v => storeBytes s w a v

/-- The register an update names. -/
def Update.dest : Update → Option RegNum
  | .reg rd _ => some rd
  | .nothing | .bytes _ _ _ => none

/-- The addresses an update stores to. -/
def Update.addrs : Update → List Word
  | .bytes w a _ => span a w.bytes
  | .nothing | .reg _ _ => []

/-- All that an instruction that completes does: an update, and the next `pc`. -/
structure Effect where
  update : Update
  pc : Word

/-- The state an effect leaves. -/
def Effect.apply (s : State) (e : Effect) : State := (e.update.apply s).setPc e.pc

section Update
variable (s : State) (d : Update)

@[simp] theorem Update.apply_cfg : (d.apply s).cfg = s.cfg := by cases d <;> simp [Update.apply]
@[simp] theorem Update.apply_answered : (d.apply s).answered = s.answered := by cases d <;> simp [Update.apply]

/-- An update writes no register but the one it names. -/
theorem Update.getReg_apply_of_dest_ne {r : RegNum} (h : d.dest ≠ some r) : getReg (d.apply s) r = getReg s r := by
  cases d with
  | nothing => rfl
  | bytes w a v => rfl
  | reg rd v => exact getReg_setReg_of_ne s rd r v fun e => h (by rw [e]; rfl)

/-- What the named register reads after an update does not depend on the state. -/
theorem Update.getReg_apply_dest_congr {r : RegNum} (u : State) (h : d.dest = some r) :
    getReg (d.apply s) r = getReg (d.apply u) r := by
  cases d with
  | nothing => cases h
  | bytes w a v => cases h
  | reg rd v =>
    cases h
    by_cases h0 : r = 0#5
    · subst h0; rfl
    · exact (getReg_setReg_self s r v h0).trans (getReg_setReg_self u r v h0).symm

theorem Update.apply_mem_congr {s u : State} (h : s.mem = u.mem) : (d.apply s).mem = (d.apply u).mem := by
  cases d <;> simp [Update.apply, h]

theorem Update.apply_written_congr {s u : State} (h : s.written = u.written) :
    (d.apply s).written = (d.apply u).written := by
  cases d with
  | nothing => exact h
  | reg rd v => simpa [Update.apply] using h
  | bytes w a v => exact congrArg (AddrSet.markAll · _) h

end Update

section Effect
variable (s : State) (e : Effect)

@[simp] theorem Effect.apply_pc : (e.apply s).pc = e.pc := rfl
@[simp] theorem Effect.apply_mem : (e.apply s).mem = (e.update.apply s).mem := rfl
@[simp] theorem Effect.apply_written : (e.apply s).written = (e.update.apply s).written := rfl
@[simp] theorem Effect.apply_cfg : (e.apply s).cfg = s.cfg := e.update.apply_cfg s
@[simp] theorem Effect.apply_answered : (e.apply s).answered = s.answered := e.update.apply_answered s
@[simp] theorem Effect.getReg_apply (r : RegNum) : getReg (e.apply s) r = getReg (e.update.apply s) r := rfl

end Effect

theorem retire_eq_apply (s : State) (rd : RegNum) (v : Word) :
    retire s rd v = Effect.apply s ⟨.reg rd v, s.pc + 4#32⟩ := by
  rw [retire, advance, setReg_pc]; rfl

/-! ## The tables, and the states an instruction cannot tell apart -/

/-- An instruction's rows in R24, R50 and R27. -/
structure Footprint (i : Instr) (regs : List RegNum) (rd : Option RegNum) (addrs : State → List Word)
    (next : State → Word) : Prop where
  reads : reads i = regs
  dest : dest i = rd
  stored : ∀ s, storedTo s i = addrs s
  next : ∀ s, nextPc s i = next s

/-- Two states that agree on the registers an instruction reads and on all that is no register, the count of answers
apart. -/
structure Alike (i : Instr) (s u : State) : Prop where
  regs : ∀ r, r ∈ reads i → getReg s r = getReg u r
  pc : s.pc = u.pc
  mem : s.mem = u.mem
  written : s.written = u.written
  cfg : s.cfg = u.cfg

/-- An effect at `s` that the tables allow `i`, its stores inside `MEM_VALID` (R45), and which keeps `pc` a multiple of 4
(R28). -/
structure Fits (i : Instr) (s : State) (e : Effect) : Prop where
  dest : e.update.dest = dest i
  stored : e.update.addrs = storedTo s i
  next : e.pc = nextPc s i
  valid : ∀ b ∈ e.update.addrs, validAddr s.cfg b = true
  aligned : s.pc.toNat % 4 = 0 → e.pc.toNat % 4 = 0

/-- An instruction follows a plan: from what it reads, and from nothing else, it settles on an exception or an effect, which
the tables allow, and then raises the one or applies the other (R14). -/
structure Follows (i : Instr) (plan : State → Except Fault Effect) : Prop where
  exec_eq : ∀ s, exec i s = settle s ((plan s).map (Effect.apply s))
  raises : ∀ s e, plan s = .error e → e ∈ canRaise s i
  fits : ∀ s e, plan s = .ok e → Fits i s e
  congr : ∀ s u, Alike i s u → plan s = plan u

/-- `pc + 4` is a multiple of 4 where `pc` is (R28), over the end of the space too. -/
theorem add_four_aligned {p : Word} (h : p.toNat % 4 = 0) : (p + 4#32).toNat % 4 = 0 := by
  rw [BitVec.toNat_add]
  have : (4#32).toNat = 4 := rfl
  omega

/-! ## The plan of each shape of instruction -/

section Plans
variable {i : Instr} {s u : State} {rd rs1 rs2 : RegNum}

theorem map_eq_error {α β : Type} {x : Except Fault α} {f : α → β} {e : Fault} (h : x.map f = .error e) :
    x = .error e := by
  cases x with
  | error e' => cases h; rfl
  | ok a => cases h

theorem map_eq_ok {α β : Type} {x : Except Fault α} {f : α → β} {b : β} (h : x.map f = .ok b) :
    ∃ a, x = .ok a ∧ b = f a := by
  cases x with
  | error e => cases h
  | ok a => cases h; exact ⟨a, rfl, rfl⟩

/-- An update that stores nothing fits an instruction the tables let store nothing. -/
theorem Footprint.fits {regs : List RegNum} {d : Update} {p : Word} {next : State → Word}
    (hfoot : Footprint i regs d.dest (fun _ => []) next) (hd : d.addrs = []) (hp : p = next s)
    (haligned : s.pc.toNat % 4 = 0 → p.toNat % 4 = 0) : Fits i s ⟨d, p⟩ where
  dest := hfoot.dest.symm
  stored := hd.trans (hfoot.stored s).symm
  next := hp.trans (hfoot.next s).symm
  valid b hb := by rw [hd] at hb; cases hb
  aligned := haligned

/-! ### Computations -/

/-- The plan of an instruction that computes `g` into `rd`. -/
def computePlan (rd : RegNum) (g : State → Word) (s : State) : Except Fault Effect := .ok ⟨.reg rd (g s), s.pc + 4#32⟩

theorem follows_compute {regs : List RegNum} {g : State → Word} (hexec : ∀ s, exec i s = .next (retire s rd (g s)))
    (hfoot : Footprint i regs (some rd) (fun _ => []) (fun s => s.pc + 4#32))
    (hcongr : ∀ s u, Alike i s u → g s = g u) : Follows i (computePlan rd g) where
  exec_eq s := by rw [hexec, retire_eq_apply]; rfl
  raises _ _ h := by cases h
  fits s e h := by
    cases h
    exact hfoot.fits rfl rfl add_four_aligned
  congr s u h := by rw [computePlan, computePlan, hcongr s u h, h.pc]

theorem follows_regReg {f : Word → Word → Word} (hexec : ∀ s, exec i s = regReg f rd rs1 rs2 s)
    (hfoot : Footprint i [rs1, rs2] (some rd) (fun _ => []) (fun s => s.pc + 4#32)) :
    Follows i (computePlan rd fun s => f (getReg s rs1) (getReg s rs2)) :=
  follows_compute hexec hfoot fun s u h => by
    rw [h.regs rs1 (by simp [hfoot.reads]), h.regs rs2 (by simp [hfoot.reads])]

theorem follows_regImm {f : Word → Word → Word} {imm : BitVec 12} (hexec : ∀ s, exec i s = regImm f rd rs1 imm s)
    (hfoot : Footprint i [rs1] (some rd) (fun _ => []) (fun s => s.pc + 4#32)) :
    Follows i (computePlan rd fun s => f (getReg s rs1) (immI imm)) :=
  follows_compute hexec hfoot fun s u h => by rw [h.regs rs1 (by simp [hfoot.reads])]

theorem follows_regShift {f : Word → Nat → Word} {shamt : BitVec 5} (hexec : ∀ s, exec i s = regShift f rd rs1 shamt s)
    (hfoot : Footprint i [rs1] (some rd) (fun _ => []) (fun s => s.pc + 4#32)) :
    Follows i (computePlan rd fun s => f (getReg s rs1) shamt.toNat) :=
  follows_compute hexec hfoot fun s u h => by rw [h.regs rs1 (by simp [hfoot.reads])]

/-! ### Loads and stores -/

/-- A read sees memory and the parameters alone. -/
theorem memRead_congr (hmem : s.mem = u.mem) (hcfg : s.cfg = u.cfg) (w : Width) (a : Word) :
    memRead s w a = memRead u w a := by
  rw [memRead, memRead, hmem, hcfg]

/-- An access of one byte is never misaligned. -/
theorem misaligned_byte (cfg : Config) (a : Word) : misaligned cfg a Width.byte.bytes = false :=
  misaligned_eq_false.2 (.inl (Nat.mod_one _))

theorem memRead_error_mem {w : Width} {a : Word} {e : Fault} (h : memRead s w a = .error e) :
    e ∈ [.loadAddressMisaligned a, .loadAccessFault a] := by
  obtain ⟨-, rfl⟩ | ⟨-, -, rfl⟩ := memRead_error.1 h <;> simp

theorem memRead_byte_error_mem {a : Word} {e : Fault} (h : memRead s .byte a = .error e) :
    e ∈ [.loadAccessFault a] := by
  obtain ⟨hmis, -⟩ | ⟨-, -, rfl⟩ := memRead_error.1 h
  · rw [misaligned_byte] at hmis; cases hmis
  · simp

theorem memWrite_error_mem {w : Width} {a : Word} {v : BitVec w.bits} {e : Fault} (h : memWrite s w a v = .error e) :
    e ∈ [.storeAddressMisaligned a, .storeAccessFault a] := by
  obtain ⟨-, rfl⟩ | ⟨-, -, rfl⟩ := memWrite_error.1 h <;> simp

theorem memWrite_byte_error_mem {a : Word} {v : BitVec Width.byte.bits} {e : Fault}
    (h : memWrite s .byte a v = .error e) : e ∈ [.storeAccessFault a] := by
  obtain ⟨hmis, -⟩ | ⟨-, -, rfl⟩ := memWrite_error.1 h
  · rw [misaligned_byte] at hmis; cases hmis
  · simp

/-- The plan of a load. -/
def loadPlan (w : Width) (ext : BitVec w.bits → Word) (rd rs1 : RegNum) (imm : BitVec 12) (s : State) :
    Except Fault Effect :=
  (memRead s w (loadAddr s rs1 imm)).map fun v => ⟨.reg rd (ext v), s.pc + 4#32⟩

theorem follows_load {w : Width} {ext : BitVec w.bits → Word} {imm : BitVec 12}
    (hexec : ∀ s, exec i s = load w ext rd rs1 imm s)
    (hfoot : Footprint i [rs1] (some rd) (fun _ => []) (fun s => s.pc + 4#32))
    (hraise : ∀ s e, memRead s w (loadAddr s rs1 imm) = .error e → e ∈ canRaise s i) :
    Follows i (loadPlan w ext rd rs1 imm) where
  exec_eq s := by
    rw [hexec, load, loadPlan]
    cases memRead s w (loadAddr s rs1 imm) with
    | error e => rfl
    | ok v => exact congrArg Host.Outcome.next (retire_eq_apply s rd (ext v))
  raises s e h := hraise s e (map_eq_error h)
  fits s e h := by
    obtain ⟨v, -, rfl⟩ := map_eq_ok h
    exact hfoot.fits rfl rfl add_four_aligned
  congr s u h := by
    rw [loadPlan, loadPlan, loadAddr, loadAddr, h.regs rs1 (by simp [hfoot.reads]), h.pc,
      memRead_congr h.mem h.cfg]

/-- The plan of a store. -/
def storePlan (w : Width) (rs1 rs2 : RegNum) (imm : BitVec 12) (s : State) : Except Fault Effect :=
  (memWrite s w (storeAddr s rs1 imm) ((getReg s rs2).extractLsb' 0 w.bits)).map fun _ =>
    ⟨.bytes w (storeAddr s rs1 imm) ((getReg s rs2).extractLsb' 0 w.bits), s.pc + 4#32⟩

/-- The checks of a write see the parameters alone. -/
theorem memWrite_map_congr {α : Type} (hcfg : s.cfg = u.cfg) (w : Width) (a : Word) (v : BitVec w.bits) (x : α) :
    (memWrite s w a v).map (fun _ => x) = (memWrite u w a v).map (fun _ => x) := by
  rw [memWrite, memWrite, hcfg]
  split
  · rfl
  · split <;> rfl

theorem follows_store {w : Width} {imm : BitVec 12} (hexec : ∀ s, exec i s = store w rs1 rs2 imm s)
    (hfoot : Footprint i [rs1, rs2] none (fun s => span (storeAddr s rs1 imm) w.bytes) (fun s => s.pc + 4#32))
    (hraise : ∀ s v e, memWrite s w (storeAddr s rs1 imm) v = .error e → e ∈ canRaise s i) :
    Follows i (storePlan w rs1 rs2 imm) where
  exec_eq s := by
    rw [hexec, store, storePlan]
    cases hm : memWrite s w (storeAddr s rs1 imm) ((getReg s rs2).extractLsb' 0 w.bits) with
    | error e => rfl
    | ok t =>
      obtain ⟨-, -, rfl⟩ := memWrite_ok.1 hm
      rfl
  raises s e h := hraise s _ e (map_eq_error h)
  fits s e h := by
    obtain ⟨t, hwrite, rfl⟩ := map_eq_ok h
    obtain ⟨-, hvalid, -⟩ := memWrite_ok.1 hwrite
    exact ⟨hfoot.dest.symm, (hfoot.stored s).symm, (hfoot.next s).symm, validSpan_iff.1 hvalid, add_four_aligned⟩
  congr s u h := by
    rw [storePlan, storePlan, storeAddr, storeAddr, h.regs rs1 (by simp [hfoot.reads]),
      h.regs rs2 (by simp [hfoot.reads]), h.pc, memWrite_map_congr h.cfg]

/-! ### Control -/

/-- The plan of a jump to `t` that makes an update, or of a taken branch. -/
def jumpPlan (d : Update) (t : Word) : Except Fault Effect :=
  if t.toNat % 4 = 0 then .ok ⟨d, t⟩ else .error (.instructionAddressMisaligned t)

theorem jumpPlan_ok {d : Update} {t : Word} {e : Effect} (h : jumpPlan d t = .ok e) : t.toNat % 4 = 0 ∧ e = ⟨d, t⟩ := by
  unfold jumpPlan at h
  split at h
  · rename_i ht; cases h; exact ⟨ht, rfl⟩
  · cases h

theorem jumpPlan_error {d : Update} {t : Word} {e : Fault} (h : jumpPlan d t = .error e) :
    e = .instructionAddressMisaligned t := by
  unfold jumpPlan at h
  split at h <;> cases h
  rfl

theorem follows_jumpAndLink {regs : List RegNum} {target : State → Word}
    (hexec : ∀ s, exec i s = jumpAndLink rd (target s) s)
    (hfoot : Footprint i regs (some rd) (fun _ => []) target)
    (hraise : ∀ s, canRaise s i = [.instructionAddressMisaligned (target s)])
    (hcongr : ∀ s u, Alike i s u → target s = target u) :
    Follows i (fun s => jumpPlan (.reg rd (s.pc + 4#32)) (target s)) where
  exec_eq s := by
    rw [hexec, jumpAndLink_eq, jumpPlan]
    split <;> rfl
  raises s e h := by rw [jumpPlan_error h, hraise]; exact List.mem_singleton_self _
  fits s e h := by
    obtain ⟨ht, rfl⟩ := jumpPlan_ok h
    exact hfoot.fits rfl rfl fun _ => ht
  congr s u h := by rw [h.pc, hcongr s u h]

/-- The plan of a conditional branch. -/
def branchPlan (cond : Word → Word → Bool) (rs1 rs2 : RegNum) (offset : BitVec 13) (s : State) : Except Fault Effect :=
  if cond (getReg s rs1) (getReg s rs2) then jumpPlan .nothing (branchTarget s offset)
  else .ok ⟨.nothing, s.pc + 4#32⟩

theorem follows_branch {cond : Word → Word → Bool} {offset : BitVec 13}
    (hexec : ∀ s, exec i s = branch cond rs1 rs2 offset s)
    (hfoot : Footprint i [rs1, rs2] none (fun _ => [])
      (fun s => if cond (getReg s rs1) (getReg s rs2) then branchTarget s offset else s.pc + 4#32))
    (hraise : ∀ s, canRaise s i = [.instructionAddressMisaligned (branchTarget s offset)]) :
    Follows i (branchPlan cond rs1 rs2 offset) where
  exec_eq s := by
    rw [hexec, branch_eq, branchPlan, jumpPlan]
    split
    · split <;> rfl
    · rfl
  raises s e h := by
    unfold branchPlan at h
    split at h
    · rw [jumpPlan_error h, hraise]; exact List.mem_singleton_self _
    · cases h
  fits s e h := by
    unfold branchPlan at h
    split at h
    · rename_i hc
      obtain ⟨ht, rfl⟩ := jumpPlan_ok h
      exact hfoot.fits rfl (if_pos hc).symm fun _ => ht
    · rename_i hc
      cases h
      exact hfoot.fits rfl (if_neg hc).symm add_four_aligned
  congr s u h := by
    rw [branchPlan, branchPlan, branchTarget, branchTarget, h.regs rs1 (by simp [hfoot.reads]),
      h.regs rs2 (by simp [hfoot.reads]), h.pc]

/-! ### Traps -/

/-- An instruction whose whole effect is an exception that records `pc`. -/
theorem follows_raise {fault : Word → Fault} (hexec : ∀ s, exec i s = raise (fault s.pc) s)
    (hraise : ∀ s, canRaise s i = [fault s.pc]) : Follows i (fun s => .error (fault s.pc)) where
  exec_eq := hexec
  raises s e h := by cases h; rw [hraise]; exact List.mem_singleton_self _
  fits _ _ h := by cases h
  congr s u h := by rw [h.pc]

end Plans

/-! ## Every instruction follows a plan -/

/-- One arm for each shape, its rows of the tables read off. -/
theorem exec_follows (i : Instr) : ∃ plan, Follows i plan := by
  cases i with
  | add | sub | and | or | xor | sll | srl | sra | slt | sltu =>
    exact ⟨_, follows_regReg (fun _ => by rw [exec]; rfl) ⟨rfl, rfl, fun _ => rfl, fun _ => rfl⟩⟩
  | mul => exact ⟨_, follows_regReg (f := (· * ·)) (fun _ => rfl) ⟨rfl, rfl, fun _ => rfl, fun _ => rfl⟩⟩
  | addi | andi | ori | xori | slti | sltiu =>
    exact ⟨_, follows_regImm (fun _ => by rw [exec]; rfl) ⟨rfl, rfl, fun _ => rfl, fun _ => rfl⟩⟩
  | slli | srli | srai =>
    exact ⟨_, follows_regShift (fun _ => by rw [exec]; rfl) ⟨rfl, rfl, fun _ => rfl, fun _ => rfl⟩⟩
  | auipc rd immu =>
    exact ⟨_, follows_compute (g := fun s => s.pc + immU immu) (fun _ => rfl)
      ⟨rfl, rfl, fun _ => rfl, fun _ => rfl⟩ fun _ _ h => by rw [h.pc]⟩
  | lui rd immu =>
    exact ⟨_, follows_compute (g := fun _ => immU immu) (fun _ => rfl)
      ⟨rfl, rfl, fun _ => rfl, fun _ => rfl⟩ fun _ _ _ => rfl⟩
  | lb | lbu =>
    exact ⟨_, follows_load (fun _ => rfl) ⟨rfl, rfl, fun _ => rfl, fun _ => rfl⟩ fun _ _ => memRead_byte_error_mem⟩
  | lh | lhu | lw =>
    exact ⟨_, follows_load (fun _ => rfl) ⟨rfl, rfl, fun _ => rfl, fun _ => rfl⟩ fun _ _ => memRead_error_mem⟩
  | sb =>
    exact ⟨_, follows_store (fun _ => rfl) ⟨rfl, rfl, fun _ => rfl, fun _ => rfl⟩ fun _ _ _ => memWrite_byte_error_mem⟩
  | sh | sw =>
    exact ⟨_, follows_store (fun _ => rfl) ⟨rfl, rfl, fun _ => rfl, fun _ => rfl⟩ fun _ _ _ => memWrite_error_mem⟩
  | beq | bne | blt | bltu | bge | bgeu =>
    exact ⟨_, follows_branch (fun _ => rfl) ⟨rfl, rfl, fun _ => rfl, fun _ => rfl⟩ fun _ => rfl⟩
  | jal rd offset =>
    exact ⟨_, follows_jumpAndLink (target := (jalTarget · offset)) (fun _ => rfl)
      ⟨rfl, rfl, fun _ => rfl, fun _ => rfl⟩ (fun _ => rfl) fun s u h => by rw [jalTarget, jalTarget, h.pc]⟩
  | jalr rd rs1 imm =>
    exact ⟨_, follows_jumpAndLink (target := (jalrTarget · rs1 imm)) (fun _ => rfl)
      ⟨rfl, rfl, fun _ => rfl, fun _ => rfl⟩ (fun _ => rfl) fun s u h => by
        rw [jalrTarget, jalrTarget, h.cfg, h.regs rs1 (List.mem_singleton_self _)]⟩
  | ebreak => exact ⟨_, follows_raise (fault := .breakpoint) (fun _ => rfl) fun _ => rfl⟩
  | ecall => exact ⟨_, follows_raise (fault := .environmentCall) (fun _ => rfl) fun _ => rfl⟩

section Completes
variable {i : Instr} {s t u : State}

/-- An instruction that goes on has had an effect the tables allow it, or has trapped and gone on where the environment
said. -/
theorem exec_next (h : exec i s = .next t) :
    (∃ e, Fits i s e ∧ t = e.apply s) ∨ (∃ f, raise f s = .next t) := by
  obtain ⟨plan, hplan⟩ := exec_follows i
  rw [hplan.exec_eq] at h
  cases he : plan s with
  | error f => rw [he] at h; exact .inr ⟨f, h⟩
  | ok e => rw [he] at h; cases h; exact .inl ⟨e, hplan.fits s e he, rfl⟩

/-- One that has not asked the environment has had its effect. -/
theorem exec_completes (h : exec i s = .next t) (hans : t.answered = s.answered) :
    ∃ e, Fits i s e ∧ t = e.apply s := by
  obtain he | ⟨f, hf⟩ := exec_next h
  · exact he
  · have := raise_next_answered hf
    omega

/-- A step that goes on from an aligned `pc` has had such an effect, or has trapped and gone on where the environment
said; from any other `pc` it has trapped (R242). -/
theorem step_next_fits (h : step s = .next t) :
    (∃ i e, s.pc.toNat % 4 = 0 ∧ Fits i s e ∧ t = e.apply s) ∨ (∃ f a, answerTo s f = some a ∧ t = resume s a) := by
  obtain ⟨_, i, hfetch, -, hexec⟩ | htrap := step_next h
  · obtain ⟨haligned, -⟩ := fetch_word.1 hfetch
    obtain ⟨e, hfits, rfl⟩ | ⟨f, hf⟩ := exec_next hexec
    · exact .inl ⟨i, e, aligned4_iff.1 haligned, hfits, rfl⟩
    · exact .inr ⟨f, raise_next hf⟩
  · exact .inr htrap

/-- A plan is the same at states an instruction cannot tell apart, so what it leads to is the same. -/
theorem agreeOn_of_alike (h : Alike i s u) : AgreeOn i s u := by
  obtain ⟨plan, hplan⟩ := exec_follows i
  have hs := hplan.exec_eq s
  have hu := hplan.exec_eq u
  rw [← hplan.congr s u h] at hu
  cases hp : plan s with
  | error e =>
    rw [hp] at hs hu
    exact .inr ⟨e, hplan.raises s e hp, hs, hu⟩
  | ok e =>
    rw [hp] at hs hu
    refine .inl ⟨e.apply s, e.apply u, hs, hu, e.apply_answered s, e.apply_answered u, rfl,
      e.update.apply_mem_congr h.mem, e.update.apply_written_congr h.written, ?cfg, fun r hr => ?dest⟩
    case cfg => rw [e.apply_cfg, e.apply_cfg, h.cfg]
    case dest => exact e.update.getReg_apply_dest_congr s u ((hplan.fits s e hp).dest.trans hr)

end Completes

/-! ## Registers read and written -/

/-- Settles O41: the frame by the effect's one register, the reads by the plan. -/
theorem registersReadAndWritten : Obligations.RegistersReadAndWritten := by
  unfold Obligations.RegistersReadAndWritten
  refine ⟨fun i s t h hans r hr => ?_, fun i s u hregs hpc hmem hwritten hcfg =>
    agreeOn_of_alike ⟨hregs, hpc, hmem, hwritten, hcfg⟩⟩
  obtain ⟨e, hfits, rfl⟩ := exec_completes h hans
  exact e.update.getReg_apply_of_dest_ne s (hfits.dest ▸ hr)

/-! ## The next `pc` -/

/-- Settles O43: by the effect, whose `pc` is the table's. -/
theorem nextPcOfEveryInstruction : Obligations.NextPcOfEveryInstruction := by
  unfold Obligations.NextPcOfEveryInstruction
  intro i s t h hans
  obtain ⟨e, hfits, rfl⟩ := exec_completes h hans
  exact hfits.next

/-- Settles O44: a completed instruction keeps `pc` aligned, an answered trap leaves the answer's. -/
theorem pcStaysAligned : Obligations.PcStaysAligned := by
  unfold Obligations.PcStaysAligned
  intro s t henv h
  obtain ⟨i, e, haligned, hfits, rfl⟩ | ⟨f, a, ha, rfl⟩ := step_next_fits h
  · exact hfits.aligned haligned
  · exact henv f a ha

/-- R27's first row. -/
theorem nextPc_of_sequential {i : Instr} (s : State) (h : sequential i = true) : nextPc s i = s.pc + 4#32 := by
  cases i with
  | beq | bne | blt | bltu | bge | bgeu | jal | jalr => cases h
  | _ => rfl

/-- The top of the space wraps to 0 (R29). -/
theorem pc_add_four_at_top {s : State} (h : s.pc = 0xFFFFFFFC#32) : s.pc + 4#32 = 0#32 := by rw [h]; rfl

/-- A linking jump with an aligned target writes the link. -/
theorem jumpAndLink_link {s : State} {rd : RegNum} {target : Word} (hrd : rd ≠ 0#5) (ht : target.toNat % 4 = 0) :
    ∃ t, jumpAndLink rd target s = .next t ∧ getReg t rd = s.pc + 4#32 :=
  ⟨_, (jumpAndLink_eq rd target s).trans (if_pos ht), getReg_setReg_self s rd _ hrd⟩

/-- A `beq` of two different values goes on. -/
theorem exec_beq_of_ne {s : State} {rs1 rs2 : RegNum} (offset : BitVec 13) (h : getReg s rs1 ≠ getReg s rs2) :
    exec (.beq rs1 rs2 offset) s = .next (advance s) :=
  (branch_eq condEq rs1 rs2 offset s).trans (if_neg (by simpa [condEq] using h))

/-- Settles O54: each clause is R27's `pc + 4`, which is 0 at the top. -/
theorem pcWrapsAtTheTop : Obligations.PcWrapsAtTheTop := by
  unfold Obligations.PcWrapsAtTheTop
  intro s htop
  have hwrap : s.pc + 4#32 = 0#32 := pc_add_four_at_top htop
  refine ⟨?sequential, ?untaken, ?addi, ?jal, ?jalr⟩
  case sequential =>
    intro i t hseq h hans
    rw [nextPcOfEveryInstruction i s t h hans, nextPc_of_sequential s hseq, hwrap]
  case untaken => exact fun _ _ offset hne => ⟨_, exec_beq_of_ne offset hne, hwrap⟩
  case addi => exact fun rd _ _ => ⟨_, rfl, (retire_pc s rd _).trans hwrap⟩
  case jal => exact fun _ _ hrd ht => hwrap ▸ jumpAndLink_link hrd ht
  case jalr => exact fun _ _ _ hrd ht => hwrap ▸ jumpAndLink_link hrd ht

/-! ## The invariant -/

section Invariant
variable {s : State}

/-- An update whose stores are inside `MEM_VALID` keeps memory a memory of the machine. -/
theorem Update.memoryOk_apply {d : Update} (hvalid : ∀ b ∈ d.addrs, validAddr s.cfg b = true)
    (h : memoryOk s.cfg s.mem = true) : memoryOk s.cfg (d.apply s).mem = true := by
  cases d with
  | nothing => exact h
  | reg rd v => rwa [Update.apply, setReg_mem]
  | bytes w a v =>
    obtain ⟨hwf, hlisted⟩ := memoryOk_iff.1 h
    refine memoryOk_iff.2 ⟨wf_storeBytes_mem s w a v hwf, fun c hc => ?_⟩
    obtain ⟨b, hb, hcb⟩ | hc := Memory.mem_writeBytes hc
    · rw [hcb, BitVec.ofNat_toNat, BitVec.setWidth_eq]; exact hvalid b hb
    · exact hlisted c hc

theorem Update.wf_apply_written (d : Update) (h : AddrSet.wf s.written = true) :
    AddrSet.wf (d.apply s).written = true := by
  cases d with
  | nothing => exact h
  | reg rd v => rwa [Update.apply, setReg_written]
  | bytes w a v => exact wf_storeBytes_written s w a v h

/-- An effect the tables allow an instruction keeps the invariant. -/
theorem Fits.apply_inv {i : Instr} {e : Effect} (hfits : Fits i s e) (h : s.Inv) : (e.apply s).Inv where
  pc := aligned4_iff.2 (hfits.aligned (aligned4_iff.1 h.pc))
  memory := by rw [e.apply_cfg]; exact Update.memoryOk_apply hfits.valid h.memory
  written := e.update.wf_apply_written h.written
  cfg := by rw [e.apply_cfg]; exact h.cfg

theorem resumptionOk_iff {cfg : Config} {a : Resumption} :
    resumptionOk cfg a = true ↔
      aligned4 a.pc = true ∧ memoryOk cfg a.mem = true ∧ ∀ k ∈ a.marked, k < 2 ^ 32 := by
  simp [resumptionOk, List.all_eq_true, and_assoc]

/-- The answer of an admissible environment keeps the invariant. -/
theorem resume_inv {f : Fault} {a : Resumption} (h : s.Inv) (ha : answerTo s f = some a) : (resume s a).Inv := by
  obtain ⟨hpc, hmem, hmarked⟩ := resumptionOk_iff.1 (h.cfg.env s f a rfl h.pc h.memory ha)
  exact ⟨hpc, hmem, AddrSet.wf_markAll hmarked h.written, h.cfg⟩

end Invariant

/-- Settles O45: by what a step that goes on has done. -/
theorem stepKeepsTheInvariant : Obligations.StepKeepsTheInvariant := by
  unfold Obligations.StepKeepsTheInvariant
  intro s t hinv h
  obtain ⟨i, e, -, hfits, rfl⟩ | ⟨f, a, ha, rfl⟩ := step_next_fits h
  · exact hfits.apply_inv hinv
  · exact resume_inv hinv ha

end Sys2Proof.Machine
end

section
/-! PROOFS for `20_memory.md`: an access byte by byte, loads and stores that complete, what only stores change, and the
statements about memory, `Written` and the three access faults. -/

namespace Sys2Proof.Machine

/-! ## The bytes of a value -/

theorem toNat_byteOf {n : Nat} (v : BitVec n) (i : Nat) : (byteOf v i).toNat = v.toNat / 2 ^ (8 * i) % 2 ^ 8 := by
  rw [byteOf, BitVec.extractLsb'_toNat, Nat.shiftRight_eq_div_pow]

theorem byteOf_self (b : Byte) : byteOf b 0 = b := BitVec.extractLsb'_eq_self

theorem byteOf_append_zero {n : Nat} (v : BitVec n) (b : Byte) : byteOf (v ++ b) 0 = b :=
  BitVec.eq_of_getLsbD_eq fun j hj => by simp [byteOf, BitVec.getLsbD_append, hj]

theorem byteOf_append_succ {n : Nat} (v : BitVec n) (b : Byte) (i : Nat) : byteOf (v ++ b) (i + 1) = byteOf v i :=
  BitVec.eq_of_getLsbD_eq fun j hj => by
    have hge : ¬ 8 * (i + 1) + j < 8 := by omega
    have hsub : 8 * (i + 1) + j - 8 = 8 * i + j := by omega
    simp [byteOf, BitVec.getLsbD_append, hj, hge, hsub]

theorem toNat_append_byte {n : Nat} (v : BitVec n) (b : Byte) : (v ++ b).toNat = v.toNat * 2 ^ 8 + b.toNat := by
  rw [BitVec.toNat_append, ← Nat.shiftLeft_add_eq_or_of_lt b.isLt, Nat.shiftLeft_eq]

theorem Width.bits_eq_mul_bytes (w : Width) : w.bits = 8 * w.bytes := by cases w <;> rfl

/-- A value of a width is its bytes. -/
theorem eq_of_byteOf_eq {w : Width} {v u : BitVec w.bits} (h : ∀ i, i < w.bytes → byteOf v i = byteOf u i) : v = u :=
  BitVec.eq_of_getLsbD_eq fun j hj => by
    have hi : j / 8 < w.bytes := by rw [Width.bits_eq_mul_bytes] at hj; omega
    have hbit := congrArg (BitVec.getLsbD · (j % 8)) (h (j / 8) hi)
    simpa [byteOf, Nat.mod_lt, Nat.div_add_mod] using hbit

section Access
variable (s : State) (w : Width) (a : Word)

/-! ## A read byte by byte -/

/-- Byte `i` of the value read at `a` is the byte at `a + i` (R42, R44). -/
theorem byteOf_read {i : Nat} (hi : i < w.bytes) :
    byteOf (s.mem.read a w) i = readByte s (a + BitVec.ofNat 32 i) := by
  cases w with
  | byte =>
    obtain rfl : i = 0 := Nat.lt_one_iff.1 hi
    rw [BitVec.add_zero]; exact byteOf_self _
  | half =>
    rw [read_half]
    match i, hi with
    | 0, _ => rw [byteOf_append_zero, BitVec.add_zero]
    | 1, _ => rw [byteOf_append_succ, byteOf_self]
  | word =>
    rw [read_word]
    match i, hi with
    | 0, _ => rw [byteOf_append_zero, BitVec.add_zero]
    | 1, _ => rw [byteOf_append_succ, byteOf_append_zero]
    | 2, _ => rw [byteOf_append_succ, byteOf_append_succ, byteOf_append_zero]
    | 3, _ => rw [byteOf_append_succ, byteOf_append_succ, byteOf_append_succ, byteOf_self]

theorem toNat_read_half :
    (s.mem.read a .half).toNat = (readByte s (a + 1#32)).toNat * 2 ^ 8 + (readByte s a).toNat :=
  (congrArg BitVec.toNat (read_half s a)).trans (toNat_append_byte _ _)

theorem toNat_read_word :
    (s.mem.read a .word).toNat =
      (((readByte s (a + 3#32)).toNat * 2 ^ 8 + (readByte s (a + 2#32)).toNat) * 2 ^ 8 +
        (readByte s (a + 1#32)).toNat) * 2 ^ 8 + (readByte s a).toNat := by
  rw [read_word, toNat_append_byte, toNat_append_byte, toNat_append_byte]

/-- A read of the bytes just stored gives the value stored (R47). -/
theorem read_storeBytes_self (v : BitVec w.bits) : (storeBytes s w a v).mem.read a w = v :=
  eq_of_byteOf_eq fun i hi =>
    (byteOf_read (storeBytes s w a v) w a hi).trans (readByte_storeBytes_inside s w a v i hi)

end Access

/-! ## Loads and stores whose checks pass -/

section Checked
variable {w : Width} {ext : BitVec w.bits → Word} {rd rs1 rs2 : RegNum} {imm : BitVec 12} {s t : State}

theorem load_of_checks (hmis : misaligned s.cfg (loadAddr s rs1 imm) w.bytes = false)
    (hvalid : validSpan s.cfg (loadAddr s rs1 imm) w.bytes = true) :
    load w ext rd rs1 imm s = .next (retire s rd (ext (s.mem.read (loadAddr s rs1 imm) w))) := by
  simp [load_eq, hmis, hvalid]

theorem store_of_checks (hmis : misaligned s.cfg (storeAddr s rs1 imm) w.bytes = false)
    (hvalid : validSpan s.cfg (storeAddr s rs1 imm) w.bytes = true) :
    store w rs1 rs2 imm s =
      .next (advance (storeBytes s w (storeAddr s rs1 imm) ((getReg s rs2).extractLsb' 0 w.bits))) := by
  simp [store_eq, hmis, hvalid]

/-- A store that completes has passed its checks and stored its bytes. -/
theorem store_completes (h : store w rs1 rs2 imm s = .next t) (hans : t.answered = s.answered) :
    misaligned s.cfg (storeAddr s rs1 imm) w.bytes = false ∧ validSpan s.cfg (storeAddr s rs1 imm) w.bytes = true ∧
      t = advance (storeBytes s w (storeAddr s rs1 imm) ((getReg s rs2).extractLsb' 0 w.bits)) := by
  have hasked {e : Fault} (hraise : raise e s = .next t) : False := by
    have := raise_next_answered hraise
    omega
  rw [store_eq] at h
  split at h
  · exact (hasked h).elim
  · rename_i hmis
    split at h
    · rename_i hvalid
      cases h
      exact ⟨Bool.eq_false_iff.2 hmis, hvalid, rfl⟩
    · exact (hasked h).elim

/-- Retiring a value is the whole effect of an instruction that computes it. -/
theorem computes_retire (s : State) (rd : RegNum) (v : Word) : Computes s rd v (retire s rd v) where
  result := getReg_setReg_self s rd v
  zeroRegister := getReg_zero _
  otherRegs r hr := getReg_setReg_of_ne s rd r v hr
  nextPc := retire_pc s rd v
  memory := readByte_retire s rd v
  others := ⟨retire_written s rd v, retire_cfg s rd v, retire_answered s rd v⟩

/-- The bytes of the low part of a value are the value's own. -/
theorem byteOf_extractLsb' (v : Word) {i : Nat} (hi : i < w.bytes) :
    byteOf (v.extractLsb' 0 w.bits) i = v.extractLsb' (8 * i) 8 :=
  BitVec.eq_of_getLsbD_eq fun j hj => by
    have hbits : 8 * i + j < w.bits := by rw [Width.bits_eq_mul_bytes]; omega
    simp [byteOf, hj, hbits]

/-- Storing the low bytes of a value and going on is the whole effect of a store. -/
theorem stores_advance_storeBytes (s : State) (w : Width) (a v : Word) :
    Stores s a w.bytes v (advance (storeBytes s w a (v.extractLsb' 0 w.bits))) where
  stored i hi := (readByte_storeBytes_inside s w a _ i hi).trans (byteOf_extractLsb' v hi)
  memory b hb := readByte_storeBytes_outside s w a _ b hb
  written := mem_storeBytes_written s w a (v.extractLsb' 0 w.bits)
  regs _ := rfl
  nextPc := rfl
  cfg := rfl
  answered := rfl

/-- A load at the address a completed store has just stored to, of the same width, gives the bytes stored: nothing it reads
is changed between them but those bytes (R47, R59). -/
theorem load_after_store (h : store w rs1 rs2 imm s = .next t) (hans : t.answered = s.answered) :
    load w ext rd rs1 imm t = .next (retire t rd (ext ((getReg s rs2).extractLsb' 0 w.bits))) := by
  obtain ⟨hmis, hvalid, ht⟩ := store_completes h hans
  have hread : t.mem.read (loadAddr t rs1 imm) w = (getReg s rs2).extractLsb' 0 w.bits := by
    rw [ht]; exact read_storeBytes_self s w (storeAddr s rs1 imm) _
  rw [load_of_checks (by rw [ht]; exact hmis) (by rw [ht]; exact hvalid), hread]

end Checked

/-- Settles O29: with `MISALIGNED_DATA_OK` no address is misaligned, so the checks pass wherever the bytes are valid. -/
theorem misalignedAccessesPerformed : Obligations.MisalignedAccessesPerformed := by
  unfold Obligations.MisalignedAccessesPerformed
  intro r rs1 imm s hok
  have hmis (a : Word) (n : Nat) : misaligned s.cfg a n = false := misaligned_eq_false.2 (.inr hok)
  refine ⟨fun hvalid => ⟨?lh, ?lhu⟩, fun hvalid => ?lw, fun hvalid => ?sh, fun hvalid => ?sw⟩
  case lh => exact ⟨_, _, load_of_checks (hmis _ _) (validSpan_iff_offsets.2 hvalid), computes_retire s r _, rfl⟩
  case lhu => exact ⟨_, _, load_of_checks (hmis _ _) (validSpan_iff_offsets.2 hvalid), computes_retire s r _, rfl⟩
  case lw =>
    exact ⟨_, _, load_of_checks (hmis _ _) (validSpan_iff_offsets.2 hvalid), computes_retire s r _,
      fun k hk => byteOf_read s .word _ hk⟩
  case sh =>
    exact ⟨_, store_of_checks (hmis _ _) (validSpan_iff_offsets.2 hvalid), stores_advance_storeBytes s .half _ _⟩
  case sw =>
    exact ⟨_, store_of_checks (hmis _ _) (validSpan_iff_offsets.2 hvalid), stores_advance_storeBytes s .word _ _⟩

/-- The low bits of a value, widened by zeros. -/
theorem toNat_setWidth_extractLsb' (v : Word) {n : Nat} (hn : n ≤ 32) :
    ((v.extractLsb' 0 n).setWidth 32).toNat = v.toNat % 2 ^ n := by
  rw [BitVec.toNat_setWidth_of_le hn, BitVec.extractLsb'_toNat, Nat.shiftRight_zero]

/-- Settles O30: the value is the low bits stored, widened by zeros. -/
theorem loadAfterStoreReturnsTheValue : Obligations.LoadAfterStoreReturnsTheValue := by
  unfold Obligations.LoadAfterStoreReturnsTheValue
  intro rd rs1 rs2 imm s t hans
  refine ⟨fun h => ?word, fun h => ⟨_, _, load_after_store h hans, computes_retire t rd _, ?half⟩,
    fun h => ⟨_, _, load_after_store h hans, computes_retire t rd _, ?byte⟩⟩
  case word =>
    have hwhole : (getReg s rs2).extractLsb' 0 Width.word.bits = getReg s rs2 := BitVec.extractLsb'_eq_self
    refine ⟨_, load_after_store h hans, ?_⟩
    rw [hwhole]
    exact computes_retire t rd _
  case half => exact toNat_setWidth_extractLsb' _ (by decide)
  case byte => exact toNat_setWidth_extractLsb' _ (by decide)

theorem mem_span_one {a b : Word} : b ∈ span a 1 ↔ b = a := by simp [span]

/-- A byte stored at `a + 1` leaves the other bytes of a word at `a` as they were. -/
theorem readByte_storeBytes_byte_of_ne_one (t : State) (a : Word) (b : Byte) {k : Nat} (hk : k < 4) (hne : k ≠ 1) :
    readByte (storeBytes t .byte (a + 1#32) b) (a + BitVec.ofNat 32 k) = readByte t (a + BitVec.ofNat 32 k) := by
  refine readByte_storeBytes_outside t .byte (a + 1#32) b _ fun hmem => ?_
  exact hne (add_ofNat_inj (by omega) (by decide) (mem_span_one.1 hmem))

/-- Settles O31: every byte of the word is the stored value's, but the one stored on top. -/
theorem mixedWidthsSeeEachOther : Obligations.MixedWidthsSeeEachOther := by
  unfold Obligations.MixedWidthsSeeEachOther
  intro s a v b t
  have hstored (k : Nat) (hk : k < 4) : (readByte t (a + BitVec.ofNat 32 k)).toNat = v.toNat / 2 ^ (8 * k) % 2 ^ 8 := by
    rw [readByte_storeBytes_inside s .word a v k hk, toNat_byteOf]
  have h0 : (readByte t a).toNat = v.toNat % 2 ^ 8 := by simpa using hstored 0 (by decide)
  have h1 := hstored 1 (by decide)
  have h2 := hstored 2 (by decide)
  have h3 := hstored 3 (by decide)
  have hv : v.toNat < 2 ^ 32 := v.isLt
  refine ⟨hstored, ?low, ?high, ?onTop⟩
  case low => rw [toNat_read_half, h0, h1]; omega
  case high =>
    rw [toNat_read_half, BitVec.add_assoc, show (2#32 + 1#32 : Word) = 3#32 from rfl, h2, h3]
    omega
  case onTop =>
    have hnew : readByte (storeBytes t .byte (a + 1#32) b) (a + 1#32) = b := by
      simpa [byteOf_self] using readByte_storeBytes_inside t .byte (a + 1#32) b 0 (by decide)
    have hkept {k : Nat} := readByte_storeBytes_byte_of_ne_one t a b (k := k)
    have hkept0 : readByte (storeBytes t .byte (a + 1#32) b) a = readByte t a := by
      simpa using hkept (k := 0) (by decide) (by decide)
    rw [toNat_read_word, hkept (k := 3) (by decide) (by decide), hkept (k := 2) (by decide) (by decide), hnew, hkept0,
      h0, h2, h3]
    omega

/-! ## Only stores change memory -/

section Update
variable (s : State) (d : Update)

/-- A byte an update does not store to reads as before. -/
theorem Update.readByte_apply_outside {b : Word} (h : b ∉ d.addrs) : readByte (d.apply s) b = readByte s b := by
  cases d with
  | nothing => rfl
  | reg rd v => exact readByte_setReg s rd v b
  | bytes w a v => exact readByte_storeBytes_outside s w a v b h

/-- The addresses an update stores to, and no others, enter `Written`. -/
theorem Update.mem_apply_written {k : Nat} : k ∈ (d.apply s).written ↔ k ∈ s.written ∨ ∃ b ∈ d.addrs, k = b.toNat := by
  cases d with
  | nothing => simp [Update.apply, Update.addrs]
  | reg rd v => simp [Update.apply, Update.addrs]
  | bytes w a v => exact mem_storeBytes_written s w a v k

end Update

/-- Settles O42: by the effect, which stores where the table says. -/
theorem onlyStoresChangeMemory : Obligations.OnlyStoresChangeMemory := by
  unfold Obligations.OnlyStoresChangeMemory
  intro i s t h hans
  obtain ⟨e, hfits, rfl⟩ := exec_completes h hans
  rw [← hfits.stored]
  exact ⟨fun a ha => e.update.readByte_apply_outside s ha, fun k => e.update.mem_apply_written s, e.apply_cfg s⟩

/-- A step that has not asked the environment has had an effect the tables allow some instruction. -/
theorem step_completes {s t : State} (h : step s = .next t) (hans : t.answered = s.answered) :
    ∃ i e, Fits i s e ∧ t = e.apply s := by
  obtain ⟨i, e, -, hfits, rfl⟩ | ⟨f, a, -, rfl⟩ := step_next_fits h
  · exact ⟨i, e, hfits, rfl⟩
  · rw [resume_answered] at hans
    omega

/-- Settles O51: an update and an answer only add to `Written`; the effect of a step that asks no environment adds all it
stores to. -/
theorem writtenRecordsEveryStore : Obligations.WrittenRecordsEveryStore := by
  unfold Obligations.WrittenRecordsEveryStore
  intro s t h
  refine ⟨fun k hk => ?grows, fun inst i hfetch hdecode hans a ha => ?records, fun hans a ha => ?keeps⟩
  case grows =>
    obtain ⟨i, e, -, -, rfl⟩ | ⟨f, a, -, rfl⟩ := step_next_fits h
    · exact (e.update.mem_apply_written s).2 (.inl hk)
    · exact AddrSet.mem_markAll.2 (.inl hk)
  case records =>
    rw [step_of_fetch_decode hfetch hdecode] at h
    obtain ⟨-, hwritten, -⟩ := onlyStoresChangeMemory i s t h hans
    exact (hwritten _).2 (.inr ⟨a, ha, rfl⟩)
  case keeps =>
    obtain ⟨i, e, -, rfl⟩ := step_completes h hans
    exact e.update.readByte_apply_outside s fun hmem => ha ((e.update.mem_apply_written s).2 (.inr ⟨a, hmem, rfl⟩))

/-! ## What a fetch answers besides a word -/

/-- A fetch raises where `pc` is no multiple of 4 or a byte is outside `MEM_VALID` (R46, R242). -/
theorem fetch_accessFault {s : State} :
    fetch s = .accessFault ↔ aligned4 s.pc = false ∨ validSpan s.cfg s.pc 4 = false := by
  unfold fetch
  cases aligned4 s.pc <;> cases validSpan s.cfg s.pc 4 <;> cases staleSpan s s.pc 4 <;> simp

/-- A fetch is stale where its checks pass and a byte has been stored to (R46, R62). -/
theorem fetch_stale {s : State} :
    fetch s = .stale ↔ aligned4 s.pc = true ∧ validSpan s.cfg s.pc 4 = true ∧ staleSpan s s.pc 4 = true := by
  unfold fetch
  cases aligned4 s.pc <;> cases validSpan s.cfg s.pc 4 <;> cases staleSpan s s.pc 4 <;> simp

/-- The rule of R62. -/
theorem step_of_stale {s : State} (h : fetch s = .stale) : step s = .refused (.staleFetch s.pc) := by
  simp [step, h]

/-- Settles O11: the fetch is stale. -/
theorem fetchOfStoredBytesRefused : Obligations.FetchOfStoredBytesRefused := by
  unfold Obligations.FetchOfStoredBytesRefused
  intro s k hpc hvalid hk hwritten
  exact step_of_stale (fetch_stale.2
    ⟨aligned4_iff.2 hpc, validSpan_iff_offsets.2 hvalid, staleSpan_iff_offsets.2 ⟨k, hk, hwritten⟩⟩)

/-! ## The three access faults -/

theorem raise_eq_fault {e f : Fault} {s : State} (h : raise e s = .fault f) : f = e := by
  unfold raise at h
  split at h <;> cases h
  rfl

/-- A step that stops stops with the exception of its fetch, of its decode or of the instruction. -/
theorem step_fault {s : State} {f : Fault} (h : step s = .fault f) :
    (fetch s = .accessFault ∧ f = .instructionAccessFault s.pc) ∨ (∃ inst, f = .illegalInstruction inst) ∨
      ∃ i, exec i s = .fault f := by
  unfold step at h
  split at h
  · rename_i hfetch
    exact .inl ⟨hfetch, raise_eq_fault h⟩
  · cases h
  · split at h
    · exact .inr (.inr ⟨_, h⟩)
    · exact .inr (.inl ⟨_, raise_eq_fault h⟩)

/-- One of the three access faults (R211, R216, R217). -/
def IsAccessFault (e : Fault) : Prop :=
  e.cause = .instructionAccessFault ∨ e.cause = .loadAccessFault ∨ e.cause = .storeAccessFault

/-- An instruction completes unasked, or raises an exception of R220's table that is no access fault. -/
def CompletesOrRaises (i : Instr) (s : State) : Prop :=
  (∃ t, exec i s = .next t ∧ t.answered = s.answered) ∨ ∃ e, e ∈ canRaise s i ∧ ¬ IsAccessFault e ∧ exec i s = raise e s

section WholeMemory
variable {i : Instr} {s : State} {w : Width} {rs1 rs2 : RegNum} {imm : BitVec 12}

/-- An instruction that the table gives no access fault raises none, by its plan. -/
theorem completesOrRaises_of_table (h : ∀ e ∈ canRaise s i, ¬ IsAccessFault e) : CompletesOrRaises i s := by
  obtain ⟨plan, hplan⟩ := exec_follows i
  have hexec := hplan.exec_eq s
  cases hp : plan s with
  | error e =>
    rw [hp] at hexec
    have he := hplan.raises s e hp
    exact .inr ⟨e, he, h e he, hexec⟩
  | ok e =>
    rw [hp] at hexec
    exact .inl ⟨e.apply s, hexec, e.apply_answered s⟩

/-- A load whose bytes are all valid can only be misaligned. -/
theorem completesOrRaises_of_load {ext : BitVec w.bits → Word} {rd : RegNum} (hexec : exec i s = load w ext rd rs1 imm s)
    (hvalid : validSpan s.cfg (loadAddr s rs1 imm) w.bytes = true)
    (hraise : misaligned s.cfg (loadAddr s rs1 imm) w.bytes = true →
      .loadAddressMisaligned (loadAddr s rs1 imm) ∈ canRaise s i) : CompletesOrRaises i s := by
  rw [CompletesOrRaises, hexec]
  cases hmis : misaligned s.cfg (loadAddr s rs1 imm) w.bytes with
  | false => exact .inl ⟨_, load_of_checks hmis hvalid, retire_answered s rd _⟩
  | true => exact .inr ⟨_, hraise hmis, by simp [IsAccessFault, Fault.cause], by rw [load_eq, if_pos hmis]⟩

/-- A store whose bytes are all valid can only be misaligned. -/
theorem completesOrRaises_of_store (hexec : exec i s = store w rs1 rs2 imm s)
    (hvalid : validSpan s.cfg (storeAddr s rs1 imm) w.bytes = true)
    (hraise : misaligned s.cfg (storeAddr s rs1 imm) w.bytes = true →
      .storeAddressMisaligned (storeAddr s rs1 imm) ∈ canRaise s i) : CompletesOrRaises i s := by
  rw [CompletesOrRaises, hexec]
  cases hmis : misaligned s.cfg (storeAddr s rs1 imm) w.bytes with
  | false => exact .inl ⟨_, store_of_checks hmis hvalid, rfl⟩
  | true => exact .inr ⟨_, hraise hmis, by simp [IsAccessFault, Fault.cause], by rw [store_eq, if_pos hmis]⟩

/-- Where every address is valid only loads and stores need a look past the table, and they are at most misaligned. -/
theorem completesOrRaises_of_wholeMemory (hwhole : ∀ a, validAddr s.cfg a = true) (i : Instr) :
    CompletesOrRaises i s := by
  have hvalid (a : Word) (n : Nat) : validSpan s.cfg a n = true := validSpan_iff.2 fun b _ => hwhole b
  have hbyte {a : Word} {p : Prop} (h : misaligned s.cfg a Width.byte.bytes = true) : p := by
    rw [misaligned_byte] at h; cases h
  cases i with
  | lb | lbu => exact completesOrRaises_of_load rfl (hvalid _ _) hbyte
  | lh | lhu | lw => exact completesOrRaises_of_load rfl (hvalid _ _) fun _ => List.mem_cons_self
  | sb => exact completesOrRaises_of_store rfl (hvalid _ _) hbyte
  | sh | sw => exact completesOrRaises_of_store rfl (hvalid _ _) fun _ => List.mem_cons_self
  | _ => exact completesOrRaises_of_table (by simp [canRaise, IsAccessFault, Fault.cause])

theorem CompletesOrRaises.not_isAccessFault {f : Fault} (h : CompletesOrRaises i s) (hstop : exec i s = .fault f) :
    ¬ IsAccessFault f := by
  obtain ⟨t, hnext, -⟩ | ⟨e, -, he, hraise⟩ := h
  · rw [hnext] at hstop; cases hstop
  · rw [hraise] at hstop
    rwa [raise_eq_fault hstop]

/-- An aligned fetch where every address is valid raises nothing. -/
theorem fetch_ne_accessFault (hwhole : ∀ a, validAddr s.cfg a = true) (hpc : s.pc.toNat % 4 = 0) :
    fetch s ≠ .accessFault := by
  have hvalid : validSpan s.cfg s.pc 4 = true := validSpan_iff.2 fun b _ => hwhole b
  simp [fetch_accessFault, aligned4_iff.2 hpc, hvalid]

/-- Where every address is valid a step that stops with an access fault stops with the one of a misaligned fetch (R242). -/
theorem step_fault_of_wholeMemory (hwhole : ∀ a, validAddr s.cfg a = true) {f : Fault} (h : step s = .fault f)
    (hf : IsAccessFault f) : s.pc.toNat % 4 ≠ 0 ∧ f = .instructionAccessFault s.pc := by
  obtain ⟨hfetch, rfl⟩ | ⟨inst, rfl⟩ | ⟨i, hexec⟩ := step_fault h
  · exact ⟨fun hpc => fetch_ne_accessFault hwhole hpc hfetch, rfl⟩
  · simp [IsAccessFault, Fault.cause] at hf
  · exact absurd hf ((completesOrRaises_of_wholeMemory hwhole i).not_isAccessFault hexec)

end WholeMemory

/-- Settles O52: no span has an invalid byte, so every access fault but that of a misaligned fetch is out of reach. -/
theorem wholeMemoryNeverAccessFaults : Obligations.WholeMemoryNeverAccessFaults := by
  unfold Obligations.WholeMemoryNeverAccessFaults
  intro s hwhole
  refine ⟨fetch_ne_accessFault hwhole, fun i => ?instruction,
    fun a => ⟨fun hpc h => ?fetch, fun h => ?load, fun h => ?store⟩⟩
  case instruction =>
    obtain hnext | ⟨e, he, hno, hraise⟩ := completesOrRaises_of_wholeMemory hwhole i
    · exact .inl hnext
    · exact .inr ⟨e, he, fun h => hno (.inr (.inl h)), fun h => hno (.inr (.inr h)), hraise⟩
  case fetch =>
    obtain ⟨hne, -⟩ := step_fault_of_wholeMemory hwhole h (.inl rfl)
    exact hne hpc
  case load =>
    obtain ⟨-, hf⟩ := step_fault_of_wholeMemory hwhole h (.inr (.inl rfl))
    cases hf
  case store =>
    obtain ⟨-, hf⟩ := step_fault_of_wholeMemory hwhole h (.inr (.inr rfl))
    cases hf

/-! ## Canonical memories -/

/-- A byte below all that is listed reads as unlisted. -/
theorem Memory.byte_of_lt_all {m : Memory} {a : Nat} (h : ∀ c ∈ m, a < c.1) : m.byte a = 0x00#8 := by
  induction m with
  | nil => rfl
  | cons c rest ih =>
    obtain ⟨hc, hrest⟩ := List.forall_mem_cons.1 h
    rw [Memory.byte_cons, if_neg (Nat.ne_of_gt hc), ih hrest]

/-- A canonical memory that reads as another does at the first address the other lists begins there or below: below its own
first address it would read 0, and the other lists no 0. -/
theorem Memory.le_head_of_byte_eq {k j : Nat} {b c : Byte} {m n : Memory} (hm : Memory.wf ((k, b) :: m) = true)
    (hn : Memory.wf ((j, c) :: n) = true) (h : Memory.byte ((k, b) :: m) k = Memory.byte ((j, c) :: n) k) : j ≤ k := by
  obtain ⟨-, hb, -, -⟩ := Memory.wf_cons.1 hm
  obtain ⟨-, -, hn, -⟩ := Memory.wf_cons.1 hn
  by_contra hlt
  have hbelow : ∀ d ∈ (j, c) :: n, k < d.1 :=
    List.forall_mem_cons.2 ⟨by simpa using hlt, fun d hd => Nat.lt_trans (by omega) (hn d hd)⟩
  rw [Memory.byte_of_lt_all hbelow, Memory.byte_cons, if_pos rfl] at h
  exact hb h

/-- A canonical memory that reads 0 everywhere lists nothing. -/
theorem Memory.eq_nil_of_byte_eq_zero {m : Memory} (hm : Memory.wf m = true)
    (h : ∀ a, a < 2 ^ 32 → m.byte a = 0x00#8) : m = [] := by
  cases m with
  | nil => rfl
  | cons cell rest =>
    obtain ⟨k, b⟩ := cell
    obtain ⟨hk, hb, -, -⟩ := Memory.wf_cons.1 hm
    exact absurd ((if_pos rfl).symm.trans (h k hk)) hb

/-- Settles O53, by induction on the first memory: both list the same address first, with the same byte, and what follows
reads alike. -/
theorem equalReadsAreEqualMemories : Obligations.EqualReadsAreEqualMemories := by
  unfold Obligations.EqualReadsAreEqualMemories
  intro m
  induction m with
  | nil => exact fun n _ hn h => (Memory.eq_nil_of_byte_eq_zero hn fun a ha => (h a ha).symm).symm
  | cons cell rest ih =>
    intro n hm hn h
    obtain ⟨k, b⟩ := cell
    cases n with
    | nil => exact Memory.eq_nil_of_byte_eq_zero hm h
    | cons cell' rest' =>
      obtain ⟨j, c⟩ := cell'
      obtain ⟨hk, -, hrest, hwf⟩ := Memory.wf_cons.1 hm
      obtain ⟨hj, -, hrest', hwf'⟩ := Memory.wf_cons.1 hn
      obtain rfl : j = k :=
        Nat.le_antisymm (Memory.le_head_of_byte_eq hm hn (h k hk)) (Memory.le_head_of_byte_eq hn hm (h j hj).symm)
      obtain rfl : b = c := by simpa [Memory.byte_cons] using h j hj
      refine congrArg _ (ih rest' hwf hwf' fun a ha => ?_)
      by_cases haj : j = a
      · rw [← haj, Memory.byte_of_lt_all hrest, Memory.byte_of_lt_all hrest']
      · simpa [Memory.byte_cons, haj] using h a ha

end Sys2Proof.Machine
end

section
/-! PROOFS for `30_encoding.md`: a word is its fields laid out again, a row of R87 matches a word by the fields it fixes,
no two rows match one word; and the statements about decoding, encoding, immediates and illegal words. -/

namespace Sys2Proof
open Machine
open BitVec (extractLsb'_append_extractLsb'_eq_extractLsb' extractLsb'_append_eq_left extractLsb'_append_eq_right
  extractLsb'_append_eq_of_le extractLsb'_eq_self getElem_extractLsb' getLsbD_extractLsb' getElem_append getLsbD_append)

/-! ## A word is its fields laid out again (R72 to R78) -/

theorem encodeR_fields (w : Word) :
    encodeR (funct7Of w) (funct3Of w) (opcodeOf w) (rdOf w) (rs1Of w) (rs2Of w) = w := by
  simp only [encodeR, funct7Of, funct3Of, opcodeOf, rdOf, rs1Of, rs2Of, extractLsb'_append_extractLsb'_eq_extractLsb',
    extractLsb'_eq_self]

theorem encodeI_fields (w : Word) : encodeI (funct3Of w) (opcodeOf w) (rdOf w) (rs1Of w) (immIOf w) = w := by
  simp only [encodeI, funct3Of, opcodeOf, rdOf, rs1Of, immIOf, extractLsb'_append_extractLsb'_eq_extractLsb',
    extractLsb'_eq_self]

theorem encodeS_fields (w : Word) : encodeS (funct3Of w) (opcodeOf w) (rs1Of w) (rs2Of w) (immSOf w) = w := by
  rw [encodeS, immSOf, extractLsb'_append_eq_left, extractLsb'_append_eq_right]
  exact encodeR_fields w

theorem encodeB_fields (w : Word) : encodeB (funct3Of w) (opcodeOf w) (rs1Of w) (rs2Of w) (offsetBOf w) = w := by
  unfold encodeB offsetBOf opcodeOf funct3Of rs1Of rs2Of
  ext i hi
  simp only [getElem_extractLsb', getLsbD_extractLsb', getLsbD_append, getElem_append]
  interval_cases i <;> simp

theorem encodeU_fields (w : Word) : encodeU (opcodeOf w) (rdOf w) (immUOf w) = w := by
  simp only [encodeU, opcodeOf, rdOf, immUOf, extractLsb'_append_extractLsb'_eq_extractLsb', extractLsb'_eq_self]

theorem encodeJ_fields (w : Word) : encodeJ (opcodeOf w) (rdOf w) (offsetJOf w) = w := by
  unfold encodeJ offsetJOf opcodeOf rdOf
  ext i hi
  simp only [getElem_extractLsb', getLsbD_extractLsb', getLsbD_append, getElem_append]
  interval_cases i <;> simp

/-- A B offset read from a word has its unstored bit 0 at 0 (R82). -/
theorem evenOffset_offsetBOf (w : Word) : evenOffset (offsetBOf w) = true := by
  simp only [evenOffset, offsetBOf, getLsbD_append]
  rfl

/-- A J offset read from a word has its unstored bit 0 at 0 (R84). -/
theorem evenOffset_offsetJOf (w : Word) : evenOffset (offsetJOf w) = true := by
  simp only [evenOffset, offsetJOf, getLsbD_append]
  rfl

/-! ## The fields a row fixes (R85) -/

section FixedFields
variable (f7 : BitVec 7) (f3 : BitVec 3) (op : BitVec 7) (rd rs1 rs2 : RegNum) (imm : BitVec 12) (immu : BitVec 20)

@[simp] theorem opcodeOf_encodeR : opcodeOf (encodeR f7 f3 op rd rs1 rs2) = op := extractLsb'_append_eq_right
@[simp] theorem opcodeOf_encodeI : opcodeOf (encodeI f3 op rd rs1 imm) = op := extractLsb'_append_eq_right
@[simp] theorem opcodeOf_encodeU : opcodeOf (encodeU op rd immu) = op := extractLsb'_append_eq_right

@[simp] theorem funct3Of_encodeI : funct3Of (encodeI f3 op rd rs1 imm) = f3 := by
  rw [funct3Of, encodeI, extractLsb'_append_eq_of_le (by decide), extractLsb'_append_eq_of_le (by decide)]
  exact extractLsb'_append_eq_right

/-- Format R is format I whose immediate field holds funct7 above `rs2`. -/
theorem encodeR_eq_encodeI : encodeR f7 f3 op rd rs1 rs2 = encodeI f3 op rd rs1 (f7 ++ rs2) := rfl

@[simp] theorem funct3Of_encodeR : funct3Of (encodeR f7 f3 op rd rs1 rs2) = f3 :=
  funct3Of_encodeI f3 op rd rs1 (f7 ++ rs2)

@[simp] theorem funct7Of_encodeR : funct7Of (encodeR f7 f3 op rd rs1 rs2) = f7 := by
  simp only [funct7Of, encodeR, extractLsb'_append_eq_of_le, Nat.reduceLeDiff, Nat.reduceSub]
  exact extractLsb'_eq_self

end FixedFields

/-! The masks of R87 that fix less than the whole word keep opcode, funct3 and funct7, as far as they reach, and clear
the operands. -/

theorem and_opcodeMask (w : Word) : w &&& 0x0000007F#32 = encodeU (opcodeOf w) 0#5 0#20 := by
  rw [← encodeU_fixed _ (rdOf w) (immUOf w), encodeU_fields]

theorem and_funct3Mask (w : Word) : w &&& 0x0000707F#32 = encodeI (funct3Of w) (opcodeOf w) 0#5 0#5 0#12 := by
  rw [← encodeI_fixed _ _ (rdOf w) (rs1Of w) (immIOf w), encodeI_fields]

theorem and_funct7Mask (w : Word) :
    w &&& 0xFE00707F#32 = encodeR (funct7Of w) (funct3Of w) (opcodeOf w) 0#5 0#5 0#5 := by
  rw [← encodeR_fixed _ _ _ (rdOf w) (rs1Of w) (rs2Of w), encodeR_fields]

section Matches
variable {name : String} {p w : Word} {needsMul : Bool} {build : Word → Instr}

theorem matchesWord_opcode_iff (hp : p &&& 0x0000007F#32 = p) :
    (Row.mk name 0x0000007F#32 p needsMul build).matchesWord w = true ↔ opcodeOf w = opcodeOf p := by
  rw [Row.matchesWord, beq_iff_eq, ← hp, and_opcodeMask w, and_opcodeMask p]
  exact ⟨fun h => by simpa using congrArg opcodeOf h, fun hop => by rw [hop]; simp⟩

theorem matchesWord_funct3_iff (hp : p &&& 0x0000707F#32 = p) :
    (Row.mk name 0x0000707F#32 p needsMul build).matchesWord w = true ↔
      opcodeOf w = opcodeOf p ∧ funct3Of w = funct3Of p := by
  rw [Row.matchesWord, beq_iff_eq, ← hp, and_funct3Mask w, and_funct3Mask p]
  exact ⟨fun h => ⟨by simpa using congrArg opcodeOf h, by simpa using congrArg funct3Of h⟩,
    fun ⟨hop, h3⟩ => by rw [hop, h3]; simp⟩

theorem matchesWord_funct7_iff (hp : p &&& 0xFE00707F#32 = p) :
    (Row.mk name 0xFE00707F#32 p needsMul build).matchesWord w = true ↔
      opcodeOf w = opcodeOf p ∧ funct3Of w = funct3Of p ∧ funct7Of w = funct7Of p := by
  rw [Row.matchesWord, beq_iff_eq, ← hp, and_funct7Mask w, and_funct7Mask p]
  exact ⟨fun h => ⟨by simpa using congrArg opcodeOf h, by simpa using congrArg funct3Of h,
    by simpa using congrArg funct7Of h⟩, fun ⟨hop, h3, h7⟩ => by rw [hop, h3, h7]; simp⟩

/-- A row that fixes every bit fixes the opcode among them. -/
theorem matchesWord_whole_iff :
    (Row.mk name 0xFFFFFFFF#32 p needsMul build).matchesWord w = true ↔ opcodeOf w = opcodeOf p ∧ w = p := by
  have hall : w &&& 0xFFFFFFFF#32 = w := BitVec.and_allOnes
  rw [Row.matchesWord, beq_iff_eq, hall]
  exact ⟨fun h => ⟨congrArg opcodeOf h, h⟩, And.right⟩

end Matches

/-! ## No word matches two rows (R85) -/

/-- Two rows fix some bit alike and want it different. -/
def Row.excludes (r q : Row) : Bool := r.pattern &&& q.mask != q.pattern &&& r.mask

/-- Both patterns would be the word's bits under both masks. -/
theorem Row.not_matchesWord_of_excludes {r q : Row} {w : Word} (h : r.excludes q = true) (hr : r.matchesWord w = true) :
    ¬ q.matchesWord w = true := by
  intro hq
  simp only [Row.matchesWord, beq_iff_eq] at hr hq
  refine bne_iff_ne.1 h ?_
  rw [← hr, ← hq, BitVec.and_assoc, BitVec.and_assoc, BitVec.and_comm r.mask]

theorem opcodeRows_pairwise_excludes : opcodeRows.Pairwise (fun r q => r.excludes q = true) := by decide

/-- Settles O4: of two rows at different places the earlier excludes the later. -/
theorem atMostOneRowMatches : Obligations.AtMostOneRowMatches := by
  unfold Obligations.AtMostOneRowMatches
  intro w j k hj hk hmj hmk
  have hexcl := List.pairwise_iff_getElem.1 opcodeRows_pairwise_excludes
  rcases Nat.lt_trichotomy j k with hlt | heq | hgt
  · exact absurd hmk (Row.not_matchesWord_of_excludes (hexcl j k hj hk hlt) hmj)
  · exact heq
  · exact absurd hmj (Row.not_matchesWord_of_excludes (hexcl k j hk hj hgt) hmk)

/-- The row a word matches is the only one. -/
theorem row_eq_of_matchesWord {r q : Row} {w : Word} (hr : r ∈ opcodeRows) (hq : q ∈ opcodeRows)
    (hrw : r.matchesWord w = true) (hqw : q.matchesWord w = true) : r = q := by
  obtain ⟨j, hj, rfl⟩ := List.getElem_of_mem hr
  obtain ⟨k, hk, rfl⟩ := List.getElem_of_mem hq
  obtain rfl := atMostOneRowMatches w j k hj hk hrw hqw
  rfl

/-! ## What the decoder gives (R85, R88) -/

theorem accepts_iff {r : Row} {hasMul : Bool} {w : Word} :
    r.accepts hasMul w = true ↔ r.matchesWord w = true ∧ (r.needsMul = true → hasMul = true) := by
  cases hasMul <;> simp [Row.accepts]

theorem decodeWord_ok_iff {hasMul : Bool} {w : Word} {i : Instr} :
    decodeWord hasMul w = .ok i ↔ ∃ r ∈ opcodeRows, r.accepts hasMul w = true ∧ r.build w = i := by
  unfold decodeWord
  constructor
  · intro h
    split at h
    · rename_i r hfind
      have hacc := List.find?_some hfind
      exact ⟨r, List.mem_of_find?_eq_some hfind, hacc, by simpa using h⟩
    · cases h
  · rintro ⟨r, hr, hacc, rfl⟩
    cases hfind : opcodeRows.find? (fun r => r.accepts hasMul w) with
    | none => exact absurd hacc (List.find?_eq_none.1 hfind r hr)
    | some q =>
      have hqacc := List.find?_some hfind
      rw [row_eq_of_matchesWord (List.mem_of_find?_eq_some hfind) hr (accepts_iff.1 hqacc).1 (accepts_iff.1 hacc).1]

theorem decodeWord_illegal_iff {hasMul : Bool} {w : Word} :
    decodeWord hasMul w = .error (.illegalInstruction w) ↔ ∀ r ∈ opcodeRows, ¬ r.accepts hasMul w = true := by
  rw [← List.find?_eq_none, decodeWord]
  cases opcodeRows.find? (fun r => r.accepts hasMul w) <;> simp

/-! ## Decode after encode -/

/-- The family `RowOfEncode` for every instruction. -/
theorem rowOfEncode : ∀ i : Instr, Laws.RowOfEncode.Statement i
  | .add _ _ _ => Laws.RowOfEncode.add _ _ _
  | .sub _ _ _ => Laws.RowOfEncode.sub _ _ _
  | .and _ _ _ => Laws.RowOfEncode.and _ _ _
  | .or _ _ _ => Laws.RowOfEncode.or _ _ _
  | .xor _ _ _ => Laws.RowOfEncode.xor _ _ _
  | .sll _ _ _ => Laws.RowOfEncode.sll _ _ _
  | .srl _ _ _ => Laws.RowOfEncode.srl _ _ _
  | .sra _ _ _ => Laws.RowOfEncode.sra _ _ _
  | .slt _ _ _ => Laws.RowOfEncode.slt _ _ _
  | .sltu _ _ _ => Laws.RowOfEncode.sltu _ _ _
  | .addi _ _ _ => Laws.RowOfEncode.addi _ _ _
  | .andi _ _ _ => Laws.RowOfEncode.andi _ _ _
  | .ori _ _ _ => Laws.RowOfEncode.ori _ _ _
  | .xori _ _ _ => Laws.RowOfEncode.xori _ _ _
  | .slli _ _ _ => Laws.RowOfEncode.slli _ _ _
  | .srli _ _ _ => Laws.RowOfEncode.srli _ _ _
  | .srai _ _ _ => Laws.RowOfEncode.srai _ _ _
  | .slti _ _ _ => Laws.RowOfEncode.slti _ _ _
  | .sltiu _ _ _ => Laws.RowOfEncode.sltiu _ _ _
  | .lb _ _ _ => Laws.RowOfEncode.lb _ _ _
  | .lbu _ _ _ => Laws.RowOfEncode.lbu _ _ _
  | .lh _ _ _ => Laws.RowOfEncode.lh _ _ _
  | .lhu _ _ _ => Laws.RowOfEncode.lhu _ _ _
  | .lw _ _ _ => Laws.RowOfEncode.lw _ _ _
  | .sb _ _ _ => Laws.RowOfEncode.sb _ _ _
  | .sh _ _ _ => Laws.RowOfEncode.sh _ _ _
  | .sw _ _ _ => Laws.RowOfEncode.sw _ _ _
  | .beq _ _ _ => Laws.RowOfEncode.beq _ _ _
  | .bne _ _ _ => Laws.RowOfEncode.bne _ _ _
  | .blt _ _ _ => Laws.RowOfEncode.blt _ _ _
  | .bltu _ _ _ => Laws.RowOfEncode.bltu _ _ _
  | .bge _ _ _ => Laws.RowOfEncode.bge _ _ _
  | .bgeu _ _ _ => Laws.RowOfEncode.bgeu _ _ _
  | .jal _ _ => Laws.RowOfEncode.jal _ _
  | .jalr _ _ _ => Laws.RowOfEncode.jalr _ _ _
  | .auipc _ _ => Laws.RowOfEncode.auipc _ _
  | .lui _ _ => Laws.RowOfEncode.lui _ _
  | .ebreak => Laws.RowOfEncode.ebreak
  | .ecall => Laws.RowOfEncode.ecall
  | .mul _ _ _ => Laws.RowOfEncode.mul _ _ _

/-- Settles O2: the instruction's own row accepts its word and builds it back; no other row matches. -/
theorem decodeOfEncode : Obligations.DecodeOfEncode := by
  unfold Obligations.DecodeOfEncode
  intro hasMul i hwf hmul
  obtain ⟨r, hr, hmatch, hbuild, hneeds⟩ := rowOfEncode i hwf
  exact decodeWord_ok_iff.2 ⟨r, hr, accepts_iff.2 ⟨hmatch, hneeds ▸ hmul⟩, hbuild⟩

/-! ## Encode after decode (R91) -/

/-- Every word the row matches is the encoding of the well-formed instruction the row builds from it. -/
def Row.RoundTrips (r : Row) : Prop :=
  ∀ w, r.matchesWord w = true → encode (r.build w) = w ∧ (r.build w).wf = true

section RoundTrips
variable {name : String} {p : Word} {needsMul : Bool}

theorem roundTrips_R {mk : RegNum → RegNum → RegNum → Instr} (hp : p &&& 0xFE00707F#32 = p := by decide)
    (henc : ∀ rd rs1 rs2, encode (mk rd rs1 rs2) = encodeR (funct7Of p) (funct3Of p) (opcodeOf p) rd rs1 rs2 := by
      intros; rfl)
    (hwf : ∀ rd rs1 rs2, (mk rd rs1 rs2).wf = true := by intros; rfl) :
    Row.RoundTrips ⟨name, 0xFE00707F#32, p, needsMul, buildR mk⟩ := by
  intro w hw
  obtain ⟨hop, h3, h7⟩ := (matchesWord_funct7_iff hp).1 hw
  exact ⟨(henc _ _ _).trans (by rw [← hop, ← h3, ← h7, encodeR_fields]), hwf _ _ _⟩

/-- Format I* is format R with the shift amount in the place of `rs2`. -/
theorem roundTrips_shift {mk : RegNum → RegNum → BitVec 5 → Instr} (hp : p &&& 0xFE00707F#32 = p := by decide)
    (henc : ∀ rd rs1 sh, encode (mk rd rs1 sh) = encodeShift (funct7Of p) (funct3Of p) (opcodeOf p) rd rs1 sh := by
      intros; rfl)
    (hwf : ∀ rd rs1 sh, (mk rd rs1 sh).wf = true := by intros; rfl) :
    Row.RoundTrips ⟨name, 0xFE00707F#32, p, needsMul, buildShift mk⟩ :=
  roundTrips_R hp henc hwf

theorem roundTrips_I {mk : RegNum → RegNum → BitVec 12 → Instr} (hp : p &&& 0x0000707F#32 = p := by decide)
    (henc : ∀ rd rs1 imm, encode (mk rd rs1 imm) = encodeI (funct3Of p) (opcodeOf p) rd rs1 imm := by intros; rfl)
    (hwf : ∀ rd rs1 imm, (mk rd rs1 imm).wf = true := by intros; rfl) :
    Row.RoundTrips ⟨name, 0x0000707F#32, p, needsMul, buildI mk⟩ := by
  intro w hw
  obtain ⟨hop, h3⟩ := (matchesWord_funct3_iff hp).1 hw
  exact ⟨(henc _ _ _).trans (by rw [← hop, ← h3, encodeI_fields]), hwf _ _ _⟩

theorem roundTrips_S {mk : RegNum → RegNum → BitVec 12 → Instr} (hp : p &&& 0x0000707F#32 = p := by decide)
    (henc : ∀ rs1 rs2 imm, encode (mk rs1 rs2 imm) = encodeS (funct3Of p) (opcodeOf p) rs1 rs2 imm := by intros; rfl)
    (hwf : ∀ rs1 rs2 imm, (mk rs1 rs2 imm).wf = true := by intros; rfl) :
    Row.RoundTrips ⟨name, 0x0000707F#32, p, needsMul, buildS mk⟩ := by
  intro w hw
  obtain ⟨hop, h3⟩ := (matchesWord_funct3_iff hp).1 hw
  exact ⟨(henc _ _ _).trans (by rw [← hop, ← h3, encodeS_fields]), hwf _ _ _⟩

theorem roundTrips_B {mk : RegNum → RegNum → BitVec 13 → Instr} (hp : p &&& 0x0000707F#32 = p := by decide)
    (henc : ∀ rs1 rs2 offset, encode (mk rs1 rs2 offset) = encodeB (funct3Of p) (opcodeOf p) rs1 rs2 offset := by
      intros; rfl)
    (hwf : ∀ rs1 rs2 offset, (mk rs1 rs2 offset).wf = evenOffset offset := by intros; rfl) :
    Row.RoundTrips ⟨name, 0x0000707F#32, p, needsMul, buildB mk⟩ := by
  intro w hw
  obtain ⟨hop, h3⟩ := (matchesWord_funct3_iff hp).1 hw
  exact ⟨(henc _ _ _).trans (by rw [← hop, ← h3, encodeB_fields]), (hwf _ _ _).trans (evenOffset_offsetBOf w)⟩

theorem roundTrips_U {mk : RegNum → BitVec 20 → Instr} (hp : p &&& 0x0000007F#32 = p := by decide)
    (henc : ∀ rd immu, encode (mk rd immu) = encodeU (opcodeOf p) rd immu := by intros; rfl)
    (hwf : ∀ rd immu, (mk rd immu).wf = true := by intros; rfl) :
    Row.RoundTrips ⟨name, 0x0000007F#32, p, needsMul, buildU mk⟩ := by
  intro w hw
  have hop := (matchesWord_opcode_iff hp).1 hw
  exact ⟨(henc _ _).trans (by rw [← hop, encodeU_fields]), hwf _ _⟩

theorem roundTrips_J {mk : RegNum → BitVec 21 → Instr} (hp : p &&& 0x0000007F#32 = p := by decide)
    (henc : ∀ rd offset, encode (mk rd offset) = encodeJ (opcodeOf p) rd offset := by intros; rfl)
    (hwf : ∀ rd offset, (mk rd offset).wf = evenOffset offset := by intros; rfl) :
    Row.RoundTrips ⟨name, 0x0000007F#32, p, needsMul, buildJ mk⟩ := by
  intro w hw
  have hop := (matchesWord_opcode_iff hp).1 hw
  exact ⟨(henc _ _).trans (by rw [← hop, encodeJ_fields]), (hwf _ _).trans (evenOffset_offsetJOf w)⟩

/-- A row that fixes the whole word has no operands to read. -/
theorem roundTrips_whole {i : Instr} (henc : encode i = p := by decide) (hwf : i.wf = true := by rfl) :
    Row.RoundTrips ⟨name, 0xFFFFFFFF#32, p, needsMul, fun _ => i⟩ :=
  fun _ hw => ⟨henc.trans (matchesWord_whole_iff.1 hw).2.symm, hwf⟩

end RoundTrips

theorem arithmeticRows_roundTrip : ∀ r ∈ arithmeticRows, r.RoundTrips := by
  simp only [arithmeticRows, List.forall_mem_cons]
  exact
    ⟨roundTrips_R, roundTrips_R, roundTrips_R, roundTrips_R, roundTrips_R, roundTrips_R, roundTrips_R, roundTrips_R,
      roundTrips_R, roundTrips_R, roundTrips_I, roundTrips_I, roundTrips_I, roundTrips_I, roundTrips_shift,
      roundTrips_shift, roundTrips_shift, roundTrips_I, roundTrips_I, List.forall_mem_nil _⟩

theorem memoryRows_roundTrip : ∀ r ∈ memoryRows, r.RoundTrips := by
  simp only [memoryRows, List.forall_mem_cons]
  exact
    ⟨roundTrips_I, roundTrips_I, roundTrips_I, roundTrips_I, roundTrips_I, roundTrips_S, roundTrips_S, roundTrips_S,
      List.forall_mem_nil _⟩

theorem controlRows_roundTrip : ∀ r ∈ controlRows, r.RoundTrips := by
  simp only [controlRows, List.forall_mem_cons]
  exact
    ⟨roundTrips_B, roundTrips_B, roundTrips_B, roundTrips_B, roundTrips_B, roundTrips_B, roundTrips_J, roundTrips_I,
      List.forall_mem_nil _⟩

theorem otherRows_roundTrip : ∀ r ∈ otherRows, r.RoundTrips := by
  simp only [otherRows, List.forall_mem_cons]
  exact
    ⟨roundTrips_U, roundTrips_U, roundTrips_whole, roundTrips_whole, roundTrips_R, List.forall_mem_nil _⟩

theorem opcodeRows_roundTrip : ∀ r ∈ opcodeRows, r.RoundTrips := by
  simp only [opcodeRows, List.forall_mem_append]
  exact ⟨⟨⟨arithmeticRows_roundTrip, memoryRows_roundTrip⟩, controlRows_roundTrip⟩, otherRows_roundTrip⟩

/-- Settles O3: the row that accepted the word fixes the bits `encode` fixes, and the other bits are the operands. -/
theorem encodeOfDecode : Obligations.EncodeOfDecode := by
  unfold Obligations.EncodeOfDecode
  intro hasMul w i hdecode
  obtain ⟨r, hr, hacc, rfl⟩ := decodeWord_ok_iff.1 hdecode
  exact opcodeRows_roundTrip r hr w (accepts_iff.1 hacc).1

/-! ## The illegal spaces (R88, R89) -/

/-- A statement about every funct3 field is eight statements. -/
theorem forall_funct3 {P : BitVec 3 → Prop} :
    (∀ f, P f) ↔ P 0#3 ∧ P 1#3 ∧ P 2#3 ∧ P 3#3 ∧ P 4#3 ∧ P 5#3 ∧ P 6#3 ∧ P 7#3 := by
  refine ⟨fun h => ⟨h _, h _, h _, h _, h _, h _, h _, h _⟩, fun ⟨h0, h1, h2, h3, h4, h5, h6, h7⟩ f => ?_⟩
  obtain ⟨⟨n, hn⟩⟩ := f
  interval_cases n <;> assumption

/-- Settles O5: both sides speak of opcode, funct3 and funct7 only (and of the whole word under opcode 0x73), so they
are compared opcode by opcode, and under an opcode whose rows fix funct3 for each of its values. -/
theorem rejectsExactlyTheIllegalSpaces : Obligations.RejectsExactlyTheIllegalSpaces := by
  unfold Obligations.RejectsExactlyTheIllegalSpaces
  intro hasMul w
  rw [decodeWord_illegal_iff]
  simp only [opcodeRows, arithmeticRows, memoryRows, controlRows, otherRows, List.forall_mem_append,
    List.forall_mem_cons, accepts_iff, matchesWord_opcode_iff, matchesWord_funct3_iff, matchesWord_funct7_iff,
    matchesWord_whole_iff, BitVec.reduceAnd, illegalSpace]
  generalize opcodeOf w = op, funct3Of w = f3, funct7Of w = f7
  simp only [opcodeOf, funct3Of, funct7Of, BitVec.reduceExtractLsb']
  split_ifs with h03 h13 h23 h33 h63 h67 h73
  · subst h03; revert f3; simp [forall_funct3]
  · subst h13; revert f3; simp [forall_funct3]
  · subst h23; revert f3; simp [forall_funct3]
  · subst h33; revert f3; cases hasMul <;> simp [forall_funct3, and_assoc]
  · subst h63; revert f3; simp [forall_funct3]
  · subst h67; revert f3; simp [forall_funct3]
  · subst h73; simp [and_comm]
  · simp [h03, h13, h23, h33, h63, h67, h73, and_comm, and_assoc]

/-- Settles O12: the decoder rejects the word (R89), so the step raises. -/
theorem illegalWordTraps : Obligations.IllegalWordTraps := by
  unfold Obligations.IllegalWordTraps
  intro s inst hfetch hillegal
  have hreject := (rejectsExactlyTheIllegalSpaces s.cfg.hasMul inst).2 hillegal
  simp [step, hfetch, hreject]

/-! ## Immediates (R79 to R84) -/

/-- A bit of a field extended to a word (D11). -/
theorem getLsbD_signExtend_word {n : Nat} (v : BitVec n) {k : Nat} (hk : k < 32) :
    (v.signExtend 32).getLsbD k = if k < n then v.getLsbD k else v.getLsbD (n - 1) := by
  rw [BitVec.getLsbD_signExtend, decide_eq_true hk, Bool.true_and, BitVec.msb_eq_getLsbD_last]

section Immediates
variable (w : Word) {k : Nat} (hk : k < 32)
include hk

theorem getLsbD_immI_immIOf :
    (immI (immIOf w)).getLsbD k = if k < 12 then w.getLsbD (20 + k) else w.getLsbD 31 := by
  simp only [immI, getLsbD_signExtend_word _ hk, immIOf, getLsbD_extractLsb']
  split <;> simp [*]

theorem getLsbD_immS_immSOf :
    (immS (immSOf w)).getLsbD k =
      if k < 5 then w.getLsbD (7 + k) else if k < 12 then w.getLsbD (20 + k) else w.getLsbD 31 := by
  simp only [immS, getLsbD_signExtend_word _ hk, immSOf, getLsbD_append, getLsbD_extractLsb']
  interval_cases k <;> simp

theorem getLsbD_immB_offsetBOf :
    (immB (offsetBOf w)).getLsbD k =
      if k = 0 then false else if k < 5 then w.getLsbD (7 + k) else if k < 11 then w.getLsbD (20 + k)
        else if k = 11 then w.getLsbD 7 else w.getLsbD 31 := by
  simp only [immB, getLsbD_signExtend_word _ hk, offsetBOf, getLsbD_append, getLsbD_extractLsb']
  interval_cases k <;> simp

theorem getLsbD_immJ_offsetJOf :
    (immJ (offsetJOf w)).getLsbD k =
      if k = 0 then false else if k < 11 then w.getLsbD (20 + k) else if k = 11 then w.getLsbD 20
        else if k < 20 then w.getLsbD k else w.getLsbD 31 := by
  simp only [immJ, getLsbD_signExtend_word _ hk, offsetJOf, getLsbD_append, getLsbD_extractLsb']
  interval_cases k <;> simp

theorem getLsbD_immU_immUOf : (immU (immUOf w)).getLsbD k = if k < 12 then false else w.getLsbD k := by
  rw [immU, getLsbD_append, immUOf, getLsbD_extractLsb']
  split
  · exact BitVec.getLsbD_zero
  · simp [show k - 12 < 20 by omega, show 12 + (k - 12) = k by omega]

end Immediates

theorem toNat_shamtOf (w : Word) : (shamtOf w).toNat = w.toNat / 2 ^ 20 % 32 := by
  rw [shamtOf, BitVec.extractLsb'_toNat, Nat.shiftRight_eq_div_pow]

/-- Settles O6: the shift amount as a number, the U immediate bit by bit. -/
theorem shiftAmountAndUpperImmediate : Obligations.ShiftAmountAndUpperImmediate := by
  unfold Obligations.ShiftAmountAndUpperImmediate
  exact ⟨toNat_shamtOf, fun w _ hk => getLsbD_immU_immUOf w hk⟩

/-- Settles O7, one immediate format after the other. -/
theorem signExtendedImmediates : Obligations.SignExtendedImmediates := by
  unfold Obligations.SignExtendedImmediates
  exact fun w _ hk =>
    ⟨getLsbD_immI_immIOf w hk, getLsbD_immS_immSOf w hk, getLsbD_immB_offsetBOf w hk, getLsbD_immJ_offsetJOf w hk⟩

/-! ## Sample words -/

/-- Settles O1, by running the decoder. -/
theorem sampleWordsDecode : Obligations.SampleWordsDecode := by
  unfold Obligations.SampleWordsDecode
  decide

end Sys2Proof
end

section
/-! PROOFS for `40_arithmetic.md`: the table's rows as encodings, each result as arithmetic on numbers or on bits; and
the statements about the arithmetic instructions. -/

namespace Sys2Proof.Machine

/-! ## Rows of the table as encodings (R85, R87) -/

/-- A row outside the extension table decodes every word it matches, whatever `HAS_MUL` is. The mnemonic finds the row. -/
theorem decodesTo_of_row (name : String) {mask p : Word} {build : Word → Instr}
    (hrow : Row.mk name mask p false build ∈ opcodeRows := by
      simp [opcodeRows, arithmeticRows, memoryRows, controlRows, otherRows]) : DecodesTo mask p build :=
  fun _ _ hw => decodeWord_ok_iff.2 ⟨_, hrow, accepts_iff.2 ⟨beq_iff_eq.2 hw, nofun⟩, rfl⟩

/-! ## Retiring a result (R14, R27) -/

/-- An instruction that retires `v` computes `v`, and what holds of `v` holds of what it computes. -/
theorem exec_computes {i : Instr} {s : State} {rd : RegNum} {v : Word} {P : Word → Prop}
    (hexec : exec i s = .next (retire s rd v)) (hv : P v) :
    ∃ t v, exec i s = .next t ∧ Computes s rd v t ∧ P v :=
  ⟨_, v, hexec, computes_retire s rd v, hv⟩

/-! ## Sums, differences and bits (R101 to R105) -/

/-- A difference is the difference of the numbers, taken into the range of a word. -/
theorem natCast_toNat_sub_word (a b : Word) : ((a - b).toNat : Int) = ((a.toNat : Int) - b.toNat) % 2 ^ 32 := by
  rw [BitVec.toNat_sub]
  omega

/-- Settles O14: the sum is `BitVec.toNat_add`; a difference below 0 is read modulo 2^32. -/
theorem addAndSubResults : Obligations.AddAndSubResults := by
  unfold Obligations.AddAndSubResults
  refine ⟨decodesTo_of_row "add", decodesTo_of_row "sub", fun rd rs1 rs2 s => ⟨?add, ?sub⟩⟩
  case add => exact exec_computes rfl (BitVec.toNat_add _ _)
  case sub => exact exec_computes rfl (natCast_toNat_sub_word _ _)

/-- Settles O15, one operation after the other. -/
theorem bitwiseResults : Obligations.BitwiseResults := by
  unfold Obligations.BitwiseResults
  refine ⟨decodesTo_of_row "and", decodesTo_of_row "or", decodesTo_of_row "xor", fun rd rs1 rs2 s => ⟨?and, ?or, ?xor⟩⟩
  case and => exact exec_computes rfl fun _ _ => BitVec.getLsbD_and
  case or => exact exec_computes rfl fun _ _ => BitVec.getLsbD_or
  case xor => exact exec_computes rfl fun _ _ => BitVec.getLsbD_xor

/-! ## Shifts (R106 to R108, R115 to R117) -/

/-- The low five bits of a register are its remainder by 32 (D10). -/
theorem shiftAmount_eq (v : Word) : shiftAmount v = v.toNat % 32 := by
  rw [shiftAmount, BitVec.extractLsb'_toNat, Nat.shiftRight_zero]

section Shift
variable (a : Word) (n : Nat)

theorem toNat_shiftLeft_word : (a <<< n).toNat = a.toNat * 2 ^ n % 2 ^ 32 := by
  rw [BitVec.toNat_shiftLeft, Nat.shiftLeft_eq]

theorem toNat_ushiftRight_word : (a >>> n).toNat = a.toNat / 2 ^ n := by
  rw [BitVec.toNat_ushiftRight, Nat.shiftRight_eq_div_pow]

/-- Division of integers rounds toward minus infinity, as copies of bit 31 do. -/
theorem toInt_sshiftRight_word : (a.sshiftRight n).toInt = a.toInt / 2 ^ n := by
  rw [BitVec.toInt_sshiftRight, Int.shiftRight_eq_div_pow, Nat.cast_pow, Nat.cast_ofNat]

end Shift

/-- Settles O16: the shifts by a number, the number being `shiftAmount`. -/
theorem registerShiftResults : Obligations.RegisterShiftResults := by
  unfold Obligations.RegisterShiftResults
  simp only [← shiftAmount_eq]
  refine ⟨decodesTo_of_row "sll", decodesTo_of_row "srl", decodesTo_of_row "sra",
    fun rd rs1 rs2 s => ⟨?sll, ?srl, ?sra⟩⟩
  case sll => exact exec_computes rfl (toNat_shiftLeft_word _ _)
  case srl => exact exec_computes rfl (toNat_ushiftRight_word _ _)
  case sra => exact exec_computes rfl (toInt_sshiftRight_word _ _)

/-- Settles O21: the other values of funct7 are in R89's illegal spaces. -/
theorem shiftImmediateResults : Obligations.ShiftImmediateResults := by
  unfold Obligations.ShiftImmediateResults
  refine ⟨decodesTo_of_row "slli", decodesTo_of_row "srli", decodesTo_of_row "srai",
    fun hasMul w hop => ⟨fun h3 h7 => ?leftIllegal, fun h3 h7 h7' => ?rightIllegal⟩,
    fun rd rs1 shamt s => ⟨?slli, ?srli, ?srai⟩⟩
  case leftIllegal => exact (rejectsExactlyTheIllegalSpaces hasMul w).2 (by simp [illegalSpace, hop, h3, h7])
  case rightIllegal => exact (rejectsExactlyTheIllegalSpaces hasMul w).2 (by simp [illegalSpace, hop, h3, h7, h7'])
  case slli => exact exec_computes rfl (toNat_shiftLeft_word _ _)
  case srli => exact exec_computes rfl (toNat_ushiftRight_word _ _)
  case srai => exact exec_computes rfl (toInt_sshiftRight_word _ _)

/-! ## The extended immediate as a number and bit by bit (R79, D11) -/

/-- The unsigned reading of a bit vector is its signed reading, taken into the unsigned range. -/
theorem natCast_toNat_eq_toInt_emod {n : Nat} (v : BitVec n) : (v.toNat : Int) = v.toInt % 2 ^ n := by
  calc (v.toNat : Int) = v.toNat % (2 ^ n : Nat) := by rw [Int.emod_eq_of_lt (by omega) (by exact_mod_cast v.isLt)]
    _ = v.toInt % (2 ^ n : Nat) := by rw [BitVec.toInt_eq_toNat_bmod, Int.bmod_emod]
    _ = v.toInt % 2 ^ n := by rw [Nat.cast_pow, Nat.cast_ofNat]

section Immediate
variable (imm : BitVec 12)

@[simp] theorem toInt_immI : (immI imm).toInt = imm.toInt := BitVec.toInt_signExtend_of_le (by decide)

theorem natCast_toNat_immI : ((immI imm).toNat : Int) = imm.toInt % 2 ^ 32 := by
  rw [natCast_toNat_eq_toInt_emod, toInt_immI]

theorem getLsbD_immI {k : Nat} (hk : k < 32) : (immI imm).getLsbD k = imm.getLsbD (min k 11) := by
  rw [immI, getLsbD_signExtend_word imm hk]
  split
  · rw [Nat.min_eq_left (by omega)]
  · rw [Nat.min_eq_right (by omega)]

theorem natCast_toNat_add_immI (a : Word) : ((a + immI imm).toNat : Int) = ((a.toNat : Int) + imm.toInt) % 2 ^ 32 := by
  have hsum : ((a + immI imm).toNat : Int) = ((a.toNat : Int) + (immI imm).toNat) % 2 ^ 32 := by
    exact_mod_cast BitVec.toNat_add a (immI imm)
  rw [hsum, natCast_toNat_immI, Int.add_emod_emod]

end Immediate

/-- Settles O19: the machine adds the extended immediate, and 2^32 more or less is no difference modulo 2^32. -/
theorem addImmediateResult : Obligations.AddImmediateResult := by
  unfold Obligations.AddImmediateResult
  exact ⟨decodesTo_of_row "addi", fun rd rs1 imm s => exec_computes rfl (natCast_toNat_add_immI imm _)⟩

/-- Settles O20: the operations of `BitwiseResults` on the extended immediate. -/
theorem logicalImmediateResults : Obligations.LogicalImmediateResults := by
  unfold Obligations.LogicalImmediateResults
  refine ⟨decodesTo_of_row "andi", decodesTo_of_row "ori", decodesTo_of_row "xori",
    fun rd rs1 imm s => ⟨?andi, ?ori, ?xori⟩⟩
  case andi => exact exec_computes rfl fun k hk => by rw [BitVec.getLsbD_and, getLsbD_immI imm hk]
  case ori => exact exec_computes rfl fun k hk => by rw [BitVec.getLsbD_or, getLsbD_immI imm hk]
  case xori => exact exec_computes rfl fun k hk => by rw [BitVec.getLsbD_xor, getLsbD_immI imm hk]

/-! ## Comparisons (R109, R110, R118, R119) -/

theorem toNat_flagWord_decide (p : Prop) [Decidable p] : (flagWord (decide p)).toNat = if p then 1 else 0 := by
  by_cases hp : p <;> simp [flagWord, hp]

theorem toNat_flagWord_condLt (a b : Word) : (flagWord (condLt a b)).toNat = if a.toInt < b.toInt then 1 else 0 :=
  toNat_flagWord_decide _

theorem toNat_flagWord_condLtu (a b : Word) : (flagWord (condLtu a b)).toNat = if a.toNat < b.toNat then 1 else 0 :=
  toNat_flagWord_decide _

/-- Settles O17: `condLt` is the comparison of signed readings. -/
theorem setLessThanResult : Obligations.SetLessThanResult := by
  unfold Obligations.SetLessThanResult
  exact ⟨decodesTo_of_row "slt", fun rd rs1 rs2 s => exec_computes rfl (toNat_flagWord_condLt _ _)⟩

/-- Settles O18: `condLtu` is the comparison of unsigned readings. -/
theorem setLessThanUnsignedResult : Obligations.SetLessThanUnsignedResult := by
  unfold Obligations.SetLessThanUnsignedResult
  exact ⟨decodesTo_of_row "sltu", fun rd rs1 rs2 s => exec_computes rfl (toNat_flagWord_condLtu _ _)⟩

/-- Settles O22: sign extension keeps the signed reading. -/
theorem setLessThanImmediateResult : Obligations.SetLessThanImmediateResult := by
  unfold Obligations.SetLessThanImmediateResult
  refine ⟨decodesTo_of_row "slti", fun rd rs1 imm s => ?_⟩
  rw [← toInt_immI imm]
  exact exec_computes rfl (toNat_flagWord_condLt _ _)

/-- Settles O23: sign extension takes a negative immediate from 2^32 upward. -/
theorem setLessThanImmediateUnsignedResult : Obligations.SetLessThanImmediateUnsignedResult := by
  unfold Obligations.SetLessThanImmediateUnsignedResult
  refine ⟨decodesTo_of_row "sltiu", fun rd rs1 imm s => ?_⟩
  simp only [← natCast_toNat_immI, Nat.cast_lt]
  exact exec_computes rfl (toNat_flagWord_condLtu _ _)

end Sys2Proof.Machine
end

section
/-! PROOFS for `41_loads_stores.md`: the address as the statements write it, the two checks failing or passing, and the
statements about the loads and stores. -/

namespace Sys2Proof.Machine

/-! ## The address (R130, D11) -/

section Address
variable (s : State) (rs1 : RegNum) (imm : BitVec 12)

/-- The address of a load adds the immediate's signed reading, taken into the range of a word: sign extension is that. -/
theorem loadAddr_eq : loadAddr s rs1 imm = getReg s rs1 + BitVec.ofInt 32 imm.toInt := rfl

/-- The address of a store adds the immediate's signed reading, as that of a load does. -/
theorem storeAddr_eq : storeAddr s rs1 imm = getReg s rs1 + BitVec.ofInt 32 imm.toInt := rfl

end Address

/-! ## The two checks (R48, R54) -/

section Checks
variable {cfg : Config} {a : Word} {n : Nat}

theorem misaligned_eq_true : misaligned cfg a n = true ↔ a.toNat % n ≠ 0 ∧ cfg.misalignedDataOk = false := by
  simp [misaligned]

theorem validSpan_eq_false :
    validSpan cfg a n = false ↔ ∃ k, k < n ∧ validAddr cfg (a + BitVec.ofNat 32 k) = false := by
  simp [← Bool.not_eq_true, validSpan_iff_offsets]

theorem validSpan_byte (h : validAddr cfg a = true) : validSpan cfg a Width.byte.bytes = true :=
  validSpan_iff.2 fun _ hb => mem_span_one.1 hb ▸ h

theorem validSpan_half (h0 : validAddr cfg a = true) (h1 : validAddr cfg (a + 1#32) = true) :
    validSpan cfg a Width.half.bytes = true :=
  validSpan_iff_offsets.2 fun k hk =>
    match k, hk with
    | 0, _ => by rwa [BitVec.add_zero]
    | 1, _ => h1

/-- An invalid address is an invalid byte of the access of one byte there. -/
theorem exists_invalid_byte (h : validAddr cfg a = false) :
    ∃ k, k < Width.byte.bytes ∧ validAddr cfg (a + BitVec.ofNat 32 k) = false :=
  ⟨0, Nat.one_pos, by rwa [BitVec.add_zero]⟩

end Checks

/-! ## Loads and stores at an aligned address, and the traps (R139, R223) -/

section Accesses
variable {w : Width} {ext : BitVec w.bits → Word} {rd rs1 rs2 : RegNum} {imm : BitVec 12} {s : State}

theorem load_of_aligned (haligned : (loadAddr s rs1 imm).toNat % w.bytes = 0)
    (hvalid : validSpan s.cfg (loadAddr s rs1 imm) w.bytes = true) :
    load w ext rd rs1 imm s = .next (retire s rd (ext (s.mem.read (loadAddr s rs1 imm) w))) :=
  load_of_checks (misaligned_eq_false.2 (.inl haligned)) hvalid

theorem load_of_misaligned (hmod : (loadAddr s rs1 imm).toNat % w.bytes ≠ 0) (hok : s.cfg.misalignedDataOk = false) :
    load w ext rd rs1 imm s = raise (.loadAddressMisaligned (loadAddr s rs1 imm)) s := by
  rw [load_eq, if_pos (misaligned_eq_true.2 ⟨hmod, hok⟩)]

theorem load_of_invalid (hperformed : (loadAddr s rs1 imm).toNat % w.bytes = 0 ∨ s.cfg.misalignedDataOk = true)
    (hout : ∃ k, k < w.bytes ∧ validAddr s.cfg (loadAddr s rs1 imm + BitVec.ofNat 32 k) = false) :
    load w ext rd rs1 imm s = raise (.loadAccessFault (loadAddr s rs1 imm)) s := by
  simp [load_eq, misaligned_eq_false.2 hperformed, validSpan_eq_false.2 hout]

/-- A store whose checks pass at an aligned address has the whole effect the statements ask of it. -/
theorem store_of_aligned (haligned : (storeAddr s rs1 imm).toNat % w.bytes = 0)
    (hvalid : validSpan s.cfg (storeAddr s rs1 imm) w.bytes = true) :
    ∃ t, store w rs1 rs2 imm s = .next t ∧ Stores s (storeAddr s rs1 imm) w.bytes (getReg s rs2) t :=
  ⟨_, store_of_checks (misaligned_eq_false.2 (.inl haligned)) hvalid, stores_advance_storeBytes s w _ _⟩

theorem store_of_misaligned (hmod : (storeAddr s rs1 imm).toNat % w.bytes ≠ 0)
    (hok : s.cfg.misalignedDataOk = false) :
    store w rs1 rs2 imm s = raise (.storeAddressMisaligned (storeAddr s rs1 imm)) s := by
  rw [store_eq, if_pos (misaligned_eq_true.2 ⟨hmod, hok⟩)]

theorem store_of_invalid (hperformed : (storeAddr s rs1 imm).toNat % w.bytes = 0 ∨ s.cfg.misalignedDataOk = true)
    (hout : ∃ k, k < w.bytes ∧ validAddr s.cfg (storeAddr s rs1 imm + BitVec.ofNat 32 k) = false) :
    store w rs1 rs2 imm s = raise (.storeAccessFault (storeAddr s rs1 imm)) s := by
  simp [store_eq, misaligned_eq_false.2 hperformed, validSpan_eq_false.2 hout]

end Accesses

/-! ## The values loaded (R131 to R135) -/

/-- The signed reading of a value over a byte: the upper part keeps its sign, the byte is unsigned. -/
theorem toInt_append_byte {n : Nat} (v : BitVec (n + 1)) (b : Byte) : (v ++ b).toInt = v.toInt * 256 + b.toNat := by
  rw [BitVec.toInt_append, if_neg (by simp), Int.mul_comm]
  rfl

/-- Settles O25: aligned and valid, each load retires the value read; what is left is that value widened. -/
theorem loadResults : Obligations.LoadResults := by
  unfold Obligations.LoadResults
  refine ⟨decodesTo_of_row "lb", decodesTo_of_row "lbu", decodesTo_of_row "lh", decodesTo_of_row "lhu",
    decodesTo_of_row "lw", fun rd rs1 imm s a ha => ?_⟩
  obtain rfl := ha.trans (loadAddr_eq s rs1 imm).symm
  have hone : (loadAddr s rs1 imm).toNat % Width.byte.bytes = 0 := Nat.mod_one _
  refine ⟨fun h => ⟨?lb, ?lbu⟩, fun hmod h0 h1 => ⟨?lh, ?lhu⟩, fun hmod hvalid => ?lw⟩
  case lb => exact exec_computes (load_of_aligned hone (validSpan_byte h)) (BitVec.toInt_signExtend_of_le (by decide))
  case lbu => exact exec_computes (load_of_aligned hone (validSpan_byte h)) (BitVec.toNat_setWidth_of_le (by decide))
  case lh =>
    exact exec_computes (load_of_aligned hmod (validSpan_half h0 h1))
      ((BitVec.toInt_signExtend_of_le (by decide)).trans (toInt_append_byte _ _))
  case lhu =>
    exact exec_computes (load_of_aligned hmod (validSpan_half h0 h1))
      ((BitVec.toNat_setWidth_of_le (by decide)).trans (toNat_read_half s _))
  case lw =>
    exact exec_computes (load_of_aligned hmod (validSpan_iff_offsets.2 hvalid)) fun k hk => byteOf_read s .word _ hk

/-- Settles O26: alignment is checked first, then validity; what is done with the value read plays no part. -/
theorem loadTraps : Obligations.LoadTraps := by
  unfold Obligations.LoadTraps
  rintro rd rs1 imm s a rfl
  refine ⟨fun h => ⟨?lb, ?lbu⟩, fun hmod hok => ⟨?lhMisaligned, ?lhuMisaligned⟩, fun hmod hok => ?lwMisaligned,
    fun hperformed hout => ⟨?lhInvalid, ?lhuInvalid⟩, fun hperformed hout => ?lwInvalid⟩
  case lb | lbu => exact load_of_invalid (.inl (Nat.mod_one _)) (exists_invalid_byte h)
  case lhMisaligned | lhuMisaligned | lwMisaligned => exact load_of_misaligned hmod hok
  case lhInvalid | lhuInvalid | lwInvalid => exact load_of_invalid hperformed hout

/-- Settles O27: aligned and valid, each store has the effect of `store_of_aligned` at its width. -/
theorem storeResults : Obligations.StoreResults := by
  unfold Obligations.StoreResults
  refine ⟨decodesTo_of_row "sb", decodesTo_of_row "sh", decodesTo_of_row "sw", fun rs1 rs2 imm s a ha => ?_⟩
  obtain rfl := ha.trans (storeAddr_eq s rs1 imm).symm
  refine ⟨fun h => ?sb, fun hmod h0 h1 => ?sh, fun hmod hvalid => ?sw⟩
  case sb => exact store_of_aligned (w := .byte) (Nat.mod_one _) (validSpan_byte h)
  case sh => exact store_of_aligned (w := .half) hmod (validSpan_half h0 h1)
  case sw => exact store_of_aligned (w := .word) hmod (validSpan_iff_offsets.2 hvalid)

/-- Settles O28: both checks stand before the first byte is written, so the trap is of the unchanged state. -/
theorem storeTraps : Obligations.StoreTraps := by
  unfold Obligations.StoreTraps
  rintro rs1 rs2 imm s a rfl
  refine ⟨fun h => ?sb, fun hmod hok => ?shMisaligned, fun hmod hok => ?swMisaligned,
    fun hperformed hout => ?shInvalid, fun hperformed hout => ?swInvalid⟩
  case sb => exact store_of_invalid (.inl (Nat.mod_one _)) (exists_invalid_byte h)
  case shMisaligned | swMisaligned => exact store_of_misaligned hmod hok
  case shInvalid | swInvalid => exact store_of_invalid hperformed hout

end Sys2Proof.Machine
end

section
/-! PROOFS for `42_control.md`: what setting `pc` leaves unchanged, the six conditions, the targets as the statements
write them; and the statements about the branches and the two jumps. -/

namespace Sys2Proof.Machine

/-! ## The frames of a jump (R150, R157) -/

/-- Setting `pc` is the whole effect of an instruction that only goes somewhere. -/
theorem goesTo_setPc (s : State) (target : Word) : GoesTo s target (s.setPc target) where
  nextPc := rfl
  regs _ := rfl
  memory _ := rfl
  others := ⟨rfl, rfl, rfl⟩

/-- Writing the link and then setting `pc` is the whole effect of a jump that links. -/
theorem links_setPc_setReg (s : State) (rd : RegNum) (target : Word) :
    Links s rd target ((setReg s rd (s.pc + 4#32)).setPc target) where
  result := getReg_setReg_self s rd _
  zeroRegister := getReg_zero _
  otherRegs r hr := getReg_setReg_of_ne s rd r _ hr
  nextPc := rfl
  memory := readByte_setReg s rd _
  others := ⟨setReg_written s rd _, setReg_cfg s rd _, setReg_answered s rd _⟩

/-! ## The conditions (R151 to R156) -/

section Conditions
variable {a b : Word}

theorem condEq_iff : condEq a b = true ↔ a = b := beq_iff_eq
theorem condNe_iff : condNe a b = true ↔ a ≠ b := bne_iff_ne
theorem condLt_iff : condLt a b = true ↔ a.toInt < b.toInt := decide_eq_true_iff
theorem condGe_iff : condGe a b = true ↔ b.toInt ≤ a.toInt := decide_eq_true_iff
theorem condLtu_iff : condLtu a b = true ↔ a.toNat < b.toNat := decide_eq_true_iff
theorem condGeu_iff : condGeu a b = true ↔ b.toNat ≤ a.toNat := decide_eq_true_iff

end Conditions

/-! ## Targets (R82, R84, R158) -/

/-- The target of a branch adds the offset's signed reading, taken into the range of a word (D5, D11). -/
theorem branchTarget_eq (s : State) (offset : BitVec 13) :
    branchTarget s offset = s.pc + BitVec.ofInt 32 offset.toInt := rfl

/-- The target of `jal` adds the offset's signed reading, as that of a branch does. -/
theorem jalTarget_eq (s : State) (offset : BitVec 21) : jalTarget s offset = s.pc + BitVec.ofInt 32 offset.toInt := rfl

/-- Clearing bit 0 is a shift to the right and back, so it rounds down to an even number (R158). -/
theorem toNat_and_clearBit0 (v : Word) : (v &&& 0xFFFFFFFE#32).toNat = v.toNat / 2 * 2 := by
  have hmask : 0xFFFFFFFE#32 = BitVec.allOnes 32 <<< 1 := rfl
  rw [hmask, ← BitVec.shiftLeft_ushiftRight, toNat_shiftLeft_word, toNat_ushiftRight_word]
  omega

/-- The target of `jalr` as a number, under both settings of `JALR_CLEAR_BIT0` (D9, D12). -/
theorem toNat_jalrTarget (s : State) (rs1 : RegNum) (imm : BitVec 12) :
    (jalrTarget s rs1 imm).toNat =
      if s.cfg.jalrClearBit0 then (getReg s rs1 + BitVec.ofInt 32 imm.toInt).toNat / 2 * 2
      else (getReg s rs1 + BitVec.ofInt 32 imm.toInt).toNat := by
  unfold jalrTarget
  split
  · exact toNat_and_clearBit0 _
  · rfl

/-! ## Branches (R150 to R156) -/

/-- What an instruction does that branches under a condition, whichever condition it is (R150, R159). -/
theorem branch_results {i : Instr} {s : State} {cond : Word → Word → Bool} {rs1 rs2 : RegNum} {offset : BitVec 13}
    {taken : Prop} (hexec : exec i s = branch cond rs1 rs2 offset s)
    (htaken : taken ↔ cond (getReg s rs1) (getReg s rs2) = true) :
    (¬taken → ∃ t, exec i s = .next t ∧ GoesTo s (s.pc + 4#32) t) ∧
    (taken → (branchTarget s offset).toNat % 4 = 0 → ∃ t, exec i s = .next t ∧ GoesTo s (branchTarget s offset) t) ∧
    (taken → (branchTarget s offset).toNat % 4 ≠ 0 →
      exec i s = raise (.instructionAddressMisaligned (branchTarget s offset)) s) := by
  rw [hexec, branch_eq, htaken]
  refine ⟨fun hc => ?untaken, fun hc halign => ?aligned, fun hc hmis => ?misaligned⟩
  case untaken => exact ⟨_, if_neg hc, goesTo_setPc s _⟩
  case aligned => exact ⟨_, (if_pos hc).trans (if_pos halign), goesTo_setPc s _⟩
  case misaligned => exact (if_pos hc).trans (if_neg hmis)

/-- Settles O32: the six differ in their condition alone. -/
theorem branchResults : Obligations.BranchResults := by
  unfold Obligations.BranchResults
  refine ⟨decodesTo_of_row "beq", decodesTo_of_row "bne", decodesTo_of_row "blt", decodesTo_of_row "bltu",
    decodesTo_of_row "bge", decodesTo_of_row "bgeu", fun rs1 rs2 offset s i taken target htarget hbranch => ?_⟩
  obtain rfl := htarget.trans (branchTarget_eq s offset).symm
  obtain ⟨rfl, hbeq⟩ | ⟨rfl, hbne⟩ | ⟨rfl, hblt⟩ | ⟨rfl, hbltu⟩ | ⟨rfl, hbge⟩ | ⟨rfl, hbgeu⟩ := hbranch
  · exact branch_results rfl (hbeq.trans condEq_iff.symm)
  · exact branch_results rfl (hbne.trans condNe_iff.symm)
  · exact branch_results rfl (hblt.trans condLt_iff.symm)
  · exact branch_results rfl (hbltu.trans condLtu_iff.symm)
  · exact branch_results rfl (hbge.trans condGe_iff.symm)
  · exact branch_results rfl (hbgeu.trans condGeu_iff.symm)

/-! ## Jumps that link (R157 to R159) -/

/-- What an instruction does that jumps and links, wherever its target comes from: the target is computed before the
link is written (C5). -/
theorem jumpAndLink_results {i : Instr} {s : State} {rd : RegNum} {target : Word}
    (hexec : exec i s = jumpAndLink rd target s) :
    (target.toNat % 4 = 0 → ∃ t, exec i s = .next t ∧ Links s rd target t) ∧
    (target.toNat % 4 ≠ 0 → exec i s = raise (.instructionAddressMisaligned target) s) := by
  rw [hexec, jumpAndLink_eq]
  exact ⟨fun halign => ⟨_, if_pos halign, links_setPc_setReg s rd target⟩, fun hmis => if_neg hmis⟩

/-- Settles O33: a jump that links, to `jalTarget`. -/
theorem jumpAndLinkResult : Obligations.JumpAndLinkResult := by
  unfold Obligations.JumpAndLinkResult
  refine ⟨decodesTo_of_row "jal", fun rd offset s target htarget => ?_⟩
  obtain rfl := htarget.trans (jalTarget_eq s offset).symm
  exact jumpAndLink_results rfl

/-- Settles O34: a jump that links, to `jalrTarget`, which its number determines. -/
theorem jumpAndLinkRegisterResult : Obligations.JumpAndLinkRegisterResult := by
  unfold Obligations.JumpAndLinkRegisterResult
  refine ⟨decodesTo_of_row "jalr", fun rd rs1 imm s sum target hsum htarget => ?_⟩
  subst hsum
  obtain rfl := BitVec.eq_of_toNat_eq (htarget.trans (toNat_jalrTarget s rs1 imm).symm)
  exact jumpAndLink_results rfl

end Sys2Proof.Machine
end

section
/-! PROOFS for `43_other.md`: the upper immediate as a number, what the environment's answer leaves of a trap, and the
statements about `lui`, `auipc`, `ecall` and `ebreak`. -/

namespace Sys2Proof.Machine

/-! ## The upper immediate (R83, R170, R171) -/

/-- The field stands above twelve zeros. -/
theorem toNat_immU (immu : BitVec 20) : (immU immu).toNat = immu.toNat * 4096 := by
  rw [immU, BitVec.toNat_append, ← Nat.shiftLeft_add_eq_or_of_lt (BitVec.isLt _), Nat.shiftLeft_eq,
    BitVec.toNat_zero, Nat.add_zero]

/-- Settles O35: `lui` retires the upper immediate itself. -/
theorem loadUpperImmediateResult : Obligations.LoadUpperImmediateResult := by
  unfold Obligations.LoadUpperImmediateResult
  exact ⟨decodesTo_of_row "lui", fun _ immu _ => exec_computes rfl (toNat_immU immu)⟩

theorem toNat_add_immU (a : Word) (immu : BitVec 20) :
    (a + immU immu).toNat = (a.toNat + immu.toNat * 4096) % 2 ^ 32 := by
  rw [BitVec.toNat_add, toNat_immU]

/-- Settles O36: `auipc` retires its own address plus the upper immediate. -/
theorem addUpperImmediateToPcResult : Obligations.AddUpperImmediateToPcResult := by
  unfold Obligations.AddUpperImmediateToPcResult
  exact ⟨decodesTo_of_row "auipc", fun _ immu s => exec_computes rfl (toNat_add_immU s.pc immu)⟩

/-! ## Traps of the environment instructions (R172, R173, R221, R225) -/

/-- Only what the environment's user marks enters `Written` (R225). -/
theorem mem_resume_written {s : State} {a : Resumption} {k : Nat} :
    k ∈ (resume s a).written ↔ k ∈ s.written ∨ k ∈ a.marked := by
  rw [resume_written, AddrSet.mem_markAll]

/-- An instruction whose whole effect is a trap goes on at the state the environment supplies, or stops at the trap. -/
theorem trap_results {i : Instr} {e : Fault} {s : State} (hexec : exec i s = raise e s) :
    (∀ a : Resumption, answerTo s e = some a →
      ∃ t, exec i s = .next t ∧ t.regs = a.regs ∧ t.pc = a.pc ∧ t.mem = a.mem ∧
        (∀ k, k ∈ t.written ↔ k ∈ s.written ∨ k ∈ a.marked) ∧ t.cfg = s.cfg) ∧
    (answerTo s e = none → exec i s = .fault e) := by
  rw [hexec]
  refine ⟨fun a ha => ?answered, fun hhalt => ?halt⟩
  case answered =>
    exact ⟨resume s a, raise_resume ha, resume_regs s a, resume_pc s a, resume_mem s a, fun _ => mem_resume_written,
      resume_cfg s a⟩
  case halt => exact raise_halt hhalt

/-- Settles O37: each of the two is a trap and nothing else. -/
theorem environmentInstructionsTrap : Obligations.EnvironmentInstructionsTrap := by
  unfold Obligations.EnvironmentInstructionsTrap
  refine ⟨decodesTo_of_row "ecall", decodesTo_of_row "ebreak", fun i e s htrap => ?_⟩
  obtain ⟨rfl, rfl⟩ | ⟨rfl, rfl⟩ := htrap
  · exact trap_results rfl
  · exact trap_results rfl

end Sys2Proof.Machine
end

section
/-! PROOFS for `44_extension_mul.md`: the one row of the table that takes part only with `HAS_MUL`, and the statements
about its decoding and about the product. -/

namespace Sys2Proof

/-! ## The row that needs `HAS_MUL` (R85, R180, R181) -/

/-- The row of the extension table, as `otherRows` has it. -/
def mulRow : Row := ⟨"mul", 0xFE00707F#32, 0x02000033#32, true, buildR .mul⟩

theorem mulRow_mem : mulRow ∈ opcodeRows := List.mem_append_right _ (List.mem_of_getElem? (i := 4) rfl)

/-- No other row of R87 needs the parameter. -/
theorem eq_mulRow_of_needsMul : ∀ r ∈ opcodeRows, r.needsMul = true → r = mulRow := by
  simp only [opcodeRows, arithmeticRows, memoryRows, controlRows, otherRows, List.forall_mem_append,
    List.forall_mem_cons]
  simp [mulRow]

section Word
variable {w : Word}

theorem mulRow_matchesWord_iff : mulRow.matchesWord w = true ↔ w &&& 0xFE00707F#32 = 0x02000033#32 := beq_iff_eq

/-- Under `HAS_MUL` the row accepts the word like any other row. -/
theorem decodeWord_mul (hw : mulRow.matchesWord w = true) :
    decodeWord true w = .ok (.mul (rdOf w) (rs1Of w) (rs2Of w)) :=
  decodeWord_ok_iff.2 ⟨mulRow, mulRow_mem, accepts_iff.2 ⟨hw, fun _ => rfl⟩, rfl⟩

/-- Without `HAS_MUL` the word is illegal: the only row it matches does not take part. -/
theorem decodeWord_mul_illegal (hw : mulRow.matchesWord w = true) :
    decodeWord false w = .error (.illegalInstruction w) := by
  refine decodeWord_illegal_iff.2 fun r hr hacc => ?_
  obtain ⟨hmatch, hneeds⟩ := accepts_iff.1 hacc
  obtain rfl := row_eq_of_matchesWord hr mulRow_mem hmatch hw
  exact absurd (hneeds rfl) Bool.false_ne_true

/-- Whether a row accepts a word that is no `mul` does not depend on `HAS_MUL`. -/
theorem accepts_true_iff_false (hw : ¬ mulRow.matchesWord w = true) {r : Row} (hr : r ∈ opcodeRows) :
    r.accepts true w = true ↔ r.accepts false w = true := by
  rw [accepts_iff, accepts_iff]
  refine and_congr_right fun hmatch => ?_
  have hneeds : ¬ r.needsMul = true := fun h => hw (eq_mulRow_of_needsMul r hr h ▸ hmatch)
  exact ⟨fun _ h => absurd h hneeds, fun _ h => absurd h hneeds⟩

/-- The same rows accept the word under both settings, so the decoder finds the same one. -/
theorem decodeWord_true_eq_false (hw : ¬ mulRow.matchesWord w = true) : decodeWord true w = decodeWord false w := by
  have hfind : opcodeRows.find? (fun r => r.accepts true w) = opcodeRows.find? (fun r => r.accepts false w) :=
    List.find?_congr fun r hr => Bool.eq_iff_iff.2 (accepts_true_iff_false hw hr)
  rw [decodeWord, hfind, decodeWord]

end Word

/-- Settles O8: `mulRow` is the only row that needs the parameter, and no other row matches its words. -/
theorem hasMulAdmitsOnlyMul : Obligations.HasMulAdmitsOnlyMul := by
  unfold Obligations.HasMulAdmitsOnlyMul
  simp only [← mulRow_matchesWord_iff, ne_eq]
  exact ⟨fun w hw => ⟨decodeWord_mul hw, decodeWord_mul_illegal hw⟩, fun w hw => decodeWord_true_eq_false hw⟩

namespace Machine

/-! ## The product (R181, D15) -/

/-- The signed reading of the low half and the product of the signed readings differ by a multiple of 2^32. -/
theorem toInt_mul_sub_emod_word (a b : Word) : ((a * b).toInt - a.toInt * b.toInt) % 2 ^ 32 = 0 := by
  rw [← Int.emod_eq_emod_iff_emod_sub_eq_zero, BitVec.toInt_mul]
  exact Int.bmod_emod

/-- Settles O24: one word is the low half of the unsigned and of the signed product. -/
theorem multiplyResult : Obligations.MultiplyResult := by
  unfold Obligations.MultiplyResult
  exact fun rd rs1 rs2 s => exec_computes rfl ⟨BitVec.toNat_mul _ _, toInt_mul_sub_emod_word _ _⟩

end Machine

end Sys2Proof
end

section
/-! PROOFS for `45_assembler_pseudo.md`: the offset of a label within reach, the `hi` and `lo` parts of a constant put
together again, the run of a translation; and the statements about the pseudo-instructions. -/

namespace Sys2Proof.Machine

/-! ## The offset of a label within reach (R186, R188) -/

/-- An offset whose bit 0 is 0 is an even number. -/
theorem toInt_emod_two_of_evenOffset {n : Nat} {o : BitVec (n + 1)} (h : evenOffset o = true) : o.toInt % 2 = 0 := by
  have hbit : o.getLsbD 0 = false := by simpa [evenOffset] using h
  have hnat : o.toNat % 2 = 0 := by simpa [BitVec.getLsbD, Nat.testBit_zero] using hbit
  calc o.toInt % 2 = o.toInt % 2 ^ (n + 1) % 2 := (Int.emod_emod_of_dvd _ (dvd_pow_self 2 n.succ_ne_zero)).symm
    _ = (o.toNat : Int) % 2 := by rw [natCast_toNat_eq_toInt_emod]
    _ = 0 := by exact_mod_cast hnat

/-- The distance to a label is the offset that leads to it, over the end of the space too (log 28). -/
theorem distance_add_ofInt {n : Nat} (hn : n ≤ 32) (here : Word) (o : BitVec n) :
    distance here (here + BitVec.ofInt 32 o.toInt) = o.toInt := by
  rw [distance, BitVec.add_comm, BitVec.add_sub_cancel]
  exact BitVec.toInt_signExtend_of_le hn

/-- Every even branch offset is in the range of R186. -/
theorem offset13Of_toInt {o : BitVec 13} (h : evenOffset o = true) : offset13Of o.toInt = some o := by
  have heven := toInt_emod_two_of_evenOffset h
  have hlow := BitVec.le_toInt o
  have hhigh := BitVec.toInt_lt (x := o)
  rw [offset13Of, if_pos (by omega), BitVec.ofInt_toInt]

/-- Every even `jal` offset is in the range of R186. -/
theorem offset21Of_toInt {o : BitVec 21} (h : evenOffset o = true) : offset21Of o.toInt = some o := by
  have heven := toInt_emod_two_of_evenOffset h
  have hlow := BitVec.le_toInt o
  have hhigh := BitVec.toInt_lt (x := o)
  rw [offset21Of, if_pos (by omega), BitVec.ofInt_toInt]

/-! ## The immediates of `mv`, `nop`, `jr`, `ret` and of `not` (R79) -/

@[simp] theorem immI_zero : immI 0#12 = 0#32 := rfl

theorem immI_allOnes : immI 0xFFF#12 = BitVec.allOnes 32 := rfl

/-! ## `hi` and `lo` (R195, R196, D26) -/

section HiLo
variable (v : Word)

/-- `lo` as `addi` reads it is the constant modulo 2^12. -/
theorem toInt_loPart_emod : (loPart v).toInt % 2 ^ 12 = v.toInt % 2 ^ 12 := by
  have hlo : (loPart v).toNat = v.toNat % 2 ^ 12 := by
    rw [loPart, BitVec.extractLsb'_toNat, Nat.shiftRight_zero]
  have hlo_toInt := natCast_toNat_eq_toInt_emod (loPart v)
  have hv_toInt := natCast_toNat_eq_toInt_emod v
  omega

/-- A constant in the range of `addi` is its `lo`, so no `lui` is needed. -/
theorem immI_loPart_of_fitsAddi {v : Word} (h : fitsAddi v = true) : immI (loPart v) = v := by
  obtain ⟨hlow, hhigh⟩ : -2048 ≤ v.toInt ∧ v.toInt ≤ 2047 := by simpa [fitsAddi] using h
  have hmod := toInt_loPart_emod v
  have hlo_low := BitVec.le_toInt (loPart v)
  have hlo_high := BitVec.toInt_lt (x := loPart v)
  refine BitVec.eq_of_toInt_eq ?_
  rw [toInt_immI]
  omega

/-- What is left of a constant once its `lo` is taken away ends in twelve zeros. -/
theorem toNat_sub_loPart_emod : (v - immI (loPart v)).toNat % 4096 = 0 := by
  have hsub := natCast_toNat_sub_word v (immI (loPart v))
  have hlo := natCast_toNat_immI (loPart v)
  have hmod := toInt_loPart_emod v
  have hv := natCast_toNat_eq_toInt_emod v
  omega

/-- `hi` holds all the rest of the constant: shifting it right loses only zeros. -/
theorem immU_hiPart : immU (hiPart v) = v - immI (loPart v) := by
  refine BitVec.eq_of_toNat_eq ?_
  have hzeros := toNat_sub_loPart_emod v
  have hlt := (v - immI (loPart v)).isLt
  rw [toNat_immU, hiPart, BitVec.extractLsb'_toNat, Nat.shiftRight_zero, toNat_ushiftRight_word]
  omega

/-- The two parts make the constant again, whatever the sign of `lo`. -/
theorem immU_hiPart_add_immI_loPart : immU (hiPart v) + immI (loPart v) = v := by
  rw [immU_hiPart, BitVec.sub_add_cancel]

end HiLo

/-! ## The run of a translation (R189) -/

section Run
variable {s t u : State} {i : Instr} {rd : RegNum} {v w : Word}

/-- An instruction that retires `w` computes whatever `w` is known to be. -/
theorem exec_computes_eq (hexec : exec i s = .next (retire s rd w)) (hvalue : w = v) :
    ∃ t, exec i s = .next t ∧ Computes s rd v t :=
  ⟨_, hexec, hvalue ▸ computes_retire s rd w⟩

/-- A run goes on after an instruction that does. -/
theorem execAll_cons_of_next {rest : List Instr} (h : exec i s = .next t) : execAll (i :: rest) s = execAll rest t := by
  rw [execAll, h]

/-- What `li` and `la` ask of a run: `rd` holds `v`, nothing else changes, and the run goes on at `next`. It is
`Computes` for more instructions than one. -/
def LeavesIn (s : State) (rd : RegNum) (v next : Word) (t : State) : Prop :=
  (rd ≠ 0#5 → getReg t rd = v) ∧ sameRegsBut rd s t ∧ getReg t 0#5 = 0#32 ∧ sameMemory s t ∧ sameOthers s t ∧
    t.pc = next

theorem Computes.leavesIn (h : Computes s rd v t) : LeavesIn s rd v (s.pc + 4#32) t :=
  ⟨h.result, h.otherRegs, h.zeroRegister, h.memory, h.others, h.nextPc⟩

theorem sameOthers.trans (hst : sameOthers s t) (htu : sameOthers t u) : sameOthers s u := by
  obtain ⟨hwritten, hcfg, hanswered⟩ := hst
  obtain ⟨hwritten', hcfg', hanswered'⟩ := htu
  exact ⟨hwritten'.trans hwritten, hcfg'.trans hcfg, hanswered'.trans hanswered⟩

/-- The second of two instructions that compute into one register decides what it holds. -/
theorem Computes.leavesIn_trans (hst : Computes s rd v t) (htu : Computes t rd w u) :
    LeavesIn s rd w (s.pc + 8#32) u := by
  refine ⟨htu.result, fun r hr => ?regs, htu.zeroRegister, fun a => ?memory, hst.others.trans htu.others, ?pc⟩
  case regs => rw [htu.otherRegs r hr, hst.otherRegs r hr]
  case memory => rw [htu.memory a, hst.memory a]
  case pc => rw [htu.nextPc, hst.nextPc, BitVec.add_assoc]; rfl

/-- The common shape of `li` and `la`: an upper part retired into `rd`, then a lower part added to it there. Where `rd`
is `x0` the `addi` reads 0, and nothing is left to say of the sum. -/
theorem execAll_addi_leavesIn (hexec : exec i s = .next (retire s rd v)) {imm : BitVec 12} (hsum : v + immI imm = w) :
    ∃ u, execAll [i, .addi rd rd imm] s = .next u ∧ LeavesIn s rd w (s.pc + 8#32) u := by
  have hfirst := computes_retire s rd v
  have hsecond := computes_retire (retire s rd v) rd (getReg (retire s rd v) rd + immI imm)
  obtain ⟨hresult, hframe⟩ := hfirst.leavesIn_trans hsecond
  refine ⟨_, (execAll_cons_of_next hexec).trans (execAll_single _ _), fun hrd => ?_, hframe⟩
  exact (hresult hrd).trans (by rw [hfirst.result hrd, hsum])

end Run

/-- Settles O58: the three translations of `li`, by whether the constant fits `addi` and, if not, whether its `lo` is
0. -/
theorem loadImmediatePseudo : Obligations.LoadImmediatePseudo := by
  unfold Obligations.LoadImmediatePseudo
  intro s rd imm here
  have hparts := immU_hiPart_add_immI_loPart imm
  by_cases hfits : fitsAddi imm = true
  case pos =>
    have hvalue : 0#32 + immI (loPart imm) = imm := by rw [BitVec.zero_add, immI_loPart_of_fitsAddi hfits]
    obtain ⟨t, hrun, hcomputes⟩ := exec_computes_eq (i := .addi rd 0#5 (loPart imm)) (s := s) rfl hvalue
    exact ⟨_, t, by rw [expand, if_pos hfits], (execAll_single _ _).trans hrun, .inl rfl, hcomputes.leavesIn⟩
  case neg =>
    by_cases hlo : loPart imm = 0#12
    case pos =>
      have hvalue : immU (hiPart imm) = imm := by rwa [hlo, immI_zero, BitVec.add_zero] at hparts
      obtain ⟨t, hrun, hcomputes⟩ := exec_computes_eq (i := .lui rd (hiPart imm)) (s := s) rfl hvalue
      exact ⟨_, t, by rw [expand, if_neg hfits, if_pos hlo], (execAll_single _ _).trans hrun, .inl rfl,
        hcomputes.leavesIn⟩
    case neg =>
      obtain ⟨t, hrun, hleaves⟩ := execAll_addi_leavesIn (i := .lui rd (hiPart imm)) (s := s) rfl hparts
      exact ⟨_, t, by rw [expand, if_neg hfits, if_neg hlo], hrun, .inr rfl, hleaves⟩

/-- Settles O59: `auipc` and `addi` together add the label's distance to the address of the `auipc`. -/
theorem loadAddressPseudo : Obligations.LoadAddressPseudo := by
  unfold Obligations.LoadAddressPseudo
  intro s rd label
  have hsum : s.pc + immU (hiPart (label - s.pc)) + immI (loPart (label - s.pc)) = label := by
    rw [BitVec.add_assoc, immU_hiPart_add_immI_loPart, BitVec.add_comm, BitVec.sub_add_cancel]
  obtain ⟨t, hrun, hleaves⟩ := execAll_addi_leavesIn (i := .auipc rd (hiPart (label - s.pc))) rfl hsum
  exact ⟨_, t, rfl, hrun, rfl, hleaves⟩

/-! ## Register operations (R197 to R200) -/

/-- Settles O57: each translation is one instruction with `x0` or a constant for an operand. -/
theorem pseudoRegisterOperations : Obligations.PseudoRegisterOperations := by
  unfold Obligations.PseudoRegisterOperations
  simp only [execAll_single]
  refine fun s rd rs1 => ⟨⟨rfl, ?mv⟩, ⟨rfl, ?neg⟩, ⟨rfl, rfl, ?nop⟩, ⟨rfl, ?not⟩⟩
  case mv => exact exec_computes_eq rfl (BitVec.add_zero (getReg s rs1))
  case neg => exact exec_computes rfl ((natCast_toNat_sub_word 0#32 _).trans (by simp))
  case nop => exact ⟨_, rfl, goesTo_setPc s _⟩
  case not =>
    refine exec_computes rfl fun k hk => ?_
    rw [BitVec.getLsbD_xor, immI_allOnes, BitVec.getLsbD_allOnes, decide_eq_true hk, Bool.xor_true]

/-! ## Jumps and branches (R190 to R194, R201, R202) -/

/-- A jump that keeps no link only goes to its target. -/
theorem Links.goesTo {s t : State} {target : Word} (h : Links s 0#5 target t) : GoesTo s target t where
  nextPc := h.nextPc
  regs r := by
    by_cases hr : r = 0#5
    · rw [hr, h.zeroRegister, getReg_zero]
    · exact h.otherRegs r hr
  memory := h.memory
  others := h.others

/-- A branch goes to its target or on, where the target is aligned or not needed. -/
theorem branch_goesTo {i : Instr} {s : State} {cond : Word → Word → Bool} {rs1 rs2 : RegNum} {offset : BitVec 13}
    {taken : Prop} [Decidable taken] (hexec : exec i s = branch cond rs1 rs2 offset s)
    (htaken : taken ↔ cond (getReg s rs1) (getReg s rs2) = true)
    (hok : (branchTarget s offset).toNat % 4 = 0 ∨ ¬taken) :
    ∃ t, exec i s = .next t ∧ GoesTo s (if taken then branchTarget s offset else s.pc + 4#32) t := by
  obtain ⟨huntaken, haligned, -⟩ := branch_results hexec htaken
  split
  case isTrue hc => exact haligned hc (hok.resolve_right (not_not_intro hc))
  case isFalse hc => exact huntaken hc

/-- With no immediate the target of `jalr` is the register, unless a bit 0 that is 1 is cleared (R158, D9). -/
theorem jalrTarget_zero {s : State} {r : RegNum} (h : (getReg s r).toNat % 4 = 0 ∨ s.cfg.jalrClearBit0 = false) :
    jalrTarget s r 0#12 = getReg s r := by
  refine BitVec.eq_of_toNat_eq ?_
  have hsum : getReg s r + BitVec.ofInt 32 (0#12).toInt = getReg s r := BitVec.add_zero _
  rw [toNat_jalrTarget, hsum]
  split
  case isTrue hclear =>
    have haligned := h.resolve_right (by simp [hclear])
    omega
  case isFalse => rfl

/-- Settles O56: each translation is one branch or jump, whose target is the label or the register. -/
theorem pseudoJumpsAndBranches : Obligations.PseudoJumpsAndBranches := by
  unfold Obligations.PseudoJumpsAndBranches
  simp only [execAll_single]
  refine fun s rs1 label => ⟨fun o heven hlabel => ?branch, fun o heven hlabel => ?jal, rfl, rfl, fun r => ?jalr⟩
  case branch =>
    have hoffset : offset13Of (distance s.pc label) = some o := by
      rw [hlabel, distance_add_ofInt (by decide), offset13Of_toInt heven]
    obtain rfl := hlabel.trans (branchTarget_eq s o).symm
    have hbeq : getReg s rs1 = 0#32 ↔ condEq (getReg s rs1) (getReg s 0#5) = true := condEq_iff.symm
    have hbne : getReg s rs1 ≠ 0#32 ↔ condNe (getReg s rs1) (getReg s 0#5) = true := condNe_iff.symm
    obtain ⟨-, -, hbeq_raises⟩ := branch_results (i := .beq rs1 0#5 o) rfl hbeq
    obtain ⟨-, -, hbne_raises⟩ := branch_results (i := .bne rs1 0#5 o) rfl hbne
    exact ⟨by rw [expand, hoffset]; rfl, by rw [expand, hoffset]; rfl, branch_goesTo rfl hbeq,
      fun hok => branch_goesTo rfl hbne (hok.imp_right not_not_intro),
      fun hmis => ⟨fun hz => hbeq_raises hz hmis, fun hnz => hbne_raises hnz hmis⟩⟩
  case jal =>
    have hoffset : offset21Of (distance s.pc label) = some o := by
      rw [hlabel, distance_add_ofInt (by decide), offset21Of_toInt heven]
    obtain rfl := hlabel.trans (jalTarget_eq s o).symm
    obtain ⟨hj, hj_raises⟩ := jumpAndLink_results (i := .jal 0#5 o) (s := s) rfl
    obtain ⟨hjal, hjal_raises⟩ := jumpAndLink_results (i := .jal 1#5 o) (s := s) rfl
    exact ⟨by rw [expand, hoffset]; rfl, by rw [expand, hoffset]; rfl,
      fun halign => ⟨(hj halign).imp fun _ => And.imp_right Links.goesTo, hjal halign⟩,
      fun hmis => ⟨hj_raises hmis, hjal_raises hmis⟩⟩
  case jalr =>
    obtain ⟨hjr, hjr_raises⟩ := jumpAndLink_results (i := .jalr 0#5 r 0#12) (s := s) rfl
    refine ⟨fun halign => ?aligned, fun hmis hkeep => ?misaligned⟩
    case aligned =>
      rw [jalrTarget_zero (.inl halign)] at hjr
      exact (hjr halign).imp fun _ => And.imp_right Links.goesTo
    case misaligned =>
      rw [jalrTarget_zero (.inr hkeep)] at hjr_raises
      exact hjr_raises hmis

end Sys2Proof.Machine
end

section
/-! PROOFS for `60_exceptions.md`: an instruction applies an effect or raises one of its own exceptions, a fetch that fails
its checks is the whole step, and a trap is the environment's answer. -/

namespace Sys2Proof.Machine

/-! ## Traps are precise (R220, R222) -/

/-- All an instruction can do, with the tables of R24, R27, R50 and R220 on each side: an effect they allow it, or one of its
own exceptions on the state it found. -/
theorem exec_fits_or_raises (i : Instr) (s : State) :
    (∃ e, Fits i s e ∧ exec i s = .next (e.apply s)) ∨ ∃ f, f ∈ canRaise s i ∧ exec i s = raise f s := by
  obtain ⟨plan, hplan⟩ := exec_follows i
  have hexec := hplan.exec_eq s
  cases hp : plan s with
  | ok e => exact .inl ⟨e, hplan.fits s e hp, by rw [hexec, hp]; rfl⟩
  | error f => exact .inr ⟨f, hplan.raises s f hp, by rw [hexec, hp]; rfl⟩

/-- Settles O40: an effect leaves the count of answers as it was. -/
theorem instructionCompletesOrTraps : Obligations.InstructionCompletesOrTraps := by
  unfold Obligations.InstructionCompletesOrTraps
  intro i s
  obtain ⟨e, -, hnext⟩ | htrap := exec_fits_or_raises i s
  · exact .inl ⟨e.apply s, hnext, e.apply_answered s⟩
  · exact .inr htrap

/-! ## The trap of a fetch (R211, R223, R242) -/

/-- A fetch that fails its checks is all the step does: nothing is decoded. -/
theorem step_of_accessFault {s : State} (h : fetch s = .accessFault) :
    step s = raise (.instructionAccessFault s.pc) s := by
  simp [step, h]

/-- Settles O10: each clause fails one of the fetch's two checks. -/
theorem fetchOutsideMemoryTraps : Obligations.FetchOutsideMemoryTraps := by
  unfold Obligations.FetchOutsideMemoryTraps
  refine ⟨fun s k hk hinvalid => ?outside, fun s hpc => ?misaligned⟩
  case outside => exact step_of_accessFault (fetch_accessFault.2 (.inr (validSpan_eq_false.2 ⟨k, hk, hinvalid⟩)))
  case misaligned =>
    have hunaligned : aligned4 s.pc = false := Bool.eq_false_iff.2 (mt aligned4_iff.1 hpc)
    exact step_of_accessFault (fetch_accessFault.2 (.inl hunaligned))

/-! ## What any trap does (R221, R225) -/

/-- Settles O38, field by field of the state resumed at. -/
theorem trapGoesToTheEnvironment : Obligations.TrapGoesToTheEnvironment := by
  unfold Obligations.TrapGoesToTheEnvironment
  intro e s
  refine ⟨fun hhalt => raise_halt hhalt, fun a ha => ⟨resume s a, raise_resume ha, ?_⟩⟩
  exact ⟨resume_regs s a, resume_pc s a, resume_mem s a, fun _ => mem_resume_written, resume_cfg s a,
    resume_answered s a⟩

end Sys2Proof.Machine
end

section
/-! PROOFS for `70_reset_and_hazards.md`: the first step after reset, a word the environment loads at `pc` is fetched and
decoded there, and a run that stops ends by the instruction or the check that stopped it. -/

namespace Sys2Proof.Machine

/-! ## The first step after reset (R240, R242) -/

/-- Reset leaves `Written` empty, so where the checks pass the fetch gives the word at `RESET_PC`. -/
theorem fetch_boot {cfg : Config} {x : Regs} (hpc : cfg.resetPc.toNat % 4 = 0)
    (hvalid : ∀ k, k < 4 → validAddr cfg (cfg.resetPc + BitVec.ofNat 32 k) = true) :
    fetch (State.boot cfg x) = .word ((State.boot cfg x).mem.read cfg.resetPc .word) :=
  fetch_word.2 ⟨aligned4_iff.2 hpc, validSpan_iff_offsets.2 hvalid, staleSpan_eq_false fun _ _ => List.not_mem_nil, rfl⟩

/-- Settles O47: the two traps are O10's, at the reset state. -/
theorem firstStepAfterReset : Obligations.FirstStepAfterReset := by
  unfold Obligations.FirstStepAfterReset
  intro cfg x
  obtain ⟨houtside, hmisaligned⟩ := fetchOutsideMemoryTraps
  refine ⟨fun htrap => ?traps, fun hpc hvalid => ?fetches⟩
  case traps =>
    obtain hpc | ⟨k, hk, hinvalid⟩ := htrap
    · exact hmisaligned (State.boot cfg x) hpc
    · exact houtside (State.boot cfg x) k hk hinvalid
  case fetches => rw [fetch_boot hpc hvalid, read_word]; rfl

/-! ## A word loaded at `pc` (R242, log 24) -/

theorem validAddr_iff {cfg : Config} {a : Word} :
    validAddr cfg a = true ↔ ∃ r ∈ cfg.memValid, Region.contains r a = true := by
  simp [validAddr, List.any_eq_true]

/-- Under `MEM_VALID` extended by an access the access is valid. -/
theorem validSpan_of_coverSpan {cfg cover : Config} {a : Word} {n : Nat} (hcover : cover.memValid = coverSpan cfg a n) :
    validSpan cover a n = true := by
  refine validSpan_iff.2 fun b hb => validAddr_iff.2 ?_
  rw [hcover, coverSpan]
  split
  · rename_i hvalid
    exact validAddr_iff.1 (validSpan_iff.1 hvalid b hb)
  · have hself : Region.contains ⟨b, b⟩ b = true := by simp [Region.contains, BitVec.ule]
    exact ⟨⟨b, b⟩, List.mem_append_right _ (List.mem_map_of_mem hb), hself⟩

section LoadWordAt
variable (s : State) (a w : Word)

@[simp] theorem loadWordAt_hasMul : (loadWordAt s a w).cfg.hasMul = (s.cfg.hasMul || needsHasMul w) := rfl

theorem mem_loadWordAt_written {k : Nat} :
    k ∈ (loadWordAt s a w).written ↔ k ∈ s.written ∧ ∀ b ∈ span a 4, b.toNat ≠ k := by
  simp [loadWordAt]

theorem validSpan_loadWordAt : validSpan (loadWordAt s a w).cfg a 4 = true := validSpan_of_coverSpan rfl

/-- The bytes loaded leave `Written` (R62). -/
theorem staleSpan_loadWordAt : staleSpan (loadWordAt s a w) a 4 = false :=
  staleSpan_eq_false fun k hk hwritten => by
    obtain ⟨-, hother⟩ := (mem_loadWordAt_written s a w).1 hwritten
    exact hother _ (mem_span.2 ⟨k, hk, rfl⟩) rfl

/-- Loading puts the bytes where a store of the word would. -/
theorem read_loadWordAt : (loadWordAt s a w).mem.read a .word = w := read_storeBytes_self s .word a w

theorem fetch_loadWordAt (hpc : s.pc.toNat % 4 = 0) : fetch (loadWordAt s s.pc w) = .word w :=
  fetch_word.2 ⟨aligned4_iff.2 hpc, validSpan_loadWordAt s s.pc w, staleSpan_loadWordAt s s.pc w,
    (read_loadWordAt s s.pc w).symm⟩

end LoadWordAt

/-- Clearing the two low bits moves an address down to a multiple of 4. -/
theorem toNat_and_clearLow2_mod (a : Word) : (a &&& 0xFFFFFFFC#32).toNat % 4 = 0 :=
  calc (a &&& 0xFFFFFFFC#32).toNat % 2 ^ 2
    _ = a.toNat % 2 ^ 2 &&& 0xFFFFFFFC % 2 ^ 2 := by rw [BitVec.toNat_and, Nat.and_mod_two_pow]; rfl
    _ = 0 := Nat.and_zero _

/-- All 32 bits of the word are loaded. -/
theorem withFetchWord_toNat (s : State) (w : Word) :
    s.withFetchWord 32 w.toNat = loadWordAt (s.setPc (s.pc &&& 0xFFFFFFFC#32)) (s.pc &&& 0xFFFFFFFC#32) w := by
  simp [State.withFetchWord, Nat.mod_eq_of_lt w.isLt]

theorem fetch_withFetchWord (s : State) (w : Word) : fetch (s.withFetchWord 32 w.toNat) = .word w := by
  rw [withFetchWord_toNat]
  exact fetch_loadWordAt _ w (toNat_and_clearLow2_mod s.pc)

theorem needsHasMul_of_mulRow {w : Word} (h : mulRow.matchesWord w = true) : needsHasMul w = true := by
  rw [needsHasMul, decodeWord_mul_illegal h, decodeWord_mul h]

/-- The word of a `mul` is an instruction only under `HAS_MUL` (R180). -/
theorem needsHasMul_encode {i : Instr} (hwf : i.wf = true) (hmul : i.isMul = true) : needsHasMul (encode i) = true := by
  obtain ⟨r, hr, hmatch, -, hneeds⟩ := rowOfEncode i hwf
  obtain rfl := eq_mulRow_of_needsMul r hr (hneeds.trans hmul)
  exact needsHasMul_of_mulRow hmatch

/-- Settles O13: the fetch gives the word loaded, and loading sets `HAS_MUL` where decoding needs it. -/
theorem loadedInstructionRuns : Obligations.LoadedInstructionRuns := by
  unfold Obligations.LoadedInstructionRuns
  intro s i hwf
  refine step_of_fetch_decode (fetch_withFetchWord s (encode i)) (decodeOfEncode _ i hwf fun hmul => ?_)
  rw [withFetchWord_toNat, loadWordAt_hasMul, needsHasMul_encode hwf hmul, Bool.or_true]

/-! ## How a run ends (R246) -/

/-- All a step can be: an instruction fetched and decoded, the refusal, or a trap of the fetch or the decode (R14, R223). -/
theorem step_cases (s : State) :
    (∃ inst i, fetch s = .word inst ∧ decodeWord s.cfg.hasMul inst = .ok i ∧ step s = exec i s) ∨
      step s = .refused (.staleFetch s.pc) ∨ step s = raise (.instructionAccessFault s.pc) s ∨
      ∃ inst, step s = raise (.illegalInstruction inst) s := by
  cases hfetch : fetch s with
  | accessFault => exact .inr (.inr (.inl (step_of_accessFault hfetch)))
  | stale => exact .inr (.inl (step_of_stale hfetch))
  | word inst =>
    cases hdecode : decodeWord s.cfg.hasMul inst with
    | ok i => exact .inl ⟨inst, i, rfl, hdecode, step_of_fetch_decode hfetch hdecode⟩
    | error r => exact .inr (.inr (.inr ⟨inst, by simp [step, hfetch, hdecode]⟩))

section EndOfRun
variable {s : State} {i : Instr}

/-- Under `Halt` a trap ends the run with its exception. -/
theorem endingOf_raise (hhalt : ∀ e, answerTo s e = none) (e : Fault) :
    endingOf (raise e s) = endingOf (.fault e) := by
  rw [raise_halt (hhalt e)]

/-- A fetched encoding of an instruction outside the extension table runs that instruction. -/
theorem step_of_fetch_encode (hwf : i.wf = true) (hmul : i.isMul = false) (hfetch : fetch s = .word (encode i)) :
    step s = exec i s :=
  step_of_fetch_decode hfetch (decodeOfEncode _ i hwf fun h => by rw [hmul] at h; cases h)

/-- Only `ecall` and `ebreak` raise the two exceptions that end a run for good (R218, R219). -/
theorem endingOf_canRaise (hecall : i ≠ .ecall) (hebreak : i ≠ .ebreak) :
    ∀ e ∈ canRaise s i, endingOf (.fault e) = some .notFinal := by
  cases i with
  | ecall => exact absurd rfl hecall
  | ebreak => exact absurd rfl hebreak
  | _ => simp [canRaise, endingOf]

/-- An instruction that stops a run under `Halt` and is neither of the two has trapped. -/
theorem endingOf_exec (hhalt : ∀ e, answerTo s e = none) (hecall : i ≠ .ecall) (hebreak : i ≠ .ebreak)
    (hstop : ∀ t, exec i s ≠ .next t) : endingOf (exec i s) = some .notFinal := by
  obtain ⟨t, hnext, -⟩ | ⟨e, he, htrap⟩ := instructionCompletesOrTraps i s
  · exact absurd hnext (hstop t)
  · rw [htrap, endingOf_raise hhalt, endingOf_canRaise hecall hebreak e he]

end EndOfRun

/-- Settles O55: `ecall` and `ebreak` are the only instructions with their words (R91), and every other stop is the
refusal or another trap. -/
theorem endOfRun : Obligations.EndOfRun := by
  unfold Obligations.EndOfRun
  intro s hhalt
  refine ⟨fun hfetch => ?ecall, fun hfetch => ?ebreak, fun hstop hecall hebreak => ?other⟩
  case ecall =>
    rw [step_of_fetch_encode (i := .ecall) rfl rfl hfetch]
    exact endingOf_raise hhalt (.environmentCall s.pc)
  case ebreak =>
    rw [step_of_fetch_encode (i := .ebreak) rfl rfl hfetch]
    exact endingOf_raise hhalt (.breakpoint s.pc)
  case other =>
    obtain ⟨inst, i, hfetch, hdecode, hstep⟩ | hstale | hfault | ⟨inst, hillegal⟩ := step_cases s
    · obtain ⟨rfl, -⟩ := encodeOfDecode _ inst i hdecode
      rw [hstep] at hstop ⊢
      refine endingOf_exec hhalt ?_ ?_ hstop
      · rintro rfl; exact hecall hfetch
      · rintro rfl; exact hebreak hfetch
    · rw [hstale]; rfl
    · rw [hfault, endingOf_raise hhalt]; rfl
    · rw [hillegal, endingOf_raise hhalt]; rfl

end Sys2Proof.Machine
end
